-- ==== Sys2Proof/Word.lean ====
section
/-! DEFINITION. The word types of BRBCD (spec/10_state.md R11, spec/30_encoding.md R63, R71, R73). -/

namespace Sys2Proof

/-- One byte of the byte source, and every 8-bit field: a jump coordinate, `cx`, `cy`, `layer`,
`CMD.arg`, `RSP.data` (R11, R40, R67, R71, R73). -/
abbrev Byte := BitVec 8

/-- The bit buffer `br.buf`, `BUFW = NMAX + 7 = 15` bits wide (R6, R12). -/
abbrev BitBuf := BitVec 15

/-- The fill length `br.fill`, 4 bits wide (R11, R13). -/
abbrev FillLen := BitVec 4

/-- A command word on the CMD port: `op[11:8]`, `arg[7:0]` (R71). -/
abbrev CmdWord := BitVec 12

/-- A response word on the RSP port: `status[11:8]`, `data[7:0]` (R73). -/
abbrev RspWord := BitVec 12

/-- The notational instruction word `W` of R63, at the longest length, 21 bits. -/
abbrev ChainWord := BitVec 21

end Sys2Proof
end

