-- ==== Sys2Proof/Config.lean ====
section
/-! DEFINITION. The parameters of the block (spec/00_scope.md R6) and its one free value. -/

namespace Sys2Proof.Config

/-- `NMAX`, the largest `n` a `ReadBits(n)` may carry; fixed at 8 by the spec (R6, D2, U17). -/
def nmax : Nat := 8

/-- `BUFW = NMAX + 7` (R6, R12): the width of `BitBuf`. -/
def bufW : Nat := nmax + 7

/-- `LAYERS`, the number of layers of GRID (R6). -/
def layers : Nat := 256

/-- `GRID_BITS`, the cells of one layer (R6). -/
def gridBits : Nat := 65536

/-- FREE VALUE (spec/70_reset_and_hazards.md R172, U8, D17; assumption log 1): what the GRID cell at
a flat address holds at power-on. It has no body: nothing can be proved of it. -/
opaque powerOnBit : Nat → Bool

end Sys2Proof.Config
end

