-- ==== Sys2Proof/Syntax.lean ====
section
/-! DEFINITION. The instructions of BRBCD, one constructor per row of spec/opcode_table.json: the
eleven chain-code rows (spec/30_encoding.md R69) and the seven host commands (R72). -/

namespace Sys2Proof

/-- An instruction of either set of R60. A command that ignores `CMD.arg` still carries it, so that
no bit of a command word is lost. -/
inductive Instr where
  /-- STEPX (R91). -/
  | stepx
  /-- STEPY (R92). -/
  | stepy
  /-- STEPXY (R93). -/
  | stepxy
  /-- DXNEG (R101). -/
  | dxneg
  /-- DXPOS (R102). -/
  | dxpos
  /-- DYNEG (R103). -/
  | dyneg
  /-- DYPOS (R104). -/
  | dypos
  /-- JUMP x, y (R110). -/
  | jump (x y : Byte)
  /-- STOP (R111). -/
  | stop
  /-- RSV2, a reserved encoding (R112). -/
  | rsv2
  /-- RSV3, a reserved encoding (R113). -/
  | rsv3
  /-- RDBITS n (R81). -/
  | rdbits (n : Byte)
  /-- RDBYTE, `arg` ignored (R82). -/
  | rdbyte (arg : Byte)
  /-- CLOSE, `arg` ignored (R83). -/
  | close (arg : Byte)
  /-- LBEGIN b (R120). -/
  | lbegin (b : Byte)
  /-- STEP, `arg` ignored (R121). -/
  | step (arg : Byte)
  /-- LRUN b (R123). -/
  | lrun (b : Byte)
  /-- ARUN, `arg` ignored (R124). -/
  | arun (arg : Byte)
deriving DecidableEq, Repr

end Sys2Proof
end

