-- ==== Sys2Proof/ChainCode.lean ====
section
/-! DEFINITION. The chain-code half of the instruction set as a type of its own: a host command is
never found in the byte source (spec/30_encoding.md R60), so what the block fetches from the source
is one of the eleven rows of R69 and nothing else. -/

namespace Sys2Proof

/-- A chain-code instruction with its operands (R69). -/
inductive ChainInstr where
  | stepx
  | stepy
  | stepxy
  | dxneg
  | dxpos
  | dyneg
  | dypos
  | jump (x y : Byte)
  | stop
  | rsv2
  | rsv3
deriving DecidableEq, Repr

end Sys2Proof
end

