-- ==== Sys2Proof/WellFormed.lean ====
section
/-! DEFINITION. Which instructions the spec calls legal. An ill-formed instruction still decodes
and still has its meaning (it raises the fault the spec names); well-formed is what a stream producer
or a host should emit. -/

namespace Sys2Proof

/-- R72: RDBITS's `n` is legal from 1 to `NMAX`. -/
def legalLength (n : Byte) : Bool :=
  decide (1 ≤ n.toNat) && decide (n.toNat ≤ Config.nmax)

/-- Legal instructions: RDBITS has a legal length (R72, R146), and the encoding is not one of the two
that R70 reserves. Every other operand value is legal (R67, R72). -/
def Instr.wellFormed : Instr → Bool
  | .rdbits n => legalLength n
  | .rsv2 => false
  | .rsv3 => false
  | .stepx => true
  | .stepy => true
  | .stepxy => true
  | .dxneg => true
  | .dxpos => true
  | .dyneg => true
  | .dypos => true
  | .jump _ _ => true
  | .stop => true
  | .rdbyte _ => true
  | .close _ => true
  | .lbegin _ => true
  | .step _ => true
  | .lrun _ => true
  | .arun _ => true

end Sys2Proof
end

