-- ==== Sys2Proof/Decode.lean ====
section
/-! DEFINITION. The decoder and the encoder of the chain code and of the host command words
(spec/30_encoding.md R61 to R73, R76), and the bit order of the stream (spec/20_memory.md R46, R47). -/

namespace Sys2Proof

/-- Why bits are no instruction. -/
inductive DecodeError where
  /-- The bits end inside a chain instruction (the block itself reads this as a stop, R114). -/
  | truncated
  /-- The command's `op` is one of the reserved values of R72 (the block raises `BAD_COMMAND`, R151). -/
  | reservedCommand (op : BitVec 4)
deriving DecidableEq, Repr

/-! ### Bits and fields -/

/-- The low `n` bits of a word, bit 0 first: the order in which they stand in the stream (R46, R63). -/
def bitsOf {w : Nat} (n : Nat) (v : BitVec w) : List Bool :=
  (List.range n).map v.getLsbD

/-- The stream bits of a byte sequence: stream bit `k` is bit `k mod 8` of byte `k div 8` (R46). -/
def streamBits (bytes : List Byte) : List Bool :=
  bytes.flatMap (bitsOf 8)

/-- The value of a field, its first stream bit the least significant (R47). -/
def fieldValue : List Bool → Nat
  | [] => 0
  | b :: bs => b.toNat + 2 * fieldValue bs

/-- Read an `n`-bit field from the front of a bit list; nothing is consumed where too few are left. -/
def takeField (n : Nat) (bits : List Bool) : Except DecodeError Byte × List Bool :=
  if n ≤ bits.length then (.ok (BitVec.ofNat 8 (fieldValue (bits.take n))), bits.drop n)
  else (.error .truncated, bits)

/-! ### Decoding the chain code -/

/-- The primary op `p` (R68, R69): an instruction of 2 bits, or none for `p = 3`. -/
def decodePrimary (p : BitVec 2) : Option ChainInstr :=
  if p = 0 then some .stepx
  else if p = 1 then some .stepy
  else if p = 2 then some .stepxy
  else none

/-- The flag `f` and sub-op `q` behind `p = 3` (R68, R69): an instruction of 5 bits, or none for the
jump's header `f = 0, q = 0`, which two coordinates follow. -/
def decodeSub (f : BitVec 1) (q : BitVec 2) : Option ChainInstr :=
  if f = 1 then
    if q = 0 then some .dxneg
    else if q = 1 then some .dxpos
    else if q = 2 then some .dyneg
    else some .dypos
  else
    if q = 0 then none
    else if q = 1 then some .stop
    else if q = 2 then some .rsv2
    else some .rsv3

/-- The jump's operands (R67, R110): `x`, then `y`, each one read of 8 bits. -/
def decodeJump {σ ε : Type} (read : Nat → σ → Except ε Byte × σ) (s : σ) :
    Except ε ChainInstr × σ :=
  match read 8 s with
  | (.error e, s1) => (.error e, s1)
  | (.ok x, s1) =>
    match read 8 s1 with
    | (.error e, s2) => (.error e, s2)
    | (.ok y, s2) => (.ok (.jump x y), s2)

/-- What follows `p = 3` (R62, R122): the flag is read before the sub-op, both before either is used. -/
def decodeLong {σ ε : Type} (read : Nat → σ → Except ε Byte × σ) (s : σ) :
    Except ε ChainInstr × σ :=
  match read 1 s with
  | (.error e, s1) => (.error e, s1)
  | (.ok f, s1) =>
    match read 2 s1 with
    | (.error e, s2) => (.error e, s2)
    | (.ok q, s2) =>
      match decodeSub (f.setWidth 1) (q.setWidth 2) with
      | some c => (.ok c, s2)
      | none => decodeJump read s2

/-- The decoder of R68, over any way of reading fields: it finds an instruction's length as it goes.
The block runs it over `ReadBits` (R122); `decodeBits` runs it over a list of bits. -/
def decodeWith {σ ε : Type} (read : Nat → σ → Except ε Byte × σ) (s : σ) :
    Except ε ChainInstr × σ :=
  match read 2 s with
  | (.error e, s1) => (.error e, s1)
  | (.ok p, s1) =>
    match decodePrimary (p.setWidth 2) with
    | some c => (.ok c, s1)
    | none => decodeLong read s1

/-- The chain instruction at the front of a list of stream bits, and the bits behind it. -/
def decodeBits (bits : List Bool) : Except DecodeError ChainInstr × List Bool :=
  decodeWith takeField bits

/-- The chain instruction that starts on the first bit of a byte sequence. -/
def decodeBytes (bytes : List Byte) : Except DecodeError ChainInstr :=
  (decodeBits (streamBits bytes)).1

/-- A chain instruction as an instruction of the whole table. -/
def ChainInstr.toInstr : ChainInstr → Instr
  | .stepx => .stepx
  | .stepy => .stepy
  | .stepxy => .stepxy
  | .dxneg => .dxneg
  | .dxpos => .dxpos
  | .dyneg => .dyneg
  | .dypos => .dypos
  | .jump x y => .jump x y
  | .stop => .stop
  | .rsv2 => .rsv2
  | .rsv3 => .rsv3

/-! ### Decoding a command word -/

/-- `CMD.op` (R71). -/
def cmdOp (w : CmdWord) : BitVec 4 := w.extractLsb' 8 4

/-- `CMD.arg` (R71). -/
def cmdArg (w : CmdWord) : Byte := w.extractLsb' 0 8

/-- The command table of R72; the other nine values of `op` are reserved. -/
def decodeCmd (w : CmdWord) : Except DecodeError Instr :=
  if cmdOp w = 0x1 then .ok (.rdbits (cmdArg w))
  else if cmdOp w = 0x2 then .ok (.rdbyte (cmdArg w))
  else if cmdOp w = 0x3 then .ok (.close (cmdArg w))
  else if cmdOp w = 0x8 then .ok (.lbegin (cmdArg w))
  else if cmdOp w = 0x9 then .ok (.step (cmdArg w))
  else if cmdOp w = 0xA then .ok (.lrun (cmdArg w))
  else if cmdOp w = 0xB then .ok (.arun (cmdArg w))
  else .error (.reservedCommand (cmdOp w))

/-! ### Words numbered as the opcode table numbers them -/

/-- The first three bytes (the longest instruction has 21 bits) of a chain word of `nbits` bits, as
the source delivers them, every bit above `nbits` zero. -/
def wordBytes (nbits w : Nat) : List Byte :=
  [BitVec.ofNat 8 (w % 2 ^ nbits), BitVec.ofNat 8 (w % 2 ^ nbits / 2 ^ 8),
    BitVec.ofNat 8 (w % 2 ^ nbits / 2 ^ 16)]

/-- The lengths at which the opcode table's command rows come: 12 bits, or 16 in whole bytes. The
chain rows come as 2, 5 or 21 bits, or 8 or 24 in whole bytes. -/
def isCmdLength (nbits : Nat) : Bool := nbits == 12 || nbits == 16

/-- The lengths at which the opcode table's chain rows come. -/
def isChainLength (nbits : Nat) : Bool :=
  nbits == 2 || nbits == 5 || nbits == 8 || nbits == 21 || nbits == 24

/-- The instruction that the decoder reads from a word of the opcode table: a command word by its
12 bits, a chain word by the bytes the source would deliver. -/
def decodeTableWord (nbits w : Nat) : Option Instr :=
  if isCmdLength nbits then (decodeCmd (BitVec.ofNat 12 w)).toOption
  else if isChainLength nbits then
    ((decodeBytes (wordBytes nbits w)).toOption).map ChainInstr.toInstr
  else none

/-! ### Encoding -/

/-- A chain instruction's length in bits (R64 to R66). -/
def ChainInstr.length : ChainInstr → Nat
  | .stepx => 2
  | .stepy => 2
  | .stepxy => 2
  | .dxneg => 5
  | .dxpos => 5
  | .dyneg => 5
  | .dypos => 5
  | .jump _ _ => 21
  | .stop => 5
  | .rsv2 => 5
  | .rsv3 => 5

/-- The instruction word `W` (R63, R69): the row's `match`, and the jump's operands at bits 12:5 and
20:13. -/
def ChainInstr.word : ChainInstr → ChainWord
  | .stepx => 0x00
  | .stepy => 0x01
  | .stepxy => 0x02
  | .dxneg => 0x07
  | .dxpos => 0x0F
  | .dyneg => 0x17
  | .dypos => 0x1F
  | .jump x y => 0x03 ||| (x.setWidth 21 <<< 5) ||| (y.setWidth 21 <<< 13)
  | .stop => 0x0B
  | .rsv2 => 0x13
  | .rsv3 => 0x1B

/-- An instruction's stream bits, `W[0]` first (R76). -/
def ChainInstr.bits (c : ChainInstr) : List Bool := bitsOf c.length c.word

/-- A program's stream bits: end to end, no padding (R51, R76). -/
def programBits (prog : List ChainInstr) : List Bool := prog.flatMap ChainInstr.bits

/-- Cut a bit string into bytes, the first bit as bit 0 of the first byte, the last byte filled with
zero bits (R76). -/
def packBits (bits : List Bool) : List Byte :=
  (List.range ((bits.length + 7) / 8)).map fun k =>
    BitVec.ofNat 8 (fieldValue ((bits.drop (8 * k)).take 8))

/-- Assembly to bytes (R76). -/
def assemble (prog : List ChainInstr) : List Byte := packBits (programBits prog)

/-- An instruction's length and word as the opcode table numbers them (R69, R72). -/
def encode : Instr → Nat × Nat
  | .stepx => (2, ChainInstr.stepx.word.toNat)
  | .stepy => (2, ChainInstr.stepy.word.toNat)
  | .stepxy => (2, ChainInstr.stepxy.word.toNat)
  | .dxneg => (5, ChainInstr.dxneg.word.toNat)
  | .dxpos => (5, ChainInstr.dxpos.word.toNat)
  | .dyneg => (5, ChainInstr.dyneg.word.toNat)
  | .dypos => (5, ChainInstr.dypos.word.toNat)
  | .jump x y => (21, (ChainInstr.jump x y).word.toNat)
  | .stop => (5, ChainInstr.stop.word.toNat)
  | .rsv2 => (5, ChainInstr.rsv2.word.toNat)
  | .rsv3 => (5, ChainInstr.rsv3.word.toNat)
  | .rdbits n => (12, (0x1#4 ++ n).toNat)
  | .rdbyte arg => (12, (0x2#4 ++ arg).toNat)
  | .close arg => (12, (0x3#4 ++ arg).toNat)
  | .lbegin b => (12, (0x8#4 ++ b).toNat)
  | .step arg => (12, (0x9#4 ++ arg).toNat)
  | .lrun b => (12, (0xA#4 ++ b).toNat)
  | .arun arg => (12, (0xB#4 ++ arg).toNat)

end Sys2Proof
end

