-- ==== Sys2Proof/Machine/State.lean ====
section
/-! DEFINITION. The state of BRBCD (spec/10_state.md R11) as plain data, with the byte source bound to
it (spec/20_memory.md R41), the two ports a host sees, and the reasons a step can stop. -/

namespace Sys2Proof.Machine

/-- The eight fault codes of the block (spec/60_exceptions.md R141). These are outcomes of a command,
recorded in `fault` and shown in the response: taking one is a NEXT state, not a stop of the model. -/
inductive FaultCode where
  /-- Code 2: a needed pull answered `Fail` (R144). -/
  | ioFailure
  /-- Code 3: a read after CLOSE (R145). -/
  | useAfterClose
  /-- Code 4: `n = 0` or `n > NMAX` (R146). -/
  | badLength
  /-- Code 5: a step while the cursor is the sentinel (R147). -/
  | drawUnpositioned
  /-- Code 6: a step out of 0 to 255 (R148). -/
  | cursorRange
  /-- Code 7: RSV2 or RSV3 (R149). -/
  | reservedOpcode
  /-- Code 8: STEP with no layer open (R150). -/
  | layerNotOpen
  /-- Code 9: a reserved `CMD.op` (R151). -/
  | badCommand
deriving DecidableEq, Repr

/-- The `status` field of a response (R74, R140): success, end-of-stream, or a fault. -/
inductive Status where
  | ok
  | eos
  | fault (c : FaultCode)
deriving DecidableEq, Repr

/-- A response on the RSP port (R73). -/
structure Rsp where
  status : Status
  data : Byte
deriving DecidableEq, Repr

/-- Why `ReadBits` returns no value (spec/40_bitreader.md R80). -/
inductive ReadStop where
  /-- The answer `Eos`: fewer than `n` bits are left. -/
  | eos
  /-- The answer `Fault(code)`: the fault has been raised. -/
  | fault (c : FaultCode)
deriving DecidableEq, Repr

/-- How a chain instruction ends (spec/44_layer_control.md R121, R122). -/
inductive Ending where
  /-- The layer continues. -/
  | cont
  /-- The layer has ended. -/
  | stop
  /-- The instruction has raised a fault. -/
  | fault (c : FaultCode)
deriving DecidableEq, Repr

/-- The two halves of the BitReader's buffer, and its closed flag (R12, R13, R16). -/
structure BitReader where
  /-- `br.buf`: bit 0 is the next bit to be returned. -/
  buf : BitBuf
  /-- `br.fill`: the number of valid bits in `buf`. -/
  fill : FillLen
  /-- `br.closed`: CLOSE has been executed. -/
  closed : Bool
deriving DecidableEq, Repr

/-- A cursor that is a cell; the sentinel is `none` in State (R17, D11). -/
structure Cursor where
  /-- `cx`, the x or r coordinate. -/
  cx : Byte
  /-- `cy`, the y or g coordinate. -/
  cy : Byte
deriving DecidableEq, Repr

/-- A step direction, +1 or -1 (R18, D11). -/
inductive Dir where
  /-- +1, stored as 0. -/
  | pos
  /-- -1, stored as 1. -/
  | neg
deriving DecidableEq, Repr

/-- The byte source bound at reset (spec/20_memory.md R41). -/
structure Source where
  /-- The bytes it delivers, in order; never changed by the block. -/
  data : List Byte
  /-- The position at which a pull fails, if there is one; never changed by the block. -/
  failAt : Option Nat
  /-- The number of bytes delivered so far. -/
  pos : Nat
  /-- `SrcClose()` has been called. -/
  closed : Bool
deriving DecidableEq, Repr

/-- GRID, 256 layers of 65,536 one-bit cells (spec/20_memory.md R48), in a canonical form
(`Memory.wf`). A cell's address is `l * 65536 + i` (R49, R53). A listed address holds 1; an
unlisted one holds 0 where its layer has been cleared since power-on, and no value where it has
not (R172): nothing in the block reads it. -/
structure Grid where
  /-- The layers cleared since power-on, strictly rising. -/
  cleared : List Nat
  /-- The addresses of the cells that have been set, strictly rising. -/
  marks : List Nat
deriving DecidableEq, Repr

/-- What the host can do to the block, one thing at a time (R10, R71, R170). -/
inductive HostInput where
  /-- A command word on the CMD port. -/
  | cmd (w : CmdWord)
  /-- Reset, which samples `PROPAGATE_CLOSE` and binds a source that has delivered nothing
  (R170, R173). -/
  | reset (propagateClose : Bool) (data : List Byte) (failAt : Option Nat)
deriving DecidableEq, Repr

/-- The whole state: the record of R11, its configuration bit (R22), the bound source (R41), and the
host's side of the CMD and RSP ports (R10). -/
structure State where
  /-- `br.buf`, `br.fill`, `br.closed`. -/
  br : BitReader
  /-- The byte source. -/
  src : Source
  /-- `cursor`: `none` is the sentinel, `pos_valid = 0` (R17). -/
  cursor : Option Cursor
  /-- `dx` (R18). -/
  dx : Dir
  /-- `dy` (R18). -/
  dy : Dir
  /-- `layer` (R19). -/
  layer : Byte
  /-- `active` (R20). -/
  active : Bool
  /-- `fault`: the first fault since reset, `none` for the value 0 (R21). -/
  fault : Option FaultCode
  /-- GRID (R29, R48). -/
  grid : Grid
  /-- `PROPAGATE_CLOSE` as sampled at the last reset (R22). -/
  propagateClose : Bool
  /-- What the host will put to the block, oldest first (assumption log 3). -/
  inputs : List HostInput
  /-- The responses given on the RSP port, oldest first (R73; assumption log 3). -/
  rsps : List Rsp
deriving DecidableEq, Repr

/-- The machine right after reset (R27, R171), bound to the source with no bytes and with
`PROPAGATE_CLOSE` sampled as 0 (assumption log 2: the spec makes both parameters), GRID with no cell
of known content (R172), and a host that has asked for nothing. -/
def State.reset : State where
  br := { buf := 0, fill := 0, closed := false }
  src := { data := [], failAt := none, pos := 0, closed := false }
  cursor := none
  dx := .pos
  dy := .pos
  layer := 0
  active := false
  fault := none
  grid := { cleared := [], marks := [] }
  propagateClose := false
  inputs := []
  rsps := []

/-- Why the model itself may stop. -/
inductive Fault where
  /-- Raised by LRUN and ARUN if a layer had not ended after the number of STEPs that R125 bounds it
  by. Safe; R125 says that it is raised by no state, and a law of this package proves it. -/
  | loopBoundExceeded
deriving DecidableEq, Repr

/-- Why the model may refuse an instruction. -/
inductive Refusal where
  /-- An instruction without a meaning yet. Safe; no arm of `exec` answers with it. -/
  | notModelled (mnemonic : String)
deriving DecidableEq, Repr

end Sys2Proof.Machine
end

