-- ==== Sys2Proof/Machine/Ops.lean ====
section
/-! DEFINITION. The named operations that the instructions are written over: GRID, the byte source,
raising a fault, `ReadBits`, responses, and reset. -/

namespace Sys2Proof.Machine

/-! ### GRID -/

/-- The index of a cell inside its layer, `cx | (cy << 8)` (spec/20_memory.md R49). -/
def cellIndex (c : Cursor) : BitVec 16 := c.cx.setWidth 16 ||| (c.cy.setWidth 16 <<< 8)

/-- The flat address of cell `i` of layer `l`, `l * 65536 + i` (R53; assumption log 4). -/
def cellAddr (l : Byte) (i : BitVec 16) : Nat := l.toNat * Config.gridBits + i.toNat

/-- The layer an address lies in. -/
def addrLayer (a : Nat) : Nat := a / Config.gridBits

/-- Put a number into a strictly rising list, which stays strictly rising and holds it once. -/
def insertRising (a : Nat) : List Nat → List Nat
  | [] => [a]
  | b :: bs => if a < b then a :: b :: bs else if a = b then b :: bs else b :: insertRising a bs

/-- The canonical form of GRID: both lists strictly rising, every layer below 256, and every set cell
in a layer that has been cleared since power-on (R172: content is defined from then on only). Two
grids in this form that hold the same known content are the same data. -/
abbrev Memory.wf (g : Grid) : Prop :=
  g.cleared.Pairwise (· < ·) ∧ (∀ l ∈ g.cleared, l < Config.layers) ∧
    g.marks.Pairwise (· < ·) ∧ ∀ a ∈ g.marks, addrLayer a ∈ g.cleared

/-- What is known of the cell at an address: 1 if it is set, 0 if it is not and its layer has been
cleared since power-on, nothing otherwise (R172). -/
def Grid.read? (g : Grid) (a : Nat) : Option Bool :=
  if a ∈ g.marks then some true
  else if addrLayer a ∈ g.cleared then some false
  else none

/-- What the host reads at an address through its own port (R184, D23): an unspecified cell reads as
the free value of `Config.powerOnBit` (assumption log 1). No instruction reads GRID. -/
def Grid.bit (g : Grid) (a : Nat) : Bool := (g.read? a).getD (Config.powerOnBit a)

/-- `GRID[l][i] <- 0` for every `i` of layer `l` (spec/44_layer_control.md R120). -/
def Grid.clearLayer (l : Byte) (g : Grid) : Grid :=
  { cleared := insertRising l.toNat g.cleared
    marks := g.marks.filter fun a => addrLayer a != l.toNat }

/-- `GRID[l][i] <- 1` at the address of cell `i` of layer `l` (spec/20_memory.md R48). -/
def Grid.setCell (a : Nat) (g : Grid) : Grid :=
  { g with marks := insertRising a g.marks }

/-- The host's view of one cell, `GRID[l][i]` (R48). -/
def State.gridBit (s : State) (l : Byte) (i : BitVec 16) : Bool := s.grid.bit (cellAddr l i)

/-- Make a cell the cursor and `Mark()` it: the new cell is marked, after the cursor has been updated
(spec/20_memory.md R50). -/
def placeAndMark (c : Cursor) (s : State) : State :=
  { s with cursor := some c, grid := s.grid.setCell (cellAddr s.layer (cellIndex c)) }

/-! ### Faults -/

/-- `raise F` as far as state goes (spec/60_exceptions.md R142): `fault` takes the code, and only when
it is 0 (spec/10_state.md R21). Everything else keeps its value (R155); the command's response
carries the code. There is no handler, no saved state and no return from a fault (R156): only `resetWith`
clears `fault`. -/
def raise (c : FaultCode) (s : State) : State :=
  { s with fault := match s.fault with
      | none => some c
      | some first => some first }

/-! ### The byte source -/

/-- `SrcPull()` (spec/20_memory.md R42): the failure point is tested first, then the end of the data;
a byte delivered moves `pos`. -/
def Source.pull (src : Source) : Except ReadStop Byte × Source :=
  if src.failAt = some src.pos then (.error (.fault .ioFailure), src)
  else
    match src.data[src.pos]? with
    | none => (.error .eos, src)
    | some b => (.ok b, { src with pos := src.pos + 1 })

/-- `SrcClose()` (R45). -/
def Source.close (src : Source) : Source := { src with closed := true }

/-! ### The BitReader -/

/-- A pulled byte is ORed into the buffer at the current fill length (spec/40_bitreader.md R80). -/
def BitReader.push (b : Byte) (br : BitReader) : BitReader :=
  { br with
    buf := br.buf ||| (b.setWidth 15 <<< br.fill.toNat)
    fill := br.fill + 8 }

/-- The low `n` bits of the buffer, as a value (R80). -/
def BitReader.low (n : Nat) (br : BitReader) : Byte := BitVec.ofNat 8 (br.buf.toNat % 2 ^ n)

/-- Shift `n` bits out of the buffer (R80). -/
def BitReader.drop (n : Nat) (br : BitReader) : BitReader :=
  { br with buf := br.buf >>> n, fill := br.fill - BitVec.ofNat 4 n }

/-- Return and shift out the low `n` bits: the end of R80's rule. -/
def takeLow (n : Nat) (s : State) : Except ReadStop Byte × State :=
  (.ok (s.br.low n), { s with br := s.br.drop n })

/-- The pull of R80's loop, and the end of the rule behind it. A failed pull raises `IO_FAILURE`; on
`Eos` and on a failure the buffer and the source's position keep their values. -/
def pullAndTake (n : Nat) (s : State) : Except ReadStop Byte × State :=
  match s.src.pull with
  | (.ok b, src) => takeLow n { s with br := s.br.push b, src := src }
  | (.error .eos, _) => (.error .eos, s)
  | (.error (.fault c), _) => (.error (.fault c), raise c s)

/-- `ReadBits(n)` (spec/40_bitreader.md R80). With `n <= NMAX = 8` the loop of that rule runs at most
once: a pull happens if and only if `br.fill < n`, and one byte is then enough (R88). -/
def readBits (n : Nat) (s : State) : Except ReadStop Byte × State :=
  if s.br.closed then (.error (.fault .useAfterClose), raise .useAfterClose s)
  else if n < 1 ∨ Config.nmax < n then (.error (.fault .badLength), raise .badLength s)
  else if s.br.fill.toNat < n then pullAndTake n s
  else takeLow n s

/-! ### Commands and responses -/

/-- The gate of every command but CLOSE (spec/60_exceptions.md R143): while `fault` is not 0 the
command answers the recorded code and changes nothing. -/
def gated (body : State → Rsp × State) (s : State) : Rsp × State :=
  match s.fault with
  | some c => ({ status := .fault c, data := 0 }, s)
  | none => body s

/-- Put one response on the RSP port (spec/30_encoding.md R73). -/
def respond (r : Rsp) (s : State) : State := { s with rsps := s.rsps ++ [r] }

/-- End a command: exactly one response, then the next command may come (R10, R73). -/
def answer (r : Rsp × State) : Host.Outcome State Fault Refusal := .next (respond r.1 r.2)

/-- The STEP response to a chain instruction's ending (spec/44_layer_control.md R121, R73): bit 0 of
`data` is `cont`. -/
def Ending.rsp : Ending → Rsp
  | .cont => { status := .ok, data := 1 }
  | .stop => { status := .ok, data := 0 }
  | .fault c => { status := .fault c, data := 0 }

/-- The end of a STEP (R121), from how its chain instruction ended. -/
def answerStep (r : Ending × State) : Host.Outcome State Fault Refusal := answer (r.1.rsp, r.2)

/-- The numbers of the fault codes (spec/60_exceptions.md R141). -/
def FaultCode.code : FaultCode → BitVec 4
  | .ioFailure => 2
  | .useAfterClose => 3
  | .badLength => 4
  | .drawUnpositioned => 5
  | .cursorRange => 6
  | .reservedOpcode => 7
  | .layerNotOpen => 8
  | .badCommand => 9

/-- The numbers of the status codes (spec/30_encoding.md R74). -/
def Status.code : Status → BitVec 4
  | .ok => 0
  | .eos => 1
  | .fault c => c.code

/-- The 12-bit word on the RSP port (R73). -/
def Rsp.word (r : Rsp) : RspWord := r.status.code ++ r.data

/-- The 4-bit `fault` register as a number, 0 for no fault (spec/10_state.md R21). -/
def State.faultReg (s : State) : BitVec 4 :=
  match s.fault with
  | none => 0
  | some c => c.code

/-! ### Reset -/

/-- A source that has delivered nothing (spec/70_reset_and_hazards.md R173). -/
def Source.bind (data : List Byte) (failAt : Option Nat) : Source :=
  { data := data, failAt := failAt, pos := 0, closed := false }

/-- Reset (spec/70_reset_and_hazards.md R170): every state element takes the value of R27,
`PROPAGATE_CLOSE` is sampled, a source is bound, and GRID stays as it is. The ports belong to the host
and stay too. -/
def resetWith (propagateClose : Bool) (data : List Byte) (failAt : Option Nat) (s : State) : State :=
  { State.reset with
    grid := s.grid
    propagateClose := propagateClose
    src := Source.bind data failAt
    inputs := s.inputs
    rsps := s.rsps }

end Sys2Proof.Machine
end

