-- ==== Sys2Proof/Machine/Flags.lean ====
section
/-! DEFINITION. The one-bit flags of the block (spec/10_state.md R24): there are no arithmetic
condition codes. `br.closed` and `active` are fields of State; the others are read off the cursor and
the directions, and every one has its one writer here. -/

namespace Sys2Proof.Machine

/-- `pos_valid` (R17). -/
def State.posValid (s : State) : Bool := s.cursor.isSome

/-- The stored bit of a direction, 1 for -1 (R18). -/
def Dir.isNeg : Dir → Bool
  | .pos => false
  | .neg => true

/-- The direction as the number a coordinate moves by (R18). -/
def Dir.delta : Dir → Int
  | .pos => 1
  | .neg => -1

/-- `dx_neg` (R18). -/
def State.dxNeg (s : State) : Bool := s.dx.isNeg

/-- `dy_neg` (R18). -/
def State.dyNeg (s : State) : Bool := s.dy.isNeg

/-- Set `dx` (spec/42_chain_direction.md R100). -/
def setDx (d : Dir) (s : State) : State := { s with dx := d }

/-- Set `dy` (R100). -/
def setDy (d : Dir) (s : State) : State := { s with dy := d }

/-- `active <- 0`: the layer has ended (spec/43_chain_jump_stop.md R111, R114). -/
def endLayer (s : State) : State := { s with active := false }

/-- `br.closed <- 1` (spec/40_bitreader.md R83). -/
def markClosed (s : State) : State := { s with br := { s.br with closed := true } }

end Sys2Proof.Machine
end

