-- ==== Sys2Proof/Machine/Directions.lean ====
section
/-! DEFINITION. The direction instructions DXNEG, DXPOS, DYNEG and DYPOS (spec/42_chain_direction.md):
each sets one direction and nothing else, and the layer continues (R100). -/

namespace Sys2Proof.Machine

/-- DXNEG: `dx <- -1` (R101). -/
def dxnegBody (s : State) : Ending × State := (.cont, setDx .neg s)

/-- DXPOS: `dx <- +1` (R102). -/
def dxposBody (s : State) : Ending × State := (.cont, setDx .pos s)

/-- DYNEG: `dy <- -1` (R103). -/
def dynegBody (s : State) : Ending × State := (.cont, setDy .neg s)

/-- DYPOS: `dy <- +1` (R104). -/
def dyposBody (s : State) : Ending × State := (.cont, setDy .pos s)

/-- DXNEG as the chain instruction of a STEP (R101, R121). -/
def execDxneg (s : State) : Host.Outcome State Fault Refusal := answerStep (dxnegBody s)

/-- DXPOS as the chain instruction of a STEP (R102, R121). -/
def execDxpos (s : State) : Host.Outcome State Fault Refusal := answerStep (dxposBody s)

/-- DYNEG as the chain instruction of a STEP (R103, R121). -/
def execDyneg (s : State) : Host.Outcome State Fault Refusal := answerStep (dynegBody s)

/-- DYPOS as the chain instruction of a STEP (R104, R121). -/
def execDypos (s : State) : Host.Outcome State Fault Refusal := answerStep (dyposBody s)

end Sys2Proof.Machine
end

