-- ==== Sys2Proof/Machine/JumpStop.lean ====
section
/-! DEFINITION. JUMP, STOP, the reserved encodings and end-of-stream inside an instruction
(spec/43_chain_jump_stop.md). JUMP's operands have been read when its rule writes anything (R110, D15):
the reads stand in `fetchChain`. -/

namespace Sys2Proof.Machine

/-- JUMP x, y: place the cursor and mark the cell (R110). -/
def jumpBody (x y : Byte) (s : State) : Ending × State :=
  (.cont, placeAndMark { cx := x, cy := y } s)

/-- STOP: the layer ends (R111). -/
def stopBody (s : State) : Ending × State := (.stop, endLayer s)

/-- RSV2 raises `RESERVED_OPCODE` (R112). -/
def rsv2Body (s : State) : Ending × State := (.fault .reservedOpcode, raise .reservedOpcode s)

/-- RSV3 raises `RESERVED_OPCODE` (R113). -/
def rsv3Body (s : State) : Ending × State := (.fault .reservedOpcode, raise .reservedOpcode s)

/-- `EndOfStream` (R114): the instruction is abandoned and the layer ends as by a STOP. -/
def endOfStream (s : State) : Ending × State := (.stop, endLayer s)

/-- JUMP as the chain instruction of a STEP (R110, R121). -/
def execJump (x y : Byte) (s : State) : Host.Outcome State Fault Refusal := answerStep (jumpBody x y s)

/-- STOP as the chain instruction of a STEP (R111, R121). -/
def execStop (s : State) : Host.Outcome State Fault Refusal := answerStep (stopBody s)

/-- RSV2 as the chain instruction of a STEP (R112, R121). -/
def execRsv2 (s : State) : Host.Outcome State Fault Refusal := answerStep (rsv2Body s)

/-- RSV3 as the chain instruction of a STEP (R113, R121). -/
def execRsv3 (s : State) : Host.Outcome State Fault Refusal := answerStep (rsv3Body s)

end Sys2Proof.Machine
end

