-- ==== Sys2Proof/Machine/Moves.lean ====
section
/-! DEFINITION. The step instructions STEPX, STEPY and STEPXY (spec/41_chain_moves.md). Each rule
starts where the instruction's bits have been consumed; the STEP command answers with its ending. -/

namespace Sys2Proof.Machine

/-- One coordinate after a step, in the integers and without wrap (R90, R94): it moves by the
direction where the instruction moves this axis. -/
def stepCoord (moves : Bool) (d : Dir) (c : Byte) : Int :=
  if moves then (c.toNat : Int) + d.delta else c.toNat

/-- A coordinate that lies in 0 to 255, as the 8-bit value it is (R90). -/
def coordInRange (n : Int) : Option Byte :=
  if 0 ≤ n ∧ n ≤ 255 then some (BitVec.ofInt 8 n) else none

/-- The cell a step leads to, or none where a coordinate leaves 0 to 255 (R90). -/
def stepCell (ax ay : Bool) (dx dy : Dir) (c : Cursor) : Option Cursor :=
  match coordInRange (stepCoord ax dx c.cx), coordInRange (stepCoord ay dy c.cy) with
  | some nx, some ny => some { cx := nx, cy := ny }
  | _, _ => none

/-- `Move(ax, ay)` (R90): the sentinel is tested before the range, both coordinates before either is
written; the cell that is marked is the new one. -/
def move (ax ay : Bool) (s : State) : Ending × State :=
  match s.cursor with
  | none => (.fault .drawUnpositioned, raise .drawUnpositioned s)
  | some c =>
    match stepCell ax ay s.dx s.dy c with
    | none => (.fault .cursorRange, raise .cursorRange s)
    | some c' => (.cont, placeAndMark c' s)

/-- STEPX: `Move(1, 0)` (R91). -/
def stepxBody (s : State) : Ending × State := move true false s

/-- STEPY: `Move(0, 1)` (R92). -/
def stepyBody (s : State) : Ending × State := move false true s

/-- STEPXY: `Move(1, 1)` (R93). -/
def stepxyBody (s : State) : Ending × State := move true true s

/-- STEPX as the chain instruction of a STEP (R91, R121). -/
def execStepx (s : State) : Host.Outcome State Fault Refusal := answerStep (stepxBody s)

/-- STEPY as the chain instruction of a STEP (R92, R121). -/
def execStepy (s : State) : Host.Outcome State Fault Refusal := answerStep (stepyBody s)

/-- STEPXY as the chain instruction of a STEP (R93, R121). -/
def execStepxy (s : State) : Host.Outcome State Fault Refusal := answerStep (stepxyBody s)

end Sys2Proof.Machine
end

