-- ==== Sys2Proof/Machine/Operands.lean ====
section
/-! DEFINITION. Where an instruction's bits and operands come from: the chain code is fetched through
`ReadBits` (spec/44_layer_control.md R122), the only operands are the jump's `x` and `y` (spec/30_encoding.md
R67), and `PC` is the derived `bitpos` (spec/10_state.md R15). -/

namespace Sys2Proof.Machine

/-- The reads of `DecodeOne()` (R122): one chain instruction with its operands, each field read by its
own `ReadBits` call in the order of R62. A read that answers `Eos` or a fault ends it; what the reads
before it consumed stays consumed (R114, R155). -/
def fetchChain (s : State) : Except ReadStop ChainInstr × State := decodeWith readBits s

/-- `RDBITS`'s operand `n = CMD.arg` as the natural number `ReadBits` takes (spec/40_bitreader.md R81). -/
def lengthOperand (n : Byte) : Nat := n.toNat

/-- `bitpos = 8 * src.pos - br.fill`, the number of stream bits consumed (spec/10_state.md R15). -/
def State.bitpos (s : State) : Nat := 8 * s.src.pos - s.br.fill.toNat

/-- The bits the block can still read at most: those in the buffer and those of the bytes that the
source has not delivered, `8 * len - bitpos` (R15, R125). -/
def State.unread (s : State) : Nat := s.br.fill.toNat + 8 * (s.src.data.length - s.src.pos)

end Sys2Proof.Machine
end

