-- ==== Sys2Proof/Machine/Layer.lean ====
section
/-! DEFINITION. Layer control: LBEGIN, STEP, LRUN and ARUN (spec/44_layer_control.md). -/

namespace Sys2Proof.Machine

/-- The instruction rules that `DecodeOne()` calls (R122). -/
def runChain : ChainInstr → State → Ending × State
  | .stepx, s => stepxBody s
  | .stepy, s => stepyBody s
  | .stepxy, s => stepxyBody s
  | .dxneg, s => dxnegBody s
  | .dxpos, s => dxposBody s
  | .dyneg, s => dynegBody s
  | .dypos, s => dyposBody s
  | .jump x y, s => jumpBody x y s
  | .stop, s => stopBody s
  | .rsv2, s => rsv2Body s
  | .rsv3, s => rsv3Body s

/-- `DecodeOne()` (R122): read one instruction and run it. A fault of a read has been raised by the read
and is passed up. -/
def decodeOne (s : State) : Ending × State :=
  match fetchChain s with
  | (.ok c, s') => runChain c s'
  | (.error .eos, s') => endOfStream s'
  | (.error (.fault c), s') => (.fault c, s')

/-- STEP without the gate: `LAYER_NOT_OPEN` where no layer is open, else one instruction (R121). -/
def stepBody (s : State) : Rsp × State :=
  if s.active then
    match decodeOne s with
    | (e, s') => (e.rsp, s')
  else ({ status := .fault .layerNotOpen, data := 0 }, raise .layerNotOpen s)

/-- STEP (R121). -/
def stepCommand (s : State) : Rsp × State := gated stepBody s

/-- LBEGIN b without the gate (R120): the layer's grid is cleared, the cursor becomes the sentinel,
the directions (+1, +1), and the layer is open. -/
def lbeginBody (b : Byte) (s : State) : Rsp × State :=
  ({ status := .ok, data := 0 },
    { s with
      layer := b
      grid := s.grid.clearLayer b
      cursor := none
      dx := .pos
      dy := .pos
      active := true })

/-- LBEGIN b (R120). -/
def lbegin (b : Byte) (s : State) : Rsp × State := gated (lbeginBody b) s

/-- The most STEPs that an LRUN executes from a state: `(8 * len - bitpos) div 2 + 1` (R125). -/
def stepBound (s : State) : Nat := s.unread / 2 + 1

/-- The loop of LRUN (R123): STEP until the layer ends or a fault is answered. None where `fuel` STEPs
were not enough, which R125 says `stepBound` STEPs always are. -/
def lrunLoop : Nat → State → Option (Rsp × State)
  | 0, _ => none
  | fuel + 1, s =>
    match stepCommand s with
    | (r, s') =>
      if r.status ≠ .ok then some ({ status := r.status, data := 0 }, s')
      else if r.data = 0 then some ({ status := .ok, data := 0 }, s')
      else lrunLoop fuel s'

/-- LRUN b (R123): LBEGIN b, then the loop. -/
def lrun (b : Byte) (s : State) : Option (Rsp × State) :=
  match lbegin b s with
  | (r, s') => if r.status ≠ .ok then some (r, s') else lrunLoop (stepBound s') s'

/-- The loop of ARUN over a list of layers (R124): the first fault ends it, end-of-stream does not. -/
def arunLoop : List Byte → State → Option (Rsp × State)
  | [], s => some ({ status := .ok, data := 0 }, s)
  | b :: bs, s =>
    match lrun b s with
    | none => none
    | some (r, s') => if r.status ≠ .ok then some ({ status := r.status, data := 0 }, s') else arunLoop bs s'

/-- The layers 0 to 255 in increasing order (R124). -/
def allLayers : List Byte := (List.range Config.layers).map (BitVec.ofNat 8)

/-- ARUN (R124). -/
def arun (s : State) : Option (Rsp × State) := arunLoop allLayers s

/-- End a command whose loop has the bound of R125. -/
def answerLoop : Option (Rsp × State) → Host.Outcome State Fault Refusal
  | some r => answer r
  | none => .fault .loopBoundExceeded

/-- The meaning of LBEGIN b (R120). -/
def execLbegin (b : Byte) (s : State) : Host.Outcome State Fault Refusal := answer (lbegin b s)

/-- The meaning of STEP (R121); the argument is ignored (R72). -/
def execStep (_arg : Byte) (s : State) : Host.Outcome State Fault Refusal := answer (stepCommand s)

/-- The meaning of LRUN b (R123). -/
def execLrun (b : Byte) (s : State) : Host.Outcome State Fault Refusal := answerLoop (lrun b s)

/-- The meaning of ARUN (R124); the argument is ignored (R72). -/
def execArun (_arg : Byte) (s : State) : Host.Outcome State Fault Refusal := answerLoop (arun s)

end Sys2Proof.Machine
end

