-- ==== Sys2Proof/Machine/Reader.lean ====
section
/-! DEFINITION. The host commands of the BitReader: RDBITS, RDBYTE and CLOSE (spec/40_bitreader.md). -/

namespace Sys2Proof.Machine

/-- The response to a read (R81, R73). -/
def readRsp : Except ReadStop Byte → Rsp
  | .ok v => { status := .ok, data := v }
  | .error .eos => { status := .eos, data := 0 }
  | .error (.fault c) => { status := .fault c, data := 0 }

/-- A read of `n` bits as a command's body (R81). -/
def readCommand (n : Nat) (s : State) : Rsp × State :=
  match readBits n s with
  | (a, s') => (readRsp a, s')

/-- RDBITS n (R81). -/
def rdbits (n : Byte) (s : State) : Rsp × State := gated (readCommand (lengthOperand n)) s

/-- RDBYTE: exactly `RDBITS 8` (R82). -/
def rdbyte (s : State) : Rsp × State := gated (readCommand 8) s

/-- CLOSE (R83): the one command that `fault` does not gate. The first CLOSE sets `br.closed` and passes
the close on where `PROPAGATE_CLOSE` is 1; a later one changes nothing. -/
def closeReader (s : State) : Rsp × State :=
  ({ status := .ok, data := 0 },
    if s.br.closed then s
    else if s.propagateClose then markClosed { s with src := s.src.close }
    else markClosed s)

/-- The meaning of RDBITS n (R81). -/
def execRdbits (n : Byte) (s : State) : Host.Outcome State Fault Refusal := answer (rdbits n s)

/-- The meaning of RDBYTE (R82); the argument is ignored (R72). -/
def execRdbyte (_arg : Byte) (s : State) : Host.Outcome State Fault Refusal := answer (rdbyte s)

/-- The meaning of CLOSE (R83); the argument is ignored (R72). -/
def execClose (_arg : Byte) (s : State) : Host.Outcome State Fault Refusal := answer (closeReader s)

end Sys2Proof.Machine
end

