-- ==== Sys2Proof/Machine/Dispatch.lean ====
section
/-! DEFINITION. One arm per constructor of Instr. -/

namespace Sys2Proof.Machine

def exec (i : Instr) (s : State) : Host.Outcome State Fault Refusal :=
  match i with
  | .stepx => Sys2Proof.Machine.execStepx s
  | .stepy => Sys2Proof.Machine.execStepy s
  | .stepxy => Sys2Proof.Machine.execStepxy s
  | .dxneg => Sys2Proof.Machine.execDxneg s
  | .dxpos => Sys2Proof.Machine.execDxpos s
  | .dyneg => Sys2Proof.Machine.execDyneg s
  | .dypos => Sys2Proof.Machine.execDypos s
  | .jump x y => Sys2Proof.Machine.execJump x y s
  | .stop => Sys2Proof.Machine.execStop s
  | .rsv2 => Sys2Proof.Machine.execRsv2 s
  | .rsv3 => Sys2Proof.Machine.execRsv3 s
  | .rdbits n => Sys2Proof.Machine.execRdbits n s
  | .rdbyte arg => Sys2Proof.Machine.execRdbyte arg s
  | .close arg => Sys2Proof.Machine.execClose arg s
  | .lbegin b => Sys2Proof.Machine.execLbegin b s
  | .step arg => Sys2Proof.Machine.execStep arg s
  | .lrun b => Sys2Proof.Machine.execLrun b s
  | .arun arg => Sys2Proof.Machine.execArun arg s

end Sys2Proof.Machine
end

