-- ==== Sys2Proof/Machine/Ports.lean ====
section
/-! DEFINITION. The host's side: which input comes next, a command word with a reserved `op`, and how
an instruction of the opcode table is put where the next step fetches it. -/

namespace Sys2Proof.Machine

/-- The oldest input not yet taken, and the state without it (spec/10_state.md R10: one at a time). -/
def nextInput (s : State) : Option (HostInput × State) :=
  match s.inputs with
  | [] => none
  | i :: rest => some (i, { s with inputs := rest })

/-- A command whose `op` is reserved (spec/60_exceptions.md R151), behind the gate of `fault` (R154). -/
def badCommandBody (s : State) : Rsp × State :=
  ({ status := .fault .badCommand, data := 0 }, raise .badCommand s)

/-- The end of a command whose `op` is reserved (R151, R154). -/
def answerBadCommand (s : State) : Host.Outcome State Fault Refusal := answer (gated badCommandBody s)

/-- STEP's command word, `op = 0x9`, `arg = 0` (spec/30_encoding.md R72). -/
def stepWord : CmdWord := 0x900

/-- Put a command word at the front of what the host asks for. -/
def placeCommand (w : CmdWord) (s : State) : State := { s with inputs := .cmd w :: s.inputs }

/-- Put a chain instruction where the next STEP fetches it, and that STEP at the front of what the host
asks for: a source that delivers these bytes first is bound, the reader is open and its buffer empty, a
layer is open and no fault is recorded (assumption log 5). -/
def placeChain (bytes : List Byte) (s : State) : State :=
  placeCommand stepWord
    { s with
      br := { buf := 0, fill := 0, closed := false }
      src := Source.bind bytes none
      active := true
      fault := none }

/-- Place a word of the opcode table (assumption log 5). -/
def placeTableWord (nbits w : Nat) (s : State) : State :=
  if isCmdLength nbits then placeCommand (BitVec.ofNat 12 w) s
  else placeChain (wordBytes nbits w) s

end Sys2Proof.Machine
end

