-- ==== Sys2Proof/Machine/Step.lean ====
section
/-! DEFINITION. One step of the machine: it takes the host's oldest input, a command run to its end or a
reset (spec/10_state.md R10, spec/70_reset_and_hazards.md R170). -/

namespace Sys2Proof.Machine

/-- One step. With nothing asked for the block waits for a command (R27) and the state stays. A command
word is decoded and runs to its end; one with a reserved `op` answers `BAD_COMMAND` (R151). -/
def step (s : State) : Host.Outcome State Fault Refusal :=
  match nextInput s with
  | none => .next s
  | some (.reset propagateClose data failAt, s') => .next (resetWith propagateClose data failAt s')
  | some (.cmd w, s') =>
    match decodeCmd w with
    | .ok i => exec i s'
    | .error _ => answerBadCommand s'

/-- The state with an instruction of the opcode table where the next step fetches it. -/
def State.withFetchWord (s : State) (nbits w : Nat) : State := placeTableWord nbits w s

end Sys2Proof.Machine
end

