-- ==== Sys2Proof/Safety.lean ====
section
/-! DEFINITION. What claims are stated in: the bits that lie ahead of the block, the fields of the
stream as the spec numbers them, the invariant of every state between commands, and the plane geometry
of a layer's program. -/

namespace Sys2Proof.Machine

/-! ### The stream -/

/-- `sbit(k) = (data[k div 8] >> (k mod 8)) & 1` (spec/20_memory.md R46). -/
def sbit (data : List Byte) (k : Nat) : Nat := (((data[k / 8]?).getD 0).toNat >>> (k % 8)) &&& 1

/-- `field(p, n)`, the sum of `sbit(p + i) << i` (R47). -/
def field (data : List Byte) (p n : Nat) : Nat :=
  ((List.range n).map fun i => sbit data (p + i) <<< i).sum

/-- The bits in the buffer, the next one first (spec/10_state.md R12). -/
def BitReader.bits (br : BitReader) : List Bool := bitsOf br.fill.toNat br.buf

/-- The bytes that the source will still deliver before its data end or a pull fails (R42). -/
def Source.ahead (src : Source) : List Byte :=
  match src.failAt with
  | none => src.data.drop src.pos
  | some p => if src.pos ≤ p then (src.data.take p).drop src.pos else src.data.drop src.pos

/-- A pull will fail when the bytes ahead are used up (R42, R44); otherwise the data end there. -/
def Source.failsAhead (src : Source) : Bool :=
  match src.failAt with
  | none => false
  | some p => decide (src.pos ≤ p ∧ p ≤ src.data.length)

/-- The bits that lie ahead of the block: those in the buffer, then those of the bytes ahead. -/
def State.ahead (s : State) : List Bool := s.br.bits ++ streamBits s.src.ahead

/-- `k` reads of 8 bits, one after the other: what they answer, and the state behind them (spec/40_bitreader.md
R86). -/
def readBytes : Nat → State → List (Except ReadStop Byte) × State
  | 0, s => ([], s)
  | k + 1, s =>
    match readBits 8 s with
    | (a, s') => (a :: (readBytes k s').1, (readBytes k s').2)

/-! ### The two instruction sets -/

/-- A host command (spec/30_encoding.md R72), as against a chain instruction (R69). -/
def isCommand : Instr → Bool
  | .rdbits _ => true
  | .rdbyte _ => true
  | .close _ => true
  | .lbegin _ => true
  | .step _ => true
  | .lrun _ => true
  | .arun _ => true
  | .stepx => false
  | .stepy => false
  | .stepxy => false
  | .dxneg => false
  | .dxpos => false
  | .dyneg => false
  | .dypos => false
  | .jump _ _ => false
  | .stop => false
  | .rsv2 => false
  | .rsv3 => false

/-- CLOSE, the one command that `fault` does not gate (spec/60_exceptions.md R143). -/
def isClose : Instr → Bool
  | .close _ => true
  | .rdbits _ => false
  | .rdbyte _ => false
  | .lbegin _ => false
  | .step _ => false
  | .lrun _ => false
  | .arun _ => false
  | .stepx => false
  | .stepy => false
  | .stepxy => false
  | .dxneg => false
  | .dxpos => false
  | .dyneg => false
  | .dypos => false
  | .jump _ _ => false
  | .stop => false
  | .rsv2 => false
  | .rsv3 => false

/-- A command that may answer `EOS` (R74, R140). -/
def isRead : Instr → Bool
  | .rdbits _ => true
  | .rdbyte _ => true
  | .close _ => false
  | .lbegin _ => false
  | .step _ => false
  | .lrun _ => false
  | .arun _ => false
  | .stepx => false
  | .stepy => false
  | .stepxy => false
  | .dxneg => false
  | .dxpos => false
  | .dyneg => false
  | .dypos => false
  | .jump _ _ => false
  | .stop => false
  | .rsv2 => false
  | .rsv3 => false

/-- The input that the next step takes is a reset (spec/70_reset_and_hazards.md R170). -/
def State.resetComes (s : State) : Bool :=
  match s.inputs with
  | .reset _ _ _ :: _ => true
  | .cmd _ :: _ => false
  | [] => false

/-! ### The invariant -/

/-- R14: the bits of the buffer at and above the fill length are 0, and `br.fill <= 7`. -/
def BitReader.Tight (br : BitReader) : Prop :=
  br.fill.toNat ≤ 7 ∧ ∀ i, br.fill.toNat ≤ i → br.buf.getLsbD i = false

/-- What holds between commands, at reset and after every step. -/
structure State.Inv (s : State) : Prop where
  /-- R14: between commands `br.fill <= 7`. -/
  fill_le : s.br.fill.toNat ≤ 7
  /-- R14: every bit of `br.buf` at a position `>= br.fill` is 0. -/
  buf_lt : s.br.buf.toNat < 2 ^ s.br.fill.toNat
  /-- R15: `bitpos = 8 * src.pos - br.fill` is no negative number. -/
  fill_le_pos : s.br.fill.toNat ≤ 8 * s.src.pos
  /-- R42: the source has delivered no more than it has. -/
  pos_le : s.src.pos ≤ s.src.data.length
  /-- R12, R15: the buffer holds the stream's bits from `bitpos` on. -/
  buf_holds : ∀ i, i < s.br.fill.toNat →
    s.br.buf.getLsbD i = decide (sbit s.src.data (s.bitpos + i) = 1)
  /-- The canonical form of GRID. -/
  grid_wf : Memory.wf s.grid
  /-- R120, R172: an open layer has been cleared. -/
  active_cleared : s.active = true → s.layer.toNat ∈ s.grid.cleared
  /-- R45: a closed source belongs to a closed reader, so it is never pulled from. -/
  src_closed : s.src.closed = true → s.br.closed = true

/-! ### The picture that a layer's program draws -/

/-- A pen in the plane: where it stands, if it has been placed, and its two directions. -/
structure Pen where
  at? : Option (Int × Int)
  dx : Int
  dy : Int
deriving DecidableEq, Repr

/-- The pen before a layer's first instruction (spec/44_layer_control.md R120). -/
def Pen.start : Pen := { at? := none, dx := 1, dy := 1 }

/-- A step of the pen along the axes asked for, in the integers; none where it has not been placed or
would leave 0 to 255 (spec/41_chain_moves.md R90). -/
def Pen.move (ax ay : Int) (p : Pen) : Option Pen :=
  match p.at? with
  | none => none
  | some (x, y) =>
    if 0 ≤ x + ax * p.dx ∧ x + ax * p.dx ≤ 255 ∧ 0 ≤ y + ay * p.dy ∧ y + ay * p.dy ≤ 255 then
      some { p with at? := some (x + ax * p.dx, y + ay * p.dy) }
    else none

/-- The pen after an instruction that lets the layer continue and raises no fault (R90, R101 to R104,
R110); none for the others. -/
def Pen.run : ChainInstr → Pen → Option Pen
  | .stepx, p => p.move 1 0
  | .stepy, p => p.move 0 1
  | .stepxy, p => p.move 1 1
  | .dxneg, p => some { p with dx := -1 }
  | .dxpos, p => some { p with dx := 1 }
  | .dyneg, p => some { p with dy := -1 }
  | .dypos, p => some { p with dy := 1 }
  | .jump x y, p => some { p with at? := some (x.toNat, y.toNat) }
  | .stop, _ => none
  | .rsv2, _ => none
  | .rsv3, _ => none

/-- The fault that a step along the axes asked for raises from a pen, the sentinel tested before the
range (spec/41_chain_moves.md R90, spec/60_exceptions.md R154). -/
def Pen.moveFault (ax ay : Int) (p : Pen) : Option FaultCode :=
  match p.at?, p.move ax ay with
  | none, _ => some .drawUnpositioned
  | some _, none => some .cursorRange
  | some _, some _ => none

/-- The fault that an instruction raises from a pen, once its bits have been read (R147 to R149). -/
def Pen.fault : ChainInstr → Pen → Option FaultCode
  | .stepx, p => p.moveFault 1 0
  | .stepy, p => p.moveFault 0 1
  | .stepxy, p => p.moveFault 1 1
  | .dxneg, _ => none
  | .dxpos, _ => none
  | .dyneg, _ => none
  | .dypos, _ => none
  | .jump _ _, _ => none
  | .stop, _ => none
  | .rsv2, _ => some .reservedOpcode
  | .rsv3, _ => some .reservedOpcode

/-- The pen that a cursor and two directions make. -/
def penOf (cursor : Option Cursor) (dx dy : Dir) : Pen where
  at? := cursor.map fun c => (c.cx.toNat, c.cy.toNat)
  dx := dx.delta
  dy := dy.delta

/-- The pen of a state. -/
def State.pen (s : State) : Pen := penOf s.cursor s.dx s.dy

/-- The pen behind a program; none where an instruction of it would fault or end the layer. -/
def penFrom : List ChainInstr → Pen → Option Pen
  | [], p => some p
  | c :: cs, p =>
    match p.run c with
    | none => none
    | some p' => penFrom cs p'

/-- The pen behind a layer's program, which keeps its last values until the next LBEGIN
(spec/43_chain_jump_stop.md R111). -/
def penBehind (prog : List ChainInstr) : Option Pen := penFrom prog Pen.start

/-- Whether and how the instruction that starts a bit string faults, from a pen, and the bits behind what
it consumes: the instruction's own fault, or `IO_FAILURE` where the bits end inside it and the
source fails there (spec/60_exceptions.md R144, R147 to R149). -/
def faultAt (failsAhead : Bool) (p : Pen) (bits : List Bool) : Option (FaultCode × List Bool) :=
  match decodeBits bits with
  | (.ok c, rest) => (p.fault c).map fun f => (f, rest)
  | (.error _, rest) => if failsAhead then some (.ioFailure, rest) else none

/-- How many bits the faulting instruction may have consumed, per fault, as R155
lists them. -/
def FaultCode.consumed : FaultCode → List Nat
  | .drawUnpositioned => [2]
  | .cursorRange => [2]
  | .reservedOpcode => [5]
  | .ioFailure => [0, 2, 3, 5, 13]
  | .useAfterClose => [0]
  | .layerNotOpen => [0]
  | .badLength => [0]
  | .badCommand => [0]

/-- Whether an instruction arrives at a cell: every JUMP and every step does (spec/44_layer_control.md
R130). -/
def drawsCell : ChainInstr → Bool
  | .stepx => true
  | .stepy => true
  | .stepxy => true
  | .jump _ _ => true
  | .dxneg => false
  | .dxpos => false
  | .dyneg => false
  | .dypos => false
  | .stop => false
  | .rsv2 => false
  | .rsv3 => false

/-- The cells at which the instructions of a program arrive, from a pen; none where one of them would
fault or end the layer (R130). -/
def drawnFrom : List ChainInstr → Pen → Option (List (Int × Int))
  | [], _ => some []
  | c :: cs, p =>
    match p.run c with
    | none => none
    | some p' =>
      match drawnFrom cs p' with
      | none => none
      | some cells => some (if drawsCell c then p'.at?.toList ++ cells else cells)

/-- The cells that a layer's program draws (R130). -/
def drawnBy (prog : List ChainInstr) : Option (List (Int × Int)) := drawnFrom prog Pen.start

/-- Whether a set of cells holds the one at index `i` of a layer, `i[7:0] = x`, `i[15:8] = y`
(spec/20_memory.md R49). -/
def holdsCell (cells : List (Int × Int)) (i : BitVec 16) : Bool :=
  decide ((((i.toNat % 256 : Nat) : Int), ((i.toNat / 256 : Nat) : Int)) ∈ cells)

end Sys2Proof.Machine
end

