-- ==== Sys2Proof/Certificates/Slice0/Obligations.lean ====
section
/-! DEFINITION. The statements for the provers, one definition each, from the numbered rules of spec/. -/

open Sys2Proof Sys2Proof.Machine

/-! ### Encoding -/

/-- Words written out from spec/30_encoding.md R69, R72 and 95_test_vectors.md V24 decode to the
instructions they stand for, one of each family at least. -/
def Obligations.ListedWordsDecode : Prop :=
  decodeTableWord 2 0x00 = some .stepx ∧ decodeTableWord 2 0x01 = some .stepy ∧
  decodeTableWord 2 0x02 = some .stepxy ∧ decodeTableWord 5 0x07 = some .dxneg ∧
  decodeTableWord 5 0x0F = some .dxpos ∧ decodeTableWord 5 0x17 = some .dyneg ∧
  decodeTableWord 5 0x1F = some .dypos ∧ decodeTableWord 21 0x19B563 = some (.jump 0xAB 0xCD) ∧
  decodeTableWord 5 0x0B = some .stop ∧ decodeTableWord 5 0x13 = some .rsv2 ∧
  decodeTableWord 5 0x1B = some .rsv3 ∧ decodeTableWord 12 0x103 = some (.rdbits 3) ∧
  decodeTableWord 12 0x800 = some (.lbegin 0) ∧ decodeTableWord 12 0xA07 = some (.lrun 7) ∧
  decodeTableWord 12 0x400 = none

/-- Decoding a chain instruction's bits gives it back, with every operand, and leaves the bits behind
it (R63, R68, R69). -/
def Obligations.ChainDecodeInvertsEncode : Prop :=
  ∀ (c : ChainInstr) (rest : List Bool), decodeBits (c.bits ++ rest) = (.ok c, rest)

/-- What decodes to a chain instruction is that instruction's bits and the rest: a chain word has one
meaning (R68, R69). -/
def Obligations.ChainDecodeReadsOnlyItsBits : Prop :=
  ∀ (bits rest : List Bool) (c : ChainInstr), decodeBits bits = (.ok c, rest) → bits = c.bits ++ rest

/-- R76: a program is laid end to end without padding, `W[0]` first, and cut into bytes from bit 0 up;
at most 7 zero bits fill the last byte, and a decoder that keeps reading sees them as STEPX. -/
def Obligations.AssemblyPacksBitsInOrder : Prop :=
  (∀ prog : List ChainInstr, ∃ k, k < 8 ∧
    streamBits (assemble prog) = programBits prog ++ List.replicate k false) ∧
  ∀ rest : List Bool, decodeBits (false :: false :: rest) = (.ok .stepx, rest)

/-- Every instruction, of both sets, is what its word of the opcode table decodes to (R69, R72). -/
def Obligations.TableWordDecodesToInstr : Prop :=
  ∀ i : Instr, decodeTableWord (encode i).1 (encode i).2 = some i

/-- A command word decodes to an instruction exactly where it is that instruction's word (R71, R72). -/
def Obligations.CommandWordHasOneMeaning : Prop :=
  ∀ (w : CmdWord) (i : Instr), decodeCmd w = .ok i ↔ encode i = (12, w.toNat)

/-- The response word carries `status` at bits 11:8 and `data` at 7:0 (R73), the status codes are those
of R74, and 10 to 15 are never produced. -/
def Obligations.ResponseWordFields : Prop :=
  (∀ r : Rsp, r.word.extractLsb' 8 4 = r.status.code ∧ r.word.extractLsb' 0 8 = r.data) ∧
  Status.ok.code = 0 ∧ Status.eos.code = 1 ∧ (Status.fault .ioFailure).code = 2 ∧
  (Status.fault .useAfterClose).code = 3 ∧ (Status.fault .badLength).code = 4 ∧
  (Status.fault .drawUnpositioned).code = 5 ∧ (Status.fault .cursorRange).code = 6 ∧
  (Status.fault .reservedOpcode).code = 7 ∧ (Status.fault .layerNotOpen).code = 8 ∧
  (Status.fault .badCommand).code = 9 ∧ ∀ st : Status, st.code.toNat ≤ 9

/-! ### The BitReader -/

/-- R14: above the fill length the buffer is 0, and `br.fill <= 7`; so it is after reset, every read
keeps it, and every step keeps it. -/
def Obligations.BitBufferStaysTight : Prop :=
  State.reset.br.Tight ∧ (∀ (n : Nat) (s : State), s.br.Tight → (readBits n s).2.br.Tight) ∧
  ∀ s t : State, s.br.Tight → step s = .next t → t.br.Tight

/-- R84, the stream law: a read answers `field(bitpos, n)` and moves `bitpos` by `n` where the stream
has the bits, answers `Eos` and moves nothing where it has not, and moves nothing on a fault. -/
def Obligations.StreamLaw : Prop :=
  ∀ (s : State) (n : Nat), s.Inv → s.br.closed = false → 1 ≤ n → n ≤ Config.nmax →
    (¬ (s.br.fill.toNat < n ∧ s.src.failAt = some s.src.pos) →
      (s.bitpos + n ≤ 8 * s.src.data.length →
        ∃ v t, readBits n s = (.ok v, t) ∧ v.toNat = field s.src.data s.bitpos n ∧
          t.bitpos = s.bitpos + n) ∧
      (8 * s.src.data.length < s.bitpos + n →
        ∃ t, readBits n s = (.error .eos, t) ∧ t.bitpos = s.bitpos)) ∧
    ∀ c t, readBits n s = (.error (.fault c), t) → t.bitpos = s.bitpos

/-- R85, the concatenation law: two reads in a row answer the low and the high part of one field, and
one read of both widths answers the whole and leaves the same state; at end-of-stream the second of two
reads may answer `Eos` behind the first, where one read consumes nothing. -/
def Obligations.ConcatenationLaw : Prop :=
  ∀ (s s1 : State) (a b : Nat) (v1 : Byte), s.Inv → readBits a s = (.ok v1, s1) →
    (∀ (v2 : Byte) (s2 : State), readBits b s1 = (.ok v2, s2) →
      v1.toNat ||| (v2.toNat <<< a) = field s.src.data s.bitpos (a + b) ∧
      (a + b ≤ Config.nmax →
        ∃ v, readBits (a + b) s = (.ok v, s2) ∧ v.toNat = v1.toNat ||| (v2.toNat <<< a))) ∧
    (∀ s2 : State, readBits b s1 = (.error .eos, s2) → a + b ≤ Config.nmax →
      s2 = s1 ∧ s1.bitpos = s.bitpos + a ∧ readBits (a + b) s = (.error .eos, s))

/-- R86, the byte round trip: with an empty buffer and a source that does not fail, reads of 8 bits
answer the remaining bytes in order, and the next one answers `Eos`. -/
def Obligations.ByteRoundTrip : Prop :=
  ∀ s : State, s.Inv → s.br.closed = false → s.br.fill = 0 →
    (∀ p, s.src.failAt = some p → p < s.src.pos ∨ s.src.data.length < p) →
    (readBytes (s.src.data.length - s.src.pos) s).1 = (s.src.data.drop s.src.pos).map .ok ∧
    (readBits 8 (readBytes (s.src.data.length - s.src.pos) s).2).1 = .error .eos

/-- R88: a read pulls `max(0, ceil((n - br.fill) / 8))` bytes, one exactly where `br.fill < n`, when
the source has them, and otherwise none; after every step `src.pos = ceil(bitpos / 8)`. -/
def Obligations.PullsOnlyAsNeeded : Prop :=
  (∀ (n : Nat) (s t : State) (v : Byte), readBits n s = (.ok v, t) →
    t.src.pos = s.src.pos + (n - s.br.fill.toNat + 7) / 8 ∧
    (t.src.pos = s.src.pos + 1 ↔ s.br.fill.toNat < n)) ∧
  (∀ (n : Nat) (s t : State) (e : ReadStop), readBits n s = (.error e, t) → t.src.pos = s.src.pos) ∧
  (∀ (n : Nat) (s : State), s.br.closed = false → 1 ≤ n → n ≤ Config.nmax →
    (s.br.fill.toNat < n → s.src.pos < s.src.data.length ∧ s.src.failAt ≠ some s.src.pos) →
    ∃ v t, readBits n s = (.ok v, t)) ∧
  ∀ s t : State, s.Inv → step s = .next t → t.src.pos = (t.bitpos + 7) / 8

/-- D5: `Eos` leaves the reader as it was, and a later read that needs no more than the buffered bits
still answers a value (spec/40_bitreader.md R80). -/
def Obligations.EndOfStreamLeavesReaderUsable : Prop :=
  ∀ (n : Nat) (s t : State), readBits n s = (.error .eos, t) →
    t = s ∧ ∀ k, 1 ≤ k → k ≤ s.br.fill.toNat → k ≤ Config.nmax → ∃ v u, readBits k t = (.ok v, u)

/-- R81: RDBITS n. While a fault is recorded it answers that; then a closed reader, a bad length and a
failing pull fault, in that order; then it answers the field where the stream has the bits, pulling a
byte exactly where the buffer holds fewer than `n`, and `EOS` with nothing changed where it has not. -/
def Obligations.RdbitsReadsField : Prop :=
  ∀ (n : Byte) (s : State), decodeCmd (0x1#4 ++ n) = .ok (.rdbits n) ∧
    (∀ c, s.fault = some c →
      exec (.rdbits n) s = .next { s with rsps := s.rsps ++ [{ status := .fault c, data := 0 }] }) ∧
    (s.fault = none → s.br.closed = true →
      exec (.rdbits n) s = .next { s with
        fault := some .useAfterClose
        rsps := s.rsps ++ [{ status := .fault .useAfterClose, data := 0 }] }) ∧
    (s.fault = none → s.br.closed = false → ¬ (1 ≤ n.toNat ∧ n.toNat ≤ Config.nmax) →
      exec (.rdbits n) s = .next { s with
        fault := some .badLength
        rsps := s.rsps ++ [{ status := .fault .badLength, data := 0 }] }) ∧
    (s.fault = none → s.br.closed = false → 1 ≤ n.toNat → n.toNat ≤ Config.nmax →
      s.br.fill.toNat < n.toNat → s.src.failAt = some s.src.pos →
      exec (.rdbits n) s = .next { s with
        fault := some .ioFailure
        rsps := s.rsps ++ [{ status := .fault .ioFailure, data := 0 }] }) ∧
    (s.Inv → s.fault = none → s.br.closed = false → 1 ≤ n.toNat → n.toNat ≤ Config.nmax →
      ¬ (s.br.fill.toNat < n.toNat ∧ s.src.failAt = some s.src.pos) →
      (s.bitpos + n.toNat ≤ 8 * s.src.data.length →
        ∃ (v : Byte) (br : BitReader) (pos : Nat),
          exec (.rdbits n) s = .next { s with
            br := br
            src := { s.src with pos := pos }
            rsps := s.rsps ++ [{ status := .ok, data := v }] } ∧
          v.toNat = field s.src.data s.bitpos n.toNat ∧
          pos = s.src.pos + (if s.br.fill.toNat < n.toNat then 1 else 0) ∧
          s.bitpos + n.toNat + br.fill.toNat = 8 * pos ∧
          br.buf.toNat = field s.src.data (s.bitpos + n.toNat) br.fill.toNat ∧
          br.closed = false) ∧
      (8 * s.src.data.length < s.bitpos + n.toNat →
        exec (.rdbits n) s = .next { s with rsps := s.rsps ++ [{ status := .eos, data := 0 }] }))

/-- R82: RDBYTE is exactly `RDBITS 8`, whatever its argument; it never raises `BAD_LENGTH`; it completes
with the next 8 bits of the stream, aligned or not. -/
def Obligations.RdbyteIsRdbitsEight : Prop :=
  (∀ (arg : Byte) (s : State), decodeCmd (0x2#4 ++ arg) = .ok (.rdbyte arg) ∧
    exec (.rdbyte arg) s = exec (.rdbits 8) s) ∧
  (∀ (arg : Byte) (s t : State), s.fault = none → exec (.rdbyte arg) s = .next t →
    t.fault ≠ some .badLength) ∧
  ∀ (arg : Byte) (s : State), s.Inv → s.fault = none → s.br.closed = false →
    s.src.failAt ≠ some s.src.pos → s.bitpos + 8 ≤ 8 * s.src.data.length →
    ∃ (v : Byte) (br : BitReader) (pos : Nat),
      exec (.rdbyte arg) s = .next { s with
        br := br
        src := { s.src with pos := pos }
        rsps := s.rsps ++ [{ status := .ok, data := v }] } ∧
      br.closed = false ∧ br.fill = s.br.fill ∧ v.toNat = field s.src.data s.bitpos 8

/-- R83: the first CLOSE sets `br.closed`, and `src.closed` where `PROPAGATE_CLOSE` is 1; a later one
changes nothing; both answer `OK` whatever `fault` holds. Only a reset opens the reader again, and the
STEP of a layer left open then faults. -/
def Obligations.CloseClosesOnce : Prop :=
  (∀ arg : Byte, decodeCmd (0x3#4 ++ arg) = .ok (.close arg)) ∧
  (∀ (arg : Byte) (s : State), s.br.closed = false →
    exec (.close arg) s = .next { s with
      br := { s.br with closed := true }
      src := { s.src with closed := s.src.closed || s.propagateClose }
      rsps := s.rsps ++ [{ status := .ok, data := 0 }] }) ∧
  (∀ (arg : Byte) (s : State), s.br.closed = true →
    exec (.close arg) s = .next { s with rsps := s.rsps ++ [{ status := .ok, data := 0 }] }) ∧
  (∀ (arg : Byte) (s : State), s.br.closed = true → s.active = true → s.fault = none →
    exec (.step arg) s = .next { s with
      fault := some .useAfterClose
      rsps := s.rsps ++ [{ status := .fault .useAfterClose, data := 0 }] }) ∧
  ∀ s t : State, s.br.closed = true → step s = .next t → s.resetComes = true ∨ t.br.closed = true

/-- R145: on a closed reader every `ReadBits` raises `USE_AFTER_CLOSE` before the length check and
before any pull, so RDBITS, RDBYTE and the first read of a STEP do; CLOSE and LBEGIN are no reads and do
not. -/
def Obligations.ClosedReaderFaultsEveryRead : Prop :=
  ∀ s : State, s.br.closed = true → s.fault = none →
    (∀ n, readBits n s = (.error (.fault .useAfterClose), { s with fault := some .useAfterClose })) ∧
    (∀ i, (∃ n, i = .rdbits n) ∨ (∃ a, i = .rdbyte a) ∨ (∃ a, i = .step a ∧ s.active = true) →
      exec i s = .next { s with
        fault := some .useAfterClose
        rsps := s.rsps ++ [{ status := .fault .useAfterClose, data := 0 }] }) ∧
    ∀ i, (∃ a, i = .close a) ∨ (∃ b, i = .lbegin b) →
      ∃ t, exec i s = .next t ∧ t.fault = none ∧ t.rsps = s.rsps ++ [{ status := .ok, data := 0 }]

/-! ### Chain instructions -/

/-- R90: `Move(ax, ay)` for STEPX, STEPY and STEPXY. A sentinel cursor faults; a coordinate that would
leave 0 to 255 faults, and then neither is written; otherwise the cursor moves and the new cell, and no
other, is marked. Nothing else changes. -/
def Obligations.StepInstructionsMoveAndMark : Prop :=
  ∀ (i : Instr) (ax ay : Int) (s : State),
    (i, ax, ay) ∈ [(Instr.stepx, (1 : Int), (0 : Int)), (.stepy, 0, 1), (.stepxy, 1, 1)] →
    s.fault = none →
    (s.cursor = none →
      exec i s = .next { s with
        fault := some .drawUnpositioned
        rsps := s.rsps ++ [{ status := .fault .drawUnpositioned, data := 0 }] }) ∧
    ∀ (c : Cursor) (nx ny : Int), s.cursor = some c → nx = c.cx.toNat + ax * s.dx.delta →
      ny = c.cy.toNat + ay * s.dy.delta →
      ((nx < 0 ∨ 255 < nx ∨ ny < 0 ∨ 255 < ny) →
        exec i s = .next { s with
          fault := some .cursorRange
          rsps := s.rsps ++ [{ status := .fault .cursorRange, data := 0 }] }) ∧
      (0 ≤ nx → nx ≤ 255 → 0 ≤ ny → ny ≤ 255 →
        ∃ (c' : Cursor) (g : Grid),
          exec i s = .next { s with
            cursor := some c'
            grid := g
            rsps := s.rsps ++ [{ status := .ok, data := 1 }] } ∧
          (c'.cx.toNat : Int) = nx ∧ (c'.cy.toNat : Int) = ny ∧
          ∀ (l : Byte) (j : BitVec 16), g.bit (cellAddr l j) =
            (decide (l = s.layer ∧ (j.toNat : Int) = nx + 256 * ny) || s.gridBit l j))

/-- R101 to R104: each direction instruction is what its five bits decode to, in order of arrival, and
sets its one direction and nothing else, with a sentinel cursor as well. -/
def Obligations.DirectionInstructionsSetOneDirection : Prop :=
  (∀ rest, decodeBits ([true, true, true, false, false] ++ rest) = (.ok .dxneg, rest)) ∧
  (∀ rest, decodeBits ([true, true, true, true, false] ++ rest) = (.ok .dxpos, rest)) ∧
  (∀ rest, decodeBits ([true, true, true, false, true] ++ rest) = (.ok .dyneg, rest)) ∧
  (∀ rest, decodeBits ([true, true, true, true, true] ++ rest) = (.ok .dypos, rest)) ∧
  ∀ s : State,
    exec .dxneg s = .next { s with dx := .neg, rsps := s.rsps ++ [{ status := .ok, data := 1 }] } ∧
    exec .dxpos s = .next { s with dx := .pos, rsps := s.rsps ++ [{ status := .ok, data := 1 }] } ∧
    exec .dyneg s = .next { s with dy := .neg, rsps := s.rsps ++ [{ status := .ok, data := 1 }] } ∧
    exec .dypos s = .next { s with dy := .pos, rsps := s.rsps ++ [{ status := .ok, data := 1 }] }

/-- R100, R115: a direction stays until an instruction for the same axis or the next LBEGIN sets it; a
JUMP, among the others, does not reset it. -/
def Obligations.DirectionsPersist : Prop :=
  (∀ (c : ChainInstr) (s t : State), exec c.toInstr s = .next t →
    (c ≠ .dxneg → c ≠ .dxpos → t.dx = s.dx) ∧ (c ≠ .dyneg → c ≠ .dypos → t.dy = s.dy)) ∧
  ∀ (i : Instr) (s t : State), isCommand i = true → exec i s = .next t →
    (∀ a, i ≠ .step a) → (∀ b, i ≠ .lbegin b) → (∀ b, i ≠ .lrun b) → (∀ a, i ≠ .arun a) →
    t.dx = s.dx ∧ t.dy = s.dy

/-- The effect of R110, JUMP x, y: the cursor is placed, its cell, and no other, is marked, whatever the
operands; nothing else changes. -/
def Obligations.JumpPlacesAndMarks : Prop :=
  ∀ (x y : Byte) (s : State), ∃ g : Grid,
    exec (.jump x y) s = .next { s with
      cursor := some { cx := x, cy := y }
      grid := g
      rsps := s.rsps ++ [{ status := .ok, data := 1 }] } ∧
    ∀ (l : Byte) (j : BitVec 16), g.bit (cellAddr l j) =
      (decide (l = s.layer ∧ j.toNat = x.toNat + 256 * y.toNat) || s.gridBit l j)

/-- R111: STOP is what the bits 1,1,0,1,0 decode to; it clears `active`, answers `cont = 0` and changes
nothing else: it does not mark, move, reset a direction or align the stream. -/
def Obligations.StopEndsLayer : Prop :=
  (∀ rest, decodeBits ([true, true, false, true, false] ++ rest) = (.ok .stop, rest)) ∧
  ∀ s : State, exec .stop s =
    .next { s with active := false, rsps := s.rsps ++ [{ status := .ok, data := 0 }] }

/-- R112, R113: RSV2 and RSV3 are what the bits 1,1,0,0,1 and 1,1,0,1,1 decode to; each raises
`RESERVED_OPCODE` and changes nothing else. -/
def Obligations.ReservedEncodingsFault : Prop :=
  (∀ rest, decodeBits ([true, true, false, false, true] ++ rest) = (.ok .rsv2, rest)) ∧
  (∀ rest, decodeBits ([true, true, false, true, true] ++ rest) = (.ok .rsv3, rest)) ∧
  ∀ s : State, s.fault = none →
    exec .rsv2 s = .next { s with
      fault := some .reservedOpcode
      rsps := s.rsps ++ [{ status := .fault .reservedOpcode, data := 0 }] } ∧
    exec .rsv3 s = .next { s with
      fault := some .reservedOpcode
      rsps := s.rsps ++ [{ status := .fault .reservedOpcode, data := 0 }] }

/-- From spec/43_chain_jump_stop.md R110's corner cases: JUMP is the only chain instruction that makes
the cursor valid, and no command but those that run chain instructions does. -/
def Obligations.OnlyJumpPositionsCursor : Prop :=
  (∀ (c : ChainInstr) (s t : State), exec c.toInstr s = .next t → s.cursor = none →
    t.cursor ≠ none → ∃ x y, c = .jump x y) ∧
  ∀ (i : Instr) (s t : State), isCommand i = true → exec i s = .next t → s.cursor = none →
    t.cursor ≠ none → (∃ a, i = .step a) ∨ (∃ b, i = .lrun b) ∨ ∃ a, i = .arun a

/-! ### Layer control -/

/-- R120: LBEGIN b. While a fault is recorded it answers that and changes nothing; otherwise it clears
layer `b`, and no other, sets the cursor to the sentinel, the directions to (+1, +1) and `layer` to `b`,
opens the layer, and touches nothing else. -/
def Obligations.LbeginStartsLayer : Prop :=
  ∀ (b : Byte) (s : State), decodeCmd (0x8#4 ++ b) = .ok (.lbegin b) ∧
    (∀ c, s.fault = some c →
      exec (.lbegin b) s = .next { s with rsps := s.rsps ++ [{ status := .fault c, data := 0 }] }) ∧
    (s.fault = none → ∃ g : Grid,
      exec (.lbegin b) s = .next { s with
        layer := b
        grid := g
        cursor := none
        dx := .pos
        dy := .pos
        active := true
        rsps := s.rsps ++ [{ status := .ok, data := 0 }] } ∧
      ∀ (l : Byte) (j : BitVec 16), g.bit (cellAddr l j) = (decide (l ≠ b) && s.gridBit l j))

/-- A step takes the host's oldest input; a command word that decodes to `i` runs `exec i` in the state
without that input (R10, R71; the list of inputs is the model's choice, assumption log 3). -/
def Obligations.StepRunsDecodedInstruction : Prop :=
  ∀ (s : State) (w : CmdWord) (rest : List HostInput) (i : Instr), s.inputs = .cmd w :: rest →
    decodeCmd w = .ok i → step s = exec i { s with inputs := rest }

/-- From R121 and R122: with a layer open, an open reader and no fault, STEP runs the chain instruction
that the bits ahead decode to, in the state in which exactly that instruction's bits have been
consumed, and answers as it does. -/
def Obligations.StepCommandRunsChainInstruction : Prop :=
  ∀ (arg : Byte) (s : State) (c : ChainInstr) (rest : List Bool), s.Inv → s.fault = none →
    s.active = true → s.br.closed = false → decodeBits s.ahead = (.ok c, rest) →
    ∃ (br : BitReader) (pos : Nat) (t : State),
      exec (.step arg) s = .next t ∧
      exec c.toInstr { s with br := br, src := { s.src with pos := pos } } = .next t ∧
      br.closed = false ∧
      State.ahead { s with br := br, src := { s.src with pos := pos } } = rest ∧
      State.bitpos { s with br := br, src := { s.src with pos := pos } } = s.bitpos + c.length

/-- R114: where the stream ends inside an instruction, STEP ends as by a STOP: `OK`, `cont = 0`,
`active <- 0`; the bits that earlier reads consumed stay consumed, the read that found the end consumed
none, at most 7 bits remain, and nothing else changes. -/
def Obligations.EndOfStreamEndsLayer : Prop :=
  ∀ (arg : Byte) (s : State) (rest : List Bool), s.Inv → s.fault = none → s.active = true →
    s.br.closed = false → s.src.failsAhead = false →
    decodeBits s.ahead = (.error .truncated, rest) →
    ∃ (br : BitReader) (pos : Nat),
      exec (.step arg) s = .next { s with
        br := br
        src := { s.src with pos := pos }
        active := false
        rsps := s.rsps ++ [{ status := .ok, data := 0 }] } ∧
      br.closed = false ∧
      State.ahead { s with br := br, src := { s.src with pos := pos } } = rest ∧ rest.length ≤ 7

/-- From R144 and R155: where a pull fails inside an instruction, STEP answers `IO_FAILURE`, never a
stop; the bits that earlier reads consumed stay consumed and only `fault` changes besides. -/
def Obligations.FailedPullFaultsStep : Prop :=
  ∀ (arg : Byte) (s : State) (rest : List Bool), s.Inv → s.fault = none → s.active = true →
    s.br.closed = false → s.src.failsAhead = true →
    decodeBits s.ahead = (.error .truncated, rest) →
    ∃ (br : BitReader) (pos : Nat),
      exec (.step arg) s = .next { s with
        br := br
        src := { s.src with pos := pos }
        fault := some .ioFailure
        rsps := s.rsps ++ [{ status := .fault .ioFailure, data := 0 }] } ∧
      br.closed = false ∧
      State.ahead { s with br := br, src := { s.src with pos := pos } } = rest

/-- R150: STEP with no layer open raises `LAYER_NOT_OPEN` and reads nothing, after reset and after a
layer has ended; LRUN and ARUN cannot raise it. -/
def Obligations.StepNeedsOpenLayer : Prop :=
  (∀ (arg : Byte) (s : State), s.fault = none → s.active = false →
    exec (.step arg) s = .next { s with
      fault := some .layerNotOpen
      rsps := s.rsps ++ [{ status := .fault .layerNotOpen, data := 0 }] }) ∧
  State.reset.active = false ∧
  (∀ s t : State, exec .stop s = .next t → t.active = false) ∧
  (∀ s : State, (endOfStream s).2.active = false) ∧
  ∀ (i : Instr) (s t : State), (∃ b, i = .lrun b) ∨ (∃ a, i = .arun a) → s.fault = none →
    exec i s = .next t → t.fault ≠ some .layerNotOpen

/-- From R130 and R123: LRUN b over a layer's program and its STOP answers `OK`; afterwards layer `b`
holds 1 exactly at the cells at which an instruction of the program arrives, every other layer is as it
was, the layer is closed, cursor and directions keep the values that the last instruction left (R111),
and exactly the program's bits have been consumed. -/
def Obligations.LrunDrawsProgram : Prop :=
  ∀ (b : Byte) (s : State) (prog : List ChainInstr) (cells : List (Int × Int)) (rest : List Bool),
    s.Inv → s.fault = none → s.br.closed = false → drawnBy prog = some cells →
    s.ahead = programBits (prog ++ [.stop]) ++ rest →
    ∃ (br : BitReader) (pos : Nat) (cursor : Option Cursor) (dx dy : Dir) (g : Grid),
      exec (.lrun b) s = .next { s with
        br := br
        src := { s.src with pos := pos }
        cursor := cursor
        dx := dx
        dy := dy
        layer := b
        active := false
        grid := g
        rsps := s.rsps ++ [{ status := .ok, data := 0 }] } ∧
      br.closed = false ∧
      State.ahead { s with br := br, src := { s.src with pos := pos } } = rest ∧
      penBehind prog = some (penOf cursor dx dy) ∧
      ∀ (l : Byte) (j : BitVec 16),
        g.bit (cellAddr l j) = if l = b then holdsCell cells j else s.gridBit l j

/-- From R123: a layer whose program ends with the stream, in the middle of an instruction or before
one, draws what its whole instructions draw, cursor and directions keep the values that the last whole
instruction left (R114), and LRUN answers `OK`. -/
def Obligations.LrunEndsAtEndOfStream : Prop :=
  ∀ (b : Byte) (s : State) (prog : List ChainInstr) (cells : List (Int × Int)) (tail rest : List Bool),
    s.Inv → s.fault = none → s.br.closed = false → s.src.failsAhead = false →
    drawnBy prog = some cells → s.ahead = programBits prog ++ tail →
    decodeBits tail = (.error .truncated, rest) →
    ∃ (br : BitReader) (pos : Nat) (cursor : Option Cursor) (dx dy : Dir) (g : Grid),
      exec (.lrun b) s = .next { s with
        br := br
        src := { s.src with pos := pos }
        cursor := cursor
        dx := dx
        dy := dy
        layer := b
        active := false
        grid := g
        rsps := s.rsps ++ [{ status := .ok, data := 0 }] } ∧
      br.closed = false ∧
      State.ahead { s with br := br, src := { s.src with pos := pos } } = rest ∧
      penBehind prog = some (penOf cursor dx dy) ∧
      ∀ (l : Byte) (j : BitVec 16),
        g.bit (cellAddr l j) = if l = b then holdsCell cells j else s.gridBit l j

/-- From R123, R142 and R155: a layer's program followed by an instruction that faults. LRUN answers that
code and records it; layer `b` holds exactly the cells of the program before the fault, every other
layer is as it was; the layer stays open; cursor and directions are those the program left, so the
faulting instruction has written nothing; the bits that it consumed, as many as R155 lists, stay
consumed. On a closed reader LRUN answers `USE_AFTER_CLOSE` behind its LBEGIN: layer `b` is empty and
open, and nothing has been consumed. -/
def Obligations.LrunLeavesPictureOnFault : Prop :=
  (∀ (b : Byte) (s : State) (prog : List ChainInstr) (cells : List (Int × Int)) (p : Pen)
    (bits rest : List Bool) (f : FaultCode),
    s.Inv → s.fault = none → s.br.closed = false → drawnBy prog = some cells →
    penBehind prog = some p → s.ahead = programBits prog ++ bits →
    faultAt s.src.failsAhead p bits = some (f, rest) →
    (∃ k ∈ f.consumed, rest = bits.drop k) ∧
    ∃ (br : BitReader) (pos : Nat) (cursor : Option Cursor) (dx dy : Dir) (g : Grid),
      exec (.lrun b) s = .next { s with
        br := br
        src := { s.src with pos := pos }
        cursor := cursor
        dx := dx
        dy := dy
        layer := b
        active := true
        fault := some f
        grid := g
        rsps := s.rsps ++ [{ status := .fault f, data := 0 }] } ∧
      br.closed = false ∧
      State.ahead { s with br := br, src := { s.src with pos := pos } } = rest ∧
      penOf cursor dx dy = p ∧
      ∀ (l : Byte) (j : BitVec 16),
        g.bit (cellAddr l j) = if l = b then holdsCell cells j else s.gridBit l j) ∧
  ∀ (b : Byte) (s : State), s.fault = none → s.br.closed = true →
    ∃ g : Grid,
      exec (.lrun b) s = .next { s with
        cursor := none
        dx := .pos
        dy := .pos
        layer := b
        active := true
        fault := some .useAfterClose
        grid := g
        rsps := s.rsps ++ [{ status := .fault .useAfterClose, data := 0 }] } ∧
      ∀ (l : Byte) (j : BitVec 16), g.bit (cellAddr l j) = (decide (l ≠ b) && s.gridBit l j)

/-- R125: a STEP that answers `cont = 1` has consumed at least 2 bits, `bitpos` never exceeds
`8 * len`, and LRUN and ARUN end from every state: the model's loops, bounded by
`(8 * len - bitpos) div 2 + 1` STEPs a layer, never run into their bound. -/
def Obligations.LayerLoopsEnd : Prop :=
  (∀ (s s' : State), s.Inv → stepCommand s = ({ status := .ok, data := 1 }, s') →
    s.bitpos + 2 ≤ s'.bitpos) ∧
  (∀ s : State, s.Inv → s.bitpos ≤ 8 * s.src.data.length ∧
    stepBound s = (8 * s.src.data.length - s.bitpos) / 2 + 1) ∧
  (∀ (b : Byte) (s : State), ∃ t, exec (.lrun b) s = .next t) ∧
  ∀ (arg : Byte) (s : State), ∃ t, exec (.arun arg) s = .next t

/-- A command always ends (R125, R185): every step answers a next state, from every state. -/
def Obligations.EveryStepEnds : Prop := ∀ s : State, ∃ t, step s = .next t

/-- From R124: ARUN over 256 programs, each behind the other and ended by its STOP, answers `OK`;
afterwards every layer holds exactly the cells of its own program, cursor and directions are those that
layer 255's last instruction left (R111), and exactly the programs' bits have been consumed. -/
def Obligations.ArunDecodesEveryLayer : Prop :=
  ∀ (arg : Byte) (s : State) (prog : Byte → List ChainInstr) (cells : Byte → List (Int × Int))
    (rest : List Bool), s.Inv → s.fault = none → s.br.closed = false →
    (∀ b, drawnBy (prog b) = some (cells b)) →
    s.ahead = (allLayers.flatMap fun b => programBits (prog b ++ [.stop])) ++ rest →
    ∃ (br : BitReader) (pos : Nat) (cursor : Option Cursor) (dx dy : Dir) (g : Grid),
      exec (.arun arg) s = .next { s with
        br := br
        src := { s.src with pos := pos }
        cursor := cursor
        dx := dx
        dy := dy
        layer := 255
        active := false
        grid := g
        rsps := s.rsps ++ [{ status := .ok, data := 0 }] } ∧
      br.closed = false ∧
      State.ahead { s with br := br, src := { s.src with pos := pos } } = rest ∧
      penBehind (prog 255) = some (penOf cursor dx dy) ∧
      ∀ (l : Byte) (j : BitVec 16), g.bit (cellAddr l j) = holdsCell (cells l) j

/-- From R124: the first fault ends ARUN with that fault's code, and the layers after the faulting one
are neither cleared nor decoded. -/
def Obligations.ArunStopsAtFirstFault : Prop :=
  ∀ (arg : Byte) (s t : State) (c : FaultCode), s.fault = none → exec (.arun arg) s = .next t →
    t.fault = some c →
    t.rsps = s.rsps ++ [{ status := .fault c, data := 0 }] ∧
    ∀ (l : Byte) (j : BitVec 16), t.layer.toNat < l.toNat → t.gridBit l j = s.gridBit l j

/-- From R124, R142 and R155: ARUN over the programs of the layers before `b`, each ended by its STOP, and
a program of layer `b` followed by an instruction that faults. ARUN answers that code and records it;
the layers before `b` keep their own programs' cells, layer `b` holds exactly the cells of its program
before the fault, the layers behind it are as they were; layer `b` stays open; cursor and directions are
those its program left; exactly the bits up to what the faulting instruction consumed are consumed. -/
def Obligations.ArunKeepsPicturesOnFault : Prop :=
  ∀ (arg : Byte) (s : State) (b : Byte) (prog : Byte → List ChainInstr)
    (cells : Byte → List (Int × Int)) (p : Pen) (bits rest : List Bool) (f : FaultCode),
    s.Inv → s.fault = none → s.br.closed = false →
    (∀ l : Byte, l.toNat ≤ b.toNat → drawnBy (prog l) = some (cells l)) →
    penBehind (prog b) = some p →
    s.ahead = ((allLayers.take b.toNat).flatMap fun l => programBits (prog l ++ [.stop])) ++
      (programBits (prog b) ++ bits) →
    faultAt s.src.failsAhead p bits = some (f, rest) →
    (∃ k ∈ f.consumed, rest = bits.drop k) ∧
    ∃ (br : BitReader) (pos : Nat) (cursor : Option Cursor) (dx dy : Dir) (g : Grid),
      exec (.arun arg) s = .next { s with
        br := br
        src := { s.src with pos := pos }
        cursor := cursor
        dx := dx
        dy := dy
        layer := b
        active := true
        fault := some f
        grid := g
        rsps := s.rsps ++ [{ status := .fault f, data := 0 }] } ∧
      br.closed = false ∧
      State.ahead { s with br := br, src := { s.src with pos := pos } } = rest ∧
      penOf cursor dx dy = p ∧
      ∀ (l : Byte) (j : BitVec 16), g.bit (cellAddr l j) =
        if l.toNat ≤ b.toNat then holdsCell (cells l) j else s.gridBit l j

/-- From R124 and R183: where at most 1 bit is left, ARUN answers `OK`, every layer is cleared and stays
empty, and nothing is consumed. -/
def Obligations.ArunPastEndClearsAllLayers : Prop :=
  ∀ (arg : Byte) (s : State), s.Inv → s.fault = none → s.br.closed = false →
    s.src.failsAhead = false → s.ahead.length ≤ 1 →
    ∃ g : Grid,
      exec (.arun arg) s = .next { s with
        cursor := none
        dx := .pos
        dy := .pos
        layer := 255
        active := false
        grid := g
        rsps := s.rsps ++ [{ status := .ok, data := 0 }] } ∧
      ∀ (l : Byte) (j : BitVec 16), g.bit (cellAddr l j) = false

/-! ### Faults and responses -/

/-- R143: while a fault is recorded every command but CLOSE, and every reserved command word, ends at
once with the recorded code and changes nothing; CLOSE answers `OK` and keeps the code; the code stays
until a reset. -/
def Obligations.RecordedFaultGatesCommands : Prop :=
  ∀ (s : State) (c : FaultCode), s.fault = some c →
    (∀ i, isCommand i = true → isClose i = false →
      exec i s = .next { s with rsps := s.rsps ++ [{ status := .fault c, data := 0 }] }) ∧
    (∀ (w : CmdWord) (rest : List HostInput) (e : DecodeError), s.inputs = .cmd w :: rest →
      decodeCmd w = .error e →
      step s = .next { s with
        inputs := rest
        rsps := s.rsps ++ [{ status := .fault c, data := 0 }] }) ∧
    (∀ (arg : Byte), ∃ t, exec (.close arg) s = .next t ∧ t.fault = some c ∧
      t.rsps = s.rsps ++ [{ status := .ok, data := 0 }]) ∧
    ∀ t, step s = .next t → s.resetComes = true ∨ t.fault = some c

/-- From R73, R140 and R142: every command produces exactly one response; data come with `OK` only; a
fault code answered is the one recorded, and a command that answers none has recorded none; `EOS` comes
from RDBITS and RDBYTE only. The lists of inputs and responses are the model's choice, assumption log
3. -/
def Obligations.OneResponsePerCommand : Prop :=
  ∀ (s t : State) (w : CmdWord) (rest : List HostInput), s.inputs = .cmd w :: rest →
    step s = .next t →
    t.inputs = rest ∧ ∃ r : Rsp, t.rsps = s.rsps ++ [r] ∧ (r.status ≠ .ok → r.data = 0) ∧
      (∀ c, r.status = .fault c → t.fault = some c) ∧
      ((∀ c, r.status ≠ .fault c) → t.fault = s.fault) ∧
      (r.status = .eos → ∃ i, decodeCmd w = .ok i ∧ isRead i = true)

/-- R151: a command word whose `op` is none of the seven raises `BAD_COMMAND`, and nothing else happens. -/
def Obligations.ReservedCommandFaults : Prop :=
  ∀ (s : State) (w : CmdWord) (rest : List HostInput), s.inputs = .cmd w :: rest → s.fault = none →
    (cmdOp w).toNat ∉ [0x1, 0x2, 0x3, 0x8, 0x9, 0xA, 0xB] →
    step s = .next { s with
      inputs := rest
      fault := some .badCommand
      rsps := s.rsps ++ [{ status := .fault .badCommand, data := 0 }] }

/-- R72, U16: the argument bits of the commands that ignore them do not affect the command. -/
def Obligations.IgnoredArgumentsHaveNoEffect : Prop :=
  ∀ (a b : Byte) (s : State), exec (.rdbyte a) s = exec (.rdbyte b) s ∧
    exec (.close a) s = exec (.close b) s ∧ exec (.step a) s = exec (.step b) s ∧
    exec (.arun a) s = exec (.arun b) s

/-- From R154's own examples of the order of tests: a STEP on a closed reader with no open layer reports
`LAYER_NOT_OPEN`, `RDBITS 0` on a closed reader `USE_AFTER_CLOSE`, a step with a sentinel cursor never
`CURSOR_RANGE`. -/
def Obligations.TestsComeInOrder : Prop :=
  ∀ s : State, s.fault = none →
    (∀ (arg : Byte) (t : State), s.br.closed = true → s.active = false →
      exec (.step arg) s = .next t → t.fault = some .layerNotOpen) ∧
    (∀ t : State, s.br.closed = true → exec (.rdbits 0) s = .next t → t.fault = some .useAfterClose) ∧
    ∀ (i : Instr) (t : State), i ∈ [Instr.stepx, .stepy, .stepxy] → s.cursor = none →
      exec i s = .next t → t.fault = some .drawUnpositioned

/-! ### The whole machine -/

/-- From R170 to R173: after a reset every element has its reset value (R171), the switch is the one
sampled (R170), the source is bound at position 0 with the bytes and the failure point given (R173),
GRID is as it was (R172), and a STEP straight after it raises `LAYER_NOT_OPEN` (R171). That the reset is
the input taken and leaves the other inputs and the responses given is the model's choice, assumption
log 3. -/
def Obligations.ResetGivesResetValues : Prop :=
  ∀ (s : State) (p : Bool) (data : List Byte) (failAt : Option Nat) (rest : List HostInput),
    s.inputs = .reset p data failAt :: rest →
    ∃ t, step s = .next t ∧ t.br = { buf := 0, fill := 0, closed := false } ∧ t.cursor = none ∧
      t.dx = .pos ∧ t.dy = .pos ∧ t.layer = 0 ∧ t.active = false ∧ t.fault = none ∧
      t.src = { data := data, failAt := failAt, pos := 0, closed := false } ∧
      t.propagateClose = p ∧ t.grid = s.grid ∧ t.inputs = rest ∧ t.rsps = s.rsps ∧
      ∀ (arg : Byte), exec (.step arg) t = .next { t with
        fault := some .layerNotOpen
        rsps := t.rsps ++ [{ status := .fault .layerNotOpen, data := 0 }] }

/-- With nothing asked for the block waits for a command: the state stays (R27; how waiting shows in
`step` is the model's choice, assumption log 3). -/
def Obligations.IdleBlockWaits : Prop := ∀ s : State, s.inputs = [] → step s = .next s

/-- The invariant holds in the reset state. -/
def Obligations.ResetMeetsInvariant : Prop := State.reset.Inv

/-- Every step keeps the invariant: the buffer is tight and holds the stream's bits from `bitpos` on,
the source is not overrun, GRID is in canonical form, an open layer has been cleared, and a closed
source belongs to a closed reader (R14, R15, R42, R45, R120, R172). -/
def Obligations.StepKeepsInvariant : Prop := ∀ s t : State, s.Inv → step s = .next t → t.Inv

/-- Two grids in canonical form of which the same is known at every address are the same data (the
canonical form is the model's, assumption log 4). -/
def Obligations.CanonicalGridIsUnique : Prop :=
  ∀ g h : Grid, Memory.wf g → Memory.wf h →
    (∀ a, a < Config.layers * Config.gridBits → g.read? a = h.read? a) → g = h

/-- From R48: the block never reads GRID: what an instruction does to everything else, its response
among it, does not depend on what GRID holds. -/
def Obligations.BlockNeverReadsGrid : Prop :=
  ∀ (i : Instr) (s t : State) (g : Grid), exec i s = .next t →
    ∃ g', exec i { s with grid := g } = .next { t with grid := g' }

/-- From R48 and R50: an instruction writes the current layer only, LBEGIN b and LRUN b layer `b` only,
and a chain instruction, or the one that STEP runs, clears no cell. -/
def Obligations.GridWritesStayInLayer : Prop :=
  ∀ (i : Instr) (s t : State), exec i s = .next t →
    ((∀ b, i ≠ .lbegin b) → (∀ b, i ≠ .lrun b) → (∀ a, i ≠ .arun a) →
      ∀ (l : Byte) (j : BitVec 16), (l ≠ s.layer → t.gridBit l j = s.gridBit l j) ∧
        (s.gridBit l j = true → t.gridBit l j = true)) ∧
    ∀ b, i = .lbegin b ∨ i = .lrun b →
      ∀ (l : Byte) (j : BitVec 16), l ≠ b → t.gridBit l j = s.gridBit l j

/-- From R22, R41 and R55: no instruction changes the source's bytes, its failure point or
`PROPAGATE_CLOSE`, the source is pulled in increasing position, and only CLOSE closes anything. -/
def Obligations.InstructionsKeepSource : Prop :=
  ∀ (i : Instr) (s t : State), exec i s = .next t →
    t.src.data = s.src.data ∧ t.src.failAt = s.src.failAt ∧ t.propagateClose = s.propagateClose ∧
    t.inputs = s.inputs ∧ s.src.pos ≤ t.src.pos ∧
    (isClose i = false → t.src.closed = s.src.closed ∧ t.br.closed = s.br.closed)

/-- From R45: the block never pulls from a closed source. -/
def Obligations.ClosedSourceIsNeverPulled : Prop :=
  ∀ s t : State, s.Inv → s.src.closed = true → step s = .next t →
    s.resetComes = true ∨ (t.src.pos = s.src.pos ∧ t.src.closed = true)
end

