-- ==== Sys2Proof/Laws/Bits.lean ====
section
/-! SUPPORT. The laws of bit lists: fields, the buffer, and the stream. -/

namespace Sys2Proof

/-! ### Fields -/

@[simp] theorem bitsOf_length {w : Nat} (n : Nat) (v : BitVec w) : (bitsOf n v).length = n := by
  simp [bitsOf]

theorem bitsOf_getElem? {w : Nat} (n : Nat) (v : BitVec w) (i : Nat) :
    (bitsOf n v)[i]? = if i < n then some (v.getLsbD i) else none := by
  by_cases h : i < n <;> simp [bitsOf, h]

theorem fieldValue_testBit (n m : Nat) :
    fieldValue ((List.range n).map m.testBit) = m % 2 ^ n := by
  induction n generalizing m with
  | zero => simp [fieldValue, Nat.mod_one]
  | succ n ih =>
    have hshift : (List.range n).map (m.testBit ∘ Nat.succ) = (List.range n).map (m / 2).testBit := by
      refine List.map_congr_left fun i _ => ?_
      simp [Function.comp, Nat.testBit_succ]
    rw [List.range_succ_eq_map, List.map_cons, List.map_map, fieldValue, hshift, ih, pow_succ',
      Nat.mod_mul, Nat.testBit_zero]
    congr 1
    rcases Nat.mod_two_eq_zero_or_one m with h | h <;> simp [h]

/-- A field's value is the word it was laid out from, cut to its width (R47, R63). -/
theorem fieldValue_bitsOf {w : Nat} (n : Nat) (v : BitVec w) :
    fieldValue (bitsOf n v) = v.toNat % 2 ^ n := fieldValue_testBit n v.toNat

theorem fieldValue_lt (bits : List Bool) : fieldValue bits < 2 ^ bits.length := by
  induction bits with
  | nil => simp [fieldValue]
  | cons b bs ih =>
    have : b.toNat ≤ 1 := Bool.toNat_le b
    simp only [fieldValue, List.length_cons, pow_succ]
    omega

theorem fieldValue_append (a b : List Bool) :
    fieldValue (a ++ b) = fieldValue a + 2 ^ a.length * fieldValue b := by
  induction a with
  | nil => simp [fieldValue]
  | cons x xs ih => simp only [List.cons_append, fieldValue, ih, List.length_cons, pow_succ]; ring

theorem bitsOf_take {w : Nat} (n k : Nat) (v : BitVec w) (h : k ≤ n) :
    (bitsOf n v).take k = bitsOf k v := by
  simp [bitsOf, ← List.map_take, List.take_range, Nat.min_eq_left h]

theorem bitsOf_drop {w : Nat} (n k : Nat) (v : BitVec w) (h : k ≤ n) :
    (bitsOf n v).drop k = bitsOf (n - k) (v >>> k) := by
  refine List.ext_getElem? fun i => ?_
  rw [List.getElem?_drop, bitsOf_getElem?, bitsOf_getElem?]
  by_cases hi : k + i < n
  · simp [hi, show i < n - k by omega, BitVec.getLsbD_ushiftRight]
  · simp [hi, show ¬ i < n - k by omega]

/-! ### The stream -/

@[simp] theorem streamBits_nil : streamBits [] = [] := rfl

@[simp] theorem streamBits_cons (b : Byte) (bs : List Byte) :
    streamBits (b :: bs) = bitsOf 8 b ++ streamBits bs := by simp [streamBits]

theorem streamBits_append (a b : List Byte) : streamBits (a ++ b) = streamBits a ++ streamBits b := by
  simp [streamBits]

@[simp] theorem streamBits_length (bytes : List Byte) : (streamBits bytes).length = 8 * bytes.length := by
  induction bytes with
  | nil => simp
  | cons b bs ih => simp [ih]; omega

/-- The stream of the bytes from a position on. -/
theorem streamBits_drop (bytes : List Byte) (k : Nat) :
    streamBits (bytes.drop k) = (streamBits bytes).drop (8 * k) := by
  induction bytes generalizing k with
  | nil => simp
  | cons b bs ih =>
    cases k with
    | zero => simp
    | succ k =>
      rw [List.drop_succ_cons, ih, streamBits_cons, List.drop_append, bitsOf_length,
        List.drop_eq_nil_of_le (as := bitsOf 8 b) (by simp), List.nil_append]
      congr 1

/-- Stream bit `k` is bit `k mod 8` of byte `k div 8` (R46). -/
theorem streamBits_getElem? (bytes : List Byte) (k : Nat) :
    (streamBits bytes)[k]? =
      if k < 8 * bytes.length then some (decide (Machine.sbit bytes k = 1)) else none := by
  induction bytes generalizing k with
  | nil => simp
  | cons b bs ih =>
    rw [streamBits_cons, List.getElem?_append, bitsOf_length, bitsOf_getElem?]
    by_cases h : k < 8
    · have hd : k / 8 = 0 := by omega
      have hm : k % 8 = k := by omega
      simp only [h, if_true, List.length_cons, show k < 8 * (bs.length + 1) by omega,
        Machine.sbit, hd, hm, List.getElem?_cons_zero, Option.getD_some]
      congr 1
      simp only [BitVec.getLsbD, Nat.testBit]
      have := Nat.mod_two_eq_zero_or_one (b.toNat >>> k)
      rcases this with h0 | h0 <;> simp [Nat.and_comm, h0]
    · simp only [h, if_false, ih, List.length_cons]
      have hd : k / 8 = (k - 8) / 8 + 1 := by omega
      have hm : k % 8 = (k - 8) % 8 := by omega
      simp only [Machine.sbit, hd, hm, List.getElem?_cons_succ]
      by_cases hk : k - 8 < 8 * bs.length
      · simp [hk, show k < 8 * (bs.length + 1) by omega]
      · simp [hk, show ¬ k < 8 * (bs.length + 1) by omega]

theorem Machine.sbit_eq (bytes : List Byte) (k : Nat) : sbit bytes k = 0 ∨ sbit bytes k = 1 := by
  unfold sbit
  rw [Nat.and_one_is_mod]
  omega

/-- The spec's `field(p, n)` is the value of the `n` stream bits from `p` on, where the stream has
them (R47). -/
theorem Machine.field_eq (bytes : List Byte) (p n : Nat) (h : p + n ≤ 8 * bytes.length) :
    field bytes p n = fieldValue (((streamBits bytes).drop p).take n) := by
  induction n generalizing p with
  | zero => simp [field, fieldValue]
  | succ n ih =>
    have hget := streamBits_getElem? bytes p
    rw [if_pos (by omega)] at hget
    obtain ⟨hlt, hp⟩ := List.getElem?_eq_some_iff.1 hget
    rw [List.drop_eq_getElem_cons hlt, List.take_succ_cons, fieldValue, hp, ← ih (p + 1) (by omega)]
    unfold field
    rw [List.range_succ_eq_map, List.map_cons, List.sum_cons, List.map_map]
    have hb : sbit bytes (p + 0) <<< 0 = (decide (sbit bytes p = 1)).toNat := by
      rcases sbit_eq bytes p with h0 | h0 <;> simp [h0]
    rw [hb, ← List.sum_map_mul_left]
    congr 2
    refine List.map_congr_left fun i _ => ?_
    simp only [Function.comp, Nat.shiftLeft_eq, Nat.succ_eq_add_one, pow_succ,
      show p + (i + 1) = p + 1 + i by omega]
    ring

end Sys2Proof

namespace Sys2Proof.Machine

/-! ### The buffer -/

@[simp] theorem BitReader.bits_length (br : BitReader) : br.bits.length = br.fill.toNat := by
  simp [BitReader.bits]

@[simp] theorem BitReader.push_closed (b : Byte) (br : BitReader) : (br.push b).closed = br.closed := rfl

@[simp] theorem BitReader.drop_closed (n : Nat) (br : BitReader) : (br.drop n).closed = br.closed := rfl

theorem BitReader.push_fill (b : Byte) (br : BitReader) (h : br.fill.toNat ≤ 7) :
    (br.push b).fill.toNat = br.fill.toNat + 8 := by
  simp [BitReader.push, BitVec.toNat_add]
  omega

theorem BitReader.push_toNat (b : Byte) (br : BitReader) (h : br.fill.toNat ≤ 7)
    (hb : br.buf.toNat < 2 ^ br.fill.toNat) :
    (br.push b).buf.toNat = br.buf.toNat + 2 ^ br.fill.toNat * b.toNat := by
  have hlt := b.isLt
  have hpow : 2 ^ br.fill.toNat ≤ 2 ^ 7 := Nat.pow_le_pow_right (by omega) h
  have hmul : b.toNat * 2 ^ br.fill.toNat < 2 ^ 15 := by nlinarith
  simp only [BitReader.push, BitVec.toNat_or, BitVec.toNat_shiftLeft, BitVec.toNat_setWidth,
    Nat.shiftLeft_eq]
  rw [Nat.mod_eq_of_lt (show b.toNat < 2 ^ 15 by omega), Nat.mod_eq_of_lt hmul,
    Nat.mul_comm b.toNat, Nat.or_comm, ← Nat.two_pow_add_eq_or_of_lt hb]
  omega

/-- R14: the bits above the fill length stay 0 when a byte is pushed. -/
theorem BitReader.push_buf_lt (b : Byte) (br : BitReader) (h : br.fill.toNat ≤ 7)
    (hb : br.buf.toNat < 2 ^ br.fill.toNat) :
    (br.push b).buf.toNat < 2 ^ (br.push b).fill.toNat := by
  have hlt := b.isLt
  rw [push_toNat b br h hb, push_fill b br h, pow_add]
  nlinarith [Nat.pos_of_ne_zero (show 2 ^ br.fill.toNat ≠ 0 by positivity)]

/-- A pushed byte stands behind the bits that were buffered (R80). -/
theorem BitReader.push_bits (b : Byte) (br : BitReader) (h : br.fill.toNat ≤ 7)
    (hb : br.buf.toNat < 2 ^ br.fill.toNat) :
    (br.push b).bits = br.bits ++ bitsOf 8 b := by
  refine List.ext_getElem? fun i => ?_
  rw [BitReader.bits, push_fill b br h, bitsOf_getElem?, List.getElem?_append, bits_length,
    BitReader.bits, bitsOf_getElem?, bitsOf_getElem?]
  have hbit : (br.push b).buf.getLsbD i =
      if i < br.fill.toNat then br.buf.getLsbD i else b.getLsbD (i - br.fill.toNat) := by
    simp only [BitVec.getLsbD, push_toNat b br h hb, Nat.add_comm br.buf.toNat,
      Nat.testBit_two_pow_mul_add _ hb]
  by_cases h1 : i < br.fill.toNat
  · simp [hbit, h1, show i < br.fill.toNat + 8 by omega]
  · by_cases h2 : i < br.fill.toNat + 8
    · simp [hbit, h1, h2, show i - br.fill.toNat < 8 by omega]
    · simp [h1, h2, show ¬ i - br.fill.toNat < 8 by omega]

theorem BitReader.drop_fill (n : Nat) (br : BitReader) (hn : n ≤ br.fill.toNat) :
    (br.drop n).fill.toNat = br.fill.toNat - n := by
  have := br.fill.isLt
  simp only [BitReader.drop, BitVec.toNat_sub, BitVec.toNat_ofNat]
  omega

/-- The bits behind the ones shifted out stay in the buffer (R80). -/
theorem BitReader.drop_bits (n : Nat) (br : BitReader) (hn : n ≤ br.fill.toNat) :
    (br.drop n).bits = br.bits.drop n := by
  rw [BitReader.bits, drop_fill n br hn, BitReader.bits, bitsOf_drop _ _ _ hn, BitReader.drop]

/-- R14: zeros enter at the top when bits are shifted out. -/
theorem BitReader.drop_buf_lt (n : Nat) (br : BitReader) (hn : n ≤ br.fill.toNat)
    (hb : br.buf.toNat < 2 ^ br.fill.toNat) :
    (br.drop n).buf.toNat < 2 ^ (br.drop n).fill.toNat := by
  rw [drop_fill n br hn]
  simp only [BitReader.drop, BitVec.toNat_ushiftRight, Nat.shiftRight_eq_div_pow]
  rw [Nat.div_lt_iff_lt_mul (by positivity), ← pow_add]
  rwa [Nat.sub_add_cancel hn]

/-- The value read is that of the first bits in the buffer (R80). -/
theorem BitReader.low_eq (n : Nat) (br : BitReader) (hn : n ≤ br.fill.toNat) :
    br.low n = BitVec.ofNat 8 (fieldValue (br.bits.take n)) := by
  rw [BitReader.bits, bitsOf_take _ _ _ hn, fieldValue_bitsOf, BitReader.low]

end Sys2Proof.Machine
end

