-- ==== Sys2Proof/Laws/Decode.lean ====
section
/-! SUPPORT. The laws of the decoder: what it can do over any way of reading fields, and that two ways
of reading that agree read by read decode the same instruction. -/

namespace Sys2Proof

/-- What holds of every state that a decode passes through, and at its end: `P` is kept by reads that
answer a value, and leads to `Q` at a read that answers none. -/
theorem decodeJump_post {σ ε : Type} {read : Nat → σ → Except ε Byte × σ} {P : σ → Prop}
    {Q : ε → σ → Prop} (hok : ∀ n a v a', P a → read n a = (.ok v, a') → P a')
    (herr : ∀ n a e a', P a → read n a = (.error e, a') → Q e a') {a : σ} (h : P a) :
    match decodeJump read a with
    | (.ok _, a') => P a'
    | (.error e, a') => Q e a' := by
  unfold decodeJump
  rcases h1 : read 8 a with ⟨e | x, a1⟩
  · exact herr 8 a e a1 h h1
  · have p1 := hok 8 a x a1 h h1
    rcases h2 : read 8 a1 with ⟨e | y, a2⟩
    · simpa only [h2] using herr 8 a1 e a2 p1 h2
    · simpa only [h2] using hok 8 a1 y a2 p1 h2

theorem decodeLong_post {σ ε : Type} {read : Nat → σ → Except ε Byte × σ} {P : σ → Prop}
    {Q : ε → σ → Prop} (hok : ∀ n a v a', P a → read n a = (.ok v, a') → P a')
    (herr : ∀ n a e a', P a → read n a = (.error e, a') → Q e a') {a : σ} (h : P a) :
    match decodeLong read a with
    | (.ok _, a') => P a'
    | (.error e, a') => Q e a' := by
  unfold decodeLong
  rcases h1 : read 1 a with ⟨e | f, a1⟩
  · exact herr 1 a e a1 h h1
  · have p1 := hok 1 a f a1 h h1
    rcases h2 : read 2 a1 with ⟨e | q, a2⟩
    · simpa only [h2] using herr 2 a1 e a2 p1 h2
    · have p2 := hok 2 a1 q a2 p1 h2
      simp only [h2]
      cases decodeSub (f.setWidth 1) (q.setWidth 2) with
      | some c => exact p2
      | none => exact decodeJump_post hok herr p2

/-- The same of a whole decode; `P0` holds before the first read, `P` after it. -/
theorem decodeWith_post {σ ε : Type} {read : Nat → σ → Except ε Byte × σ} {P0 P : σ → Prop}
    {Q : ε → σ → Prop} (hfirst : ∀ a v a', P0 a → read 2 a = (.ok v, a') → P a')
    (hfirstErr : ∀ a e a', P0 a → read 2 a = (.error e, a') → Q e a')
    (hok : ∀ n a v a', P a → read n a = (.ok v, a') → P a')
    (herr : ∀ n a e a', P a → read n a = (.error e, a') → Q e a') {a : σ} (h : P0 a) :
    match decodeWith read a with
    | (.ok _, a') => P a'
    | (.error e, a') => Q e a' := by
  unfold decodeWith
  rcases h1 : read 2 a with ⟨e | p, a1⟩
  · exact hfirstErr a e a1 h h1
  · have p1 := hfirst a p a1 h h1
    simp only
    cases decodePrimary (p.setWidth 2) with
    | some c => exact p1
    | none => exact decodeLong_post hok herr p1

/-- Two answers agree: the same value and related states, or an end on both sides. -/
def Agree {σ τ ε δ α : Type} (R : σ → τ → Prop) (E : ε → σ → δ → τ → Prop) :
    Except ε α × σ → Except δ α × τ → Prop
  | (.ok v, a), (.ok w, b) => v = w ∧ R a b
  | (.error e, a), (.error d, b) => E e a d b
  | _, _ => False

/-- Ways of reading that agree on every read of 1, 2 and 8 bits decode the same instruction. -/
theorem decodeWith_agree {σ τ ε δ : Type} {rd : Nat → σ → Except ε Byte × σ}
    {rb : Nat → τ → Except δ Byte × τ} {R : σ → τ → Prop} {E : ε → σ → δ → τ → Prop}
    (hread : ∀ n, n = 1 ∨ n = 2 ∨ n = 8 → ∀ a b, R a b → Agree R E (rd n a) (rb n b))
    {a : σ} {b : τ} (h : R a b) : Agree R E (decodeWith rd a) (decodeWith rb b) := by
  have jump : ∀ a b, R a b → Agree R E (decodeJump rd a) (decodeJump rb b) := by
    intro a b h
    have h1 := hread 8 (by omega) a b h
    unfold decodeJump
    rcases e1 : rd 8 a with ⟨_ | x, a1⟩ <;> rcases e2 : rb 8 b with ⟨_ | y, b1⟩ <;>
      rw [e1, e2] at h1 <;> simp only [Agree] at h1
    · exact h1
    · obtain ⟨rfl, h1⟩ := h1
      have h2 := hread 8 (by omega) a1 b1 h1
      rcases e3 : rd 8 a1 with ⟨_ | x', a2⟩ <;> rcases e4 : rb 8 b1 with ⟨_ | y', b2⟩ <;>
        rw [e3, e4] at h2 <;> simp only [Agree] at h2 <;> simp only [Agree, e3, e4]
      · exact h2
      · obtain ⟨rfl, h2⟩ := h2
        exact ⟨rfl, h2⟩
  have long : ∀ a b, R a b → Agree R E (decodeLong rd a) (decodeLong rb b) := by
    intro a b h
    have h1 := hread 1 (by omega) a b h
    unfold decodeLong
    rcases e1 : rd 1 a with ⟨_ | x, a1⟩ <;> rcases e2 : rb 1 b with ⟨_ | y, b1⟩ <;>
      rw [e1, e2] at h1 <;> simp only [Agree] at h1
    · exact h1
    · obtain ⟨rfl, h1⟩ := h1
      have h2 := hread 2 (by omega) a1 b1 h1
      rcases e3 : rd 2 a1 with ⟨_ | x', a2⟩ <;> rcases e4 : rb 2 b1 with ⟨_ | y', b2⟩ <;>
        rw [e3, e4] at h2 <;> simp only [Agree] at h2 <;> simp only [e3, e4]
      · exact h2
      · obtain ⟨rfl, h2⟩ := h2
        cases decodeSub (x.setWidth 1) (x'.setWidth 2) with
        | some c => exact ⟨rfl, h2⟩
        | none => exact jump a2 b2 h2
  have h1 := hread 2 (by omega) a b h
  unfold decodeWith
  rcases e1 : rd 2 a with ⟨_ | x, a1⟩ <;> rcases e2 : rb 2 b with ⟨_ | y, b1⟩ <;>
    rw [e1, e2] at h1 <;> simp only [Agree] at h1
  · exact h1
  · obtain ⟨rfl, h1⟩ := h1
    simp only
    cases decodePrimary (x.setWidth 2) with
    | some c => exact ⟨rfl, h1⟩
    | none => exact long a1 b1 h1

/-- A field taken from bits that begin with a word's low `n` bits is that word's. -/
theorem takeField_bitsOf {w : Nat} (n : Nat) (v : BitVec w) (rest : List Bool) :
    takeField n (bitsOf n v ++ rest) = (.ok (BitVec.ofNat 8 (v.toNat % 2 ^ n)), rest) := by
  have hlen : (bitsOf n v).length = n := bitsOf_length n v
  rw [takeField, if_pos (by simp), List.take_left' hlen, List.drop_left' hlen, fieldValue_bitsOf]

end Sys2Proof
end

