-- ==== Sys2Proof/Laws/State.lean ====
section
/-! SUPPORT. One lemma per field of State per update of it, so that no proof unfolds a record update. -/

namespace Sys2Proof.Machine

@[simp] theorem respond_br (r : Rsp) (s : State) : (respond r s).br = s.br := rfl
@[simp] theorem respond_src (r : Rsp) (s : State) : (respond r s).src = s.src := rfl
@[simp] theorem respond_cursor (r : Rsp) (s : State) : (respond r s).cursor = s.cursor := rfl
@[simp] theorem respond_dx (r : Rsp) (s : State) : (respond r s).dx = s.dx := rfl
@[simp] theorem respond_dy (r : Rsp) (s : State) : (respond r s).dy = s.dy := rfl
@[simp] theorem respond_layer (r : Rsp) (s : State) : (respond r s).layer = s.layer := rfl
@[simp] theorem respond_active (r : Rsp) (s : State) : (respond r s).active = s.active := rfl
@[simp] theorem respond_fault (r : Rsp) (s : State) : (respond r s).fault = s.fault := rfl
@[simp] theorem respond_grid (r : Rsp) (s : State) : (respond r s).grid = s.grid := rfl
@[simp] theorem respond_propagateClose (r : Rsp) (s : State) : (respond r s).propagateClose = s.propagateClose := rfl
@[simp] theorem respond_inputs (r : Rsp) (s : State) : (respond r s).inputs = s.inputs := rfl
@[simp] theorem respond_rsps (r : Rsp) (s : State) : (respond r s).rsps = s.rsps ++ [r] := rfl

@[simp] theorem raise_br (c : FaultCode) (s : State) : (raise c s).br = s.br := rfl
@[simp] theorem raise_src (c : FaultCode) (s : State) : (raise c s).src = s.src := rfl
@[simp] theorem raise_cursor (c : FaultCode) (s : State) : (raise c s).cursor = s.cursor := rfl
@[simp] theorem raise_dx (c : FaultCode) (s : State) : (raise c s).dx = s.dx := rfl
@[simp] theorem raise_dy (c : FaultCode) (s : State) : (raise c s).dy = s.dy := rfl
@[simp] theorem raise_layer (c : FaultCode) (s : State) : (raise c s).layer = s.layer := rfl
@[simp] theorem raise_active (c : FaultCode) (s : State) : (raise c s).active = s.active := rfl
@[simp] theorem raise_grid (c : FaultCode) (s : State) : (raise c s).grid = s.grid := rfl
@[simp] theorem raise_propagateClose (c : FaultCode) (s : State) : (raise c s).propagateClose = s.propagateClose := rfl
@[simp] theorem raise_inputs (c : FaultCode) (s : State) : (raise c s).inputs = s.inputs := rfl
@[simp] theorem raise_rsps (c : FaultCode) (s : State) : (raise c s).rsps = s.rsps := rfl

@[simp] theorem placeAndMark_br (c : Cursor) (s : State) : (placeAndMark c s).br = s.br := rfl
@[simp] theorem placeAndMark_src (c : Cursor) (s : State) : (placeAndMark c s).src = s.src := rfl
@[simp] theorem placeAndMark_cursor (c : Cursor) (s : State) : (placeAndMark c s).cursor = some c := rfl
@[simp] theorem placeAndMark_dx (c : Cursor) (s : State) : (placeAndMark c s).dx = s.dx := rfl
@[simp] theorem placeAndMark_dy (c : Cursor) (s : State) : (placeAndMark c s).dy = s.dy := rfl
@[simp] theorem placeAndMark_layer (c : Cursor) (s : State) : (placeAndMark c s).layer = s.layer := rfl
@[simp] theorem placeAndMark_active (c : Cursor) (s : State) : (placeAndMark c s).active = s.active := rfl
@[simp] theorem placeAndMark_fault (c : Cursor) (s : State) : (placeAndMark c s).fault = s.fault := rfl
@[simp] theorem placeAndMark_grid (c : Cursor) (s : State) : (placeAndMark c s).grid = s.grid.setCell (cellAddr s.layer (cellIndex c)) := rfl
@[simp] theorem placeAndMark_propagateClose (c : Cursor) (s : State) : (placeAndMark c s).propagateClose = s.propagateClose := rfl
@[simp] theorem placeAndMark_inputs (c : Cursor) (s : State) : (placeAndMark c s).inputs = s.inputs := rfl
@[simp] theorem placeAndMark_rsps (c : Cursor) (s : State) : (placeAndMark c s).rsps = s.rsps := rfl

@[simp] theorem setDx_br (d : Dir) (s : State) : (setDx d s).br = s.br := rfl
@[simp] theorem setDx_src (d : Dir) (s : State) : (setDx d s).src = s.src := rfl
@[simp] theorem setDx_cursor (d : Dir) (s : State) : (setDx d s).cursor = s.cursor := rfl
@[simp] theorem setDx_dx (d : Dir) (s : State) : (setDx d s).dx = d := rfl
@[simp] theorem setDx_dy (d : Dir) (s : State) : (setDx d s).dy = s.dy := rfl
@[simp] theorem setDx_layer (d : Dir) (s : State) : (setDx d s).layer = s.layer := rfl
@[simp] theorem setDx_active (d : Dir) (s : State) : (setDx d s).active = s.active := rfl
@[simp] theorem setDx_fault (d : Dir) (s : State) : (setDx d s).fault = s.fault := rfl
@[simp] theorem setDx_grid (d : Dir) (s : State) : (setDx d s).grid = s.grid := rfl
@[simp] theorem setDx_propagateClose (d : Dir) (s : State) : (setDx d s).propagateClose = s.propagateClose := rfl
@[simp] theorem setDx_inputs (d : Dir) (s : State) : (setDx d s).inputs = s.inputs := rfl
@[simp] theorem setDx_rsps (d : Dir) (s : State) : (setDx d s).rsps = s.rsps := rfl

@[simp] theorem setDy_br (d : Dir) (s : State) : (setDy d s).br = s.br := rfl
@[simp] theorem setDy_src (d : Dir) (s : State) : (setDy d s).src = s.src := rfl
@[simp] theorem setDy_cursor (d : Dir) (s : State) : (setDy d s).cursor = s.cursor := rfl
@[simp] theorem setDy_dx (d : Dir) (s : State) : (setDy d s).dx = s.dx := rfl
@[simp] theorem setDy_dy (d : Dir) (s : State) : (setDy d s).dy = d := rfl
@[simp] theorem setDy_layer (d : Dir) (s : State) : (setDy d s).layer = s.layer := rfl
@[simp] theorem setDy_active (d : Dir) (s : State) : (setDy d s).active = s.active := rfl
@[simp] theorem setDy_fault (d : Dir) (s : State) : (setDy d s).fault = s.fault := rfl
@[simp] theorem setDy_grid (d : Dir) (s : State) : (setDy d s).grid = s.grid := rfl
@[simp] theorem setDy_propagateClose (d : Dir) (s : State) : (setDy d s).propagateClose = s.propagateClose := rfl
@[simp] theorem setDy_inputs (d : Dir) (s : State) : (setDy d s).inputs = s.inputs := rfl
@[simp] theorem setDy_rsps (d : Dir) (s : State) : (setDy d s).rsps = s.rsps := rfl

@[simp] theorem endLayer_br (s : State) : (endLayer s).br = s.br := rfl
@[simp] theorem endLayer_src (s : State) : (endLayer s).src = s.src := rfl
@[simp] theorem endLayer_cursor (s : State) : (endLayer s).cursor = s.cursor := rfl
@[simp] theorem endLayer_dx (s : State) : (endLayer s).dx = s.dx := rfl
@[simp] theorem endLayer_dy (s : State) : (endLayer s).dy = s.dy := rfl
@[simp] theorem endLayer_layer (s : State) : (endLayer s).layer = s.layer := rfl
@[simp] theorem endLayer_active (s : State) : (endLayer s).active = false := rfl
@[simp] theorem endLayer_fault (s : State) : (endLayer s).fault = s.fault := rfl
@[simp] theorem endLayer_grid (s : State) : (endLayer s).grid = s.grid := rfl
@[simp] theorem endLayer_propagateClose (s : State) : (endLayer s).propagateClose = s.propagateClose := rfl
@[simp] theorem endLayer_inputs (s : State) : (endLayer s).inputs = s.inputs := rfl
@[simp] theorem endLayer_rsps (s : State) : (endLayer s).rsps = s.rsps := rfl

@[simp] theorem markClosed_br (s : State) : (markClosed s).br = { s.br with closed := true } := rfl
@[simp] theorem markClosed_src (s : State) : (markClosed s).src = s.src := rfl
@[simp] theorem markClosed_cursor (s : State) : (markClosed s).cursor = s.cursor := rfl
@[simp] theorem markClosed_dx (s : State) : (markClosed s).dx = s.dx := rfl
@[simp] theorem markClosed_dy (s : State) : (markClosed s).dy = s.dy := rfl
@[simp] theorem markClosed_layer (s : State) : (markClosed s).layer = s.layer := rfl
@[simp] theorem markClosed_active (s : State) : (markClosed s).active = s.active := rfl
@[simp] theorem markClosed_fault (s : State) : (markClosed s).fault = s.fault := rfl
@[simp] theorem markClosed_grid (s : State) : (markClosed s).grid = s.grid := rfl
@[simp] theorem markClosed_propagateClose (s : State) : (markClosed s).propagateClose = s.propagateClose := rfl
@[simp] theorem markClosed_inputs (s : State) : (markClosed s).inputs = s.inputs := rfl
@[simp] theorem markClosed_rsps (s : State) : (markClosed s).rsps = s.rsps := rfl

@[simp] theorem placeCommand_br (w : CmdWord) (s : State) : (placeCommand w s).br = s.br := rfl
@[simp] theorem placeCommand_src (w : CmdWord) (s : State) : (placeCommand w s).src = s.src := rfl
@[simp] theorem placeCommand_cursor (w : CmdWord) (s : State) : (placeCommand w s).cursor = s.cursor := rfl
@[simp] theorem placeCommand_dx (w : CmdWord) (s : State) : (placeCommand w s).dx = s.dx := rfl
@[simp] theorem placeCommand_dy (w : CmdWord) (s : State) : (placeCommand w s).dy = s.dy := rfl
@[simp] theorem placeCommand_layer (w : CmdWord) (s : State) : (placeCommand w s).layer = s.layer := rfl
@[simp] theorem placeCommand_active (w : CmdWord) (s : State) : (placeCommand w s).active = s.active := rfl
@[simp] theorem placeCommand_fault (w : CmdWord) (s : State) : (placeCommand w s).fault = s.fault := rfl
@[simp] theorem placeCommand_grid (w : CmdWord) (s : State) : (placeCommand w s).grid = s.grid := rfl
@[simp] theorem placeCommand_propagateClose (w : CmdWord) (s : State) : (placeCommand w s).propagateClose = s.propagateClose := rfl
@[simp] theorem placeCommand_inputs (w : CmdWord) (s : State) : (placeCommand w s).inputs = .cmd w :: s.inputs := rfl
@[simp] theorem placeCommand_rsps (w : CmdWord) (s : State) : (placeCommand w s).rsps = s.rsps := rfl

@[simp] theorem resetWith_br (p : Bool) (data : List Byte) (f : Option Nat) (s : State) : (resetWith p data f s).br = { buf := 0, fill := 0, closed := false } := rfl
@[simp] theorem resetWith_src (p : Bool) (data : List Byte) (f : Option Nat) (s : State) : (resetWith p data f s).src = Source.bind data f := rfl
@[simp] theorem resetWith_cursor (p : Bool) (data : List Byte) (f : Option Nat) (s : State) : (resetWith p data f s).cursor = none := rfl
@[simp] theorem resetWith_dx (p : Bool) (data : List Byte) (f : Option Nat) (s : State) : (resetWith p data f s).dx = .pos := rfl
@[simp] theorem resetWith_dy (p : Bool) (data : List Byte) (f : Option Nat) (s : State) : (resetWith p data f s).dy = .pos := rfl
@[simp] theorem resetWith_layer (p : Bool) (data : List Byte) (f : Option Nat) (s : State) : (resetWith p data f s).layer = 0 := rfl
@[simp] theorem resetWith_active (p : Bool) (data : List Byte) (f : Option Nat) (s : State) : (resetWith p data f s).active = false := rfl
@[simp] theorem resetWith_fault (p : Bool) (data : List Byte) (f : Option Nat) (s : State) : (resetWith p data f s).fault = none := rfl
@[simp] theorem resetWith_grid (p : Bool) (data : List Byte) (f : Option Nat) (s : State) : (resetWith p data f s).grid = s.grid := rfl
@[simp] theorem resetWith_propagateClose (p : Bool) (data : List Byte) (f : Option Nat) (s : State) : (resetWith p data f s).propagateClose = p := rfl
@[simp] theorem resetWith_inputs (p : Bool) (data : List Byte) (f : Option Nat) (s : State) : (resetWith p data f s).inputs = s.inputs := rfl
@[simp] theorem resetWith_rsps (p : Bool) (data : List Byte) (f : Option Nat) (s : State) : (resetWith p data f s).rsps = s.rsps := rfl

/-- `raise` records the code where no fault has been recorded. -/
theorem raise_fault_of_none (c : FaultCode) (s : State) (h : s.fault = none) :
    (raise c s).fault = some c := by simp [raise, h]

/-- `raise` keeps the first fault. -/
theorem raise_fault_of_some (c first : FaultCode) (s : State) (h : s.fault = some first) :
    (raise c s).fault = some first := by simp [raise, h]

/-- `raise` leaves a fault recorded. -/
theorem raise_fault_ne_none (c : FaultCode) (s : State) : (raise c s).fault ≠ none := by
  cases h : s.fault <;> simp [raise, h]

/-- `raise` where no fault has been recorded, as a state. -/
theorem raise_of_none (c : FaultCode) (s : State) (h : s.fault = none) :
    raise c s = { s with fault := some c } := by simp [raise, h]

end Sys2Proof.Machine
end

