-- ==== Sys2Proof/Laws/Reader.lean ====
section
/-! SUPPORT. The laws of the source and of `ReadBits`: everything a read can do, what it leaves
unchanged, that it keeps the invariant, and what it answers in terms of the bits ahead. -/

namespace Sys2Proof.Machine

/-- A state with another buffer and another position of the source: all that a read which raises no
fault can change (spec/40_bitreader.md R80). -/
def State.withReader (s : State) (br : BitReader) (pos : Nat) : State :=
  { s with br := br, src := { s.src with pos := pos } }

@[simp] theorem withReader_br (s : State) (br : BitReader) (pos : Nat) : (s.withReader br pos).br = br := rfl
@[simp] theorem withReader_data (s : State) (br : BitReader) (pos : Nat) :
    (s.withReader br pos).src.data = s.src.data := rfl
@[simp] theorem withReader_failAt (s : State) (br : BitReader) (pos : Nat) :
    (s.withReader br pos).src.failAt = s.src.failAt := rfl
@[simp] theorem withReader_pos (s : State) (br : BitReader) (pos : Nat) :
    (s.withReader br pos).src.pos = pos := rfl
@[simp] theorem withReader_srcClosed (s : State) (br : BitReader) (pos : Nat) :
    (s.withReader br pos).src.closed = s.src.closed := rfl
@[simp] theorem withReader_cursor (s : State) (br : BitReader) (pos : Nat) :
    (s.withReader br pos).cursor = s.cursor := rfl
@[simp] theorem withReader_dx (s : State) (br : BitReader) (pos : Nat) : (s.withReader br pos).dx = s.dx := rfl
@[simp] theorem withReader_dy (s : State) (br : BitReader) (pos : Nat) : (s.withReader br pos).dy = s.dy := rfl
@[simp] theorem withReader_layer (s : State) (br : BitReader) (pos : Nat) :
    (s.withReader br pos).layer = s.layer := rfl
@[simp] theorem withReader_active (s : State) (br : BitReader) (pos : Nat) :
    (s.withReader br pos).active = s.active := rfl
@[simp] theorem withReader_fault (s : State) (br : BitReader) (pos : Nat) :
    (s.withReader br pos).fault = s.fault := rfl
@[simp] theorem withReader_grid (s : State) (br : BitReader) (pos : Nat) :
    (s.withReader br pos).grid = s.grid := rfl
@[simp] theorem withReader_propagateClose (s : State) (br : BitReader) (pos : Nat) :
    (s.withReader br pos).propagateClose = s.propagateClose := rfl
@[simp] theorem withReader_inputs (s : State) (br : BitReader) (pos : Nat) :
    (s.withReader br pos).inputs = s.inputs := rfl
@[simp] theorem withReader_rsps (s : State) (br : BitReader) (pos : Nat) :
    (s.withReader br pos).rsps = s.rsps := rfl
@[simp] theorem withReader_self (s : State) : s.withReader s.br s.src.pos = s := rfl
@[simp] theorem withReader_withReader (s : State) (br br' : BitReader) (pos pos' : Nat) :
    (s.withReader br pos).withReader br' pos' = s.withReader br' pos' := rfl

/-! ### The source -/

/-- A pull fails at the failure point. -/
theorem pull_fail (src : Source) (h : src.failAt = some src.pos) :
    src.pull = (.error (.fault .ioFailure), src) := by simp [Source.pull, h]

/-- A pull answers `Eos` where the data have ended. -/
theorem pull_eos (src : Source) (h : src.failAt ≠ some src.pos) (hd : src.data[src.pos]? = none) :
    src.pull = (.error .eos, src) := by simp [Source.pull, h, hd]

/-- A pull delivers the next byte. -/
theorem pull_byte (src : Source) (b : Byte) (h : src.failAt ≠ some src.pos)
    (hd : src.data[src.pos]? = some b) :
    src.pull = (.ok b, { src with pos := src.pos + 1 }) := by simp [Source.pull, h, hd]

/-- The bytes ahead begin with the byte at the source's position. -/
theorem ahead_byte (src : Source) (b : Byte) (h : src.failAt ≠ some src.pos)
    (hd : src.data[src.pos]? = some b) :
    src.ahead = b :: { src with pos := src.pos + 1 : Source }.ahead := by
  obtain ⟨hlt, hb⟩ := List.getElem?_eq_some_iff.1 hd
  rcases src with ⟨data, failAt, pos, closed⟩
  rcases failAt with _ | p
  · simp only [Source.ahead]
    rw [List.drop_eq_getElem_cons hlt, hb]
  · have hne : p ≠ pos := fun e => h (by rw [e])
    simp only [Source.ahead]
    by_cases hp : pos ≤ p
    · rw [if_pos hp, if_pos (show pos + 1 ≤ p by omega),
        List.drop_eq_getElem_cons (by simp only [List.length_take]; simp only at hlt; omega)]
      simp only [List.getElem_take]
      rw [hb]
    · rw [if_neg hp, if_neg (show ¬ pos + 1 ≤ p by omega), List.drop_eq_getElem_cons hlt, hb]

/-- Delivering a byte does not change whether a pull will fail when the bytes ahead are used up. -/
theorem failsAhead_byte (src : Source) (h : src.failAt ≠ some src.pos) :
    { src with pos := src.pos + 1 : Source }.failsAhead = src.failsAhead := by
  rcases src with ⟨data, failAt, pos, closed⟩
  rcases failAt with _ | p
  · rfl
  · have hne : p ≠ pos := fun e => h (by rw [e])
    simp only [Source.failsAhead, decide_eq_decide]
    omega

/-- At the failure point no byte is ahead, and a pull will fail. -/
theorem ahead_fail (src : Source) (hp : src.pos ≤ src.data.length) (h : src.failAt = some src.pos) :
    src.ahead = [] ∧ src.failsAhead = true := by
  simp [Source.ahead, Source.failsAhead, h, hp]

/-- At the end of the data no byte is ahead, and no pull will fail. -/
theorem ahead_eos (src : Source) (hp : src.pos ≤ src.data.length) (h : src.failAt ≠ some src.pos)
    (hd : src.data[src.pos]? = none) : src.ahead = [] ∧ src.failsAhead = false := by
  have hlen : src.data.length ≤ src.pos := List.getElem?_eq_none_iff.1 hd
  rcases src with ⟨data, failAt, pos, closed⟩
  rcases failAt with _ | p
  · simp only at hlen
    simp [Source.ahead, Source.failsAhead, hlen]
  · have hne : p ≠ pos := fun e => h (by rw [e])
    simp only at hlen hp
    refine ⟨?_, ?_⟩
    · simp only [Source.ahead]
      split <;> simp [hlen]
    · simp only [Source.failsAhead, decide_eq_false_iff_not]
      omega

/-! ### Everything a read can do -/

/-- The inversion of `ReadBits` (R80). -/
theorem readBits_cases (n : Nat) (s : State) :
    (s.br.closed = true ∧
      readBits n s = (.error (.fault .useAfterClose), raise .useAfterClose s)) ∨
    (s.br.closed = false ∧ ¬ (1 ≤ n ∧ n ≤ 8) ∧
      readBits n s = (.error (.fault .badLength), raise .badLength s)) ∨
    (s.br.closed = false ∧ 1 ≤ n ∧ n ≤ 8 ∧ s.br.fill.toNat < n ∧ s.src.failAt = some s.src.pos ∧
      readBits n s = (.error (.fault .ioFailure), raise .ioFailure s)) ∨
    (s.br.closed = false ∧ 1 ≤ n ∧ n ≤ 8 ∧ s.br.fill.toNat < n ∧ s.src.failAt ≠ some s.src.pos ∧
      s.src.data[s.src.pos]? = none ∧ readBits n s = (.error .eos, s)) ∨
    (∃ b, s.br.closed = false ∧ 1 ≤ n ∧ n ≤ 8 ∧ s.br.fill.toNat < n ∧
      s.src.failAt ≠ some s.src.pos ∧ s.src.data[s.src.pos]? = some b ∧
      readBits n s = (.ok ((s.br.push b).low n),
        s.withReader ((s.br.push b).drop n) (s.src.pos + 1))) ∨
    (s.br.closed = false ∧ 1 ≤ n ∧ n ≤ 8 ∧ n ≤ s.br.fill.toNat ∧
      readBits n s = (.ok (s.br.low n), s.withReader (s.br.drop n) s.src.pos)) := by
  cases hc : s.br.closed with
  | true => exact .inl ⟨rfl, by simp [readBits, hc]⟩
  | false =>
    by_cases hn : 1 ≤ n ∧ n ≤ 8
    · have hn' : ¬ (n < 1 ∨ Config.nmax < n) := by simp only [Config.nmax]; omega
      by_cases hf : s.br.fill.toNat < n
      · have hr : readBits n s = pullAndTake n s := by
          simp only [readBits, hc, hn', hf, Bool.false_eq_true, if_false, if_true]
        by_cases hfail : s.src.failAt = some s.src.pos
        · refine .inr (.inr (.inl ⟨rfl, hn.1, hn.2, hf, hfail, ?_⟩))
          rw [hr, pullAndTake, pull_fail _ hfail]
        · cases hd : s.src.data[s.src.pos]? with
          | none =>
            refine .inr (.inr (.inr (.inl ⟨rfl, hn.1, hn.2, hf, hfail, rfl, ?_⟩)))
            rw [hr, pullAndTake, pull_eos _ hfail hd]
          | some b =>
            refine .inr (.inr (.inr (.inr (.inl ⟨b, rfl, hn.1, hn.2, hf, hfail, rfl, ?_⟩))))
            rw [hr, pullAndTake, pull_byte _ b hfail hd]
            rfl
      · refine .inr (.inr (.inr (.inr (.inr ⟨rfl, hn.1, hn.2, by omega, ?_⟩))))
        simp only [readBits, hc, hn', hf, Bool.false_eq_true, if_false]
        rfl
    · refine .inr (.inl ⟨rfl, hn, ?_⟩)
      have hn' : n < 1 ∨ Config.nmax < n := by simp only [Config.nmax]; omega
      simp only [readBits, hc, hn', Bool.false_eq_true, if_false, if_true]

/-- What a read leaves unchanged: all but the buffer, the source's position and `fault` (R80). -/
theorem readBits_frame (n : Nat) (s : State) :
    ∃ br pos f, (readBits n s).2 = { s.withReader br pos with fault := f } ∧
      br.closed = s.br.closed := by
  rcases readBits_cases n s with ⟨-, h⟩ | ⟨-, -, h⟩ | ⟨-, -, -, -, -, h⟩ | ⟨-, -, -, -, -, -, h⟩ |
    ⟨b, -, -, -, -, -, -, h⟩ | ⟨-, -, -, -, h⟩ <;> rw [h]
  · exact ⟨s.br, s.src.pos, _, rfl, rfl⟩
  · exact ⟨s.br, s.src.pos, _, rfl, rfl⟩
  · exact ⟨s.br, s.src.pos, _, rfl, rfl⟩
  · exact ⟨s.br, s.src.pos, s.fault, rfl, rfl⟩
  · exact ⟨_, _, s.fault, rfl, by simp⟩
  · exact ⟨_, _, s.fault, rfl, by simp⟩

/-- A read that answers a value leaves all but the buffer and the source's position unchanged, and
belongs to an open reader. -/
theorem readBits_ok_frame {n : Nat} {s s' : State} {v : Byte} (h : readBits n s = (.ok v, s')) :
    s.br.closed = false ∧ ∃ br pos, s' = s.withReader br pos ∧ br.closed = false := by
  rcases readBits_cases n s with ⟨-, e⟩ | ⟨-, -, e⟩ | ⟨-, -, -, -, -, e⟩ | ⟨-, -, -, -, -, -, e⟩ |
    ⟨b, hc, -, -, -, -, -, e⟩ | ⟨hc, -, -, -, e⟩ <;> rw [e] at h <;> simp only [Prod.mk.injEq,
      reduceCtorEq, false_and] at h
  · exact ⟨hc, _, _, h.2.symm, by simp [hc]⟩
  · exact ⟨hc, _, _, h.2.symm, by simp [hc]⟩

/-- `Eos` leaves the state as it is (R80, D5). -/
theorem readBits_eos_state {n : Nat} {s s' : State} (h : readBits n s = (.error .eos, s')) : s' = s := by
  rcases readBits_cases n s with ⟨-, e⟩ | ⟨-, -, e⟩ | ⟨-, -, -, -, -, e⟩ | ⟨-, -, -, -, -, -, e⟩ |
    ⟨b, hc, -, -, -, -, -, e⟩ | ⟨hc, -, -, -, e⟩ <;> rw [e] at h <;> simp only [Prod.mk.injEq,
      reduceCtorEq, false_and, Except.error.injEq] at h
  exact h.2.symm

/-- A fault that a read answers has been raised, and nothing else has changed (R80, R142). -/
theorem readBits_fault_state {n : Nat} {s s' : State} {c : FaultCode}
    (h : readBits n s = (.error (.fault c), s')) : s' = raise c s := by
  rcases readBits_cases n s with ⟨-, e⟩ | ⟨-, -, e⟩ | ⟨-, -, -, -, -, e⟩ | ⟨-, -, -, -, -, -, e⟩ |
    ⟨b, hc, -, -, -, -, -, e⟩ | ⟨hc, -, -, -, e⟩ <;> rw [e] at h <;> simp only [Prod.mk.injEq,
      reduceCtorEq, false_and, Except.error.injEq, ReadStop.fault.injEq] at h
  all_goals obtain ⟨rfl, rfl⟩ := h; rfl

/-! ### The invariant -/

/-- The invariant looks at the reader, the source, GRID, `layer` and `active` only. -/
theorem State.Inv.congr {s t : State} (h : s.Inv) (hbr : t.br = s.br) (hsrc : t.src = s.src)
    (hgrid : t.grid = s.grid) (hlayer : t.layer = s.layer) (hactive : t.active = s.active) : t.Inv := by
  obtain ⟨h1, h2, h3, h4, h5, h6, h7, h8⟩ := h
  have hp : t.bitpos = s.bitpos := by simp [State.bitpos, hbr, hsrc]
  constructor <;> simp only [hbr, hsrc, hgrid, hlayer, hactive, hp] <;> assumption

theorem raise_inv {s : State} (h : s.Inv) (c : FaultCode) : (raise c s).Inv :=
  h.congr rfl rfl rfl rfl rfl

/-- Bits that are shifted out keep the buffer's part of the invariant (R14). -/
theorem drop_inv {s : State} {br : BitReader} {pos n : Nat}
    (hfill : br.fill.toNat ≤ 7 + n) (hlt : br.buf.toNat < 2 ^ br.fill.toNat)
    (hpos : br.fill.toNat ≤ 8 * pos) (hle : pos ≤ s.src.data.length)
    (hholds : ∀ i, i < br.fill.toNat →
      br.buf.getLsbD i = decide (sbit s.src.data (8 * pos - br.fill.toNat + i) = 1))
    (hn : n ≤ br.fill.toNat) (hclosed : s.src.closed = true → br.closed = true) (h : s.Inv) :
    (s.withReader (br.drop n) pos).Inv := by
  have hf := BitReader.drop_fill n br hn
  refine ⟨?_, BitReader.drop_buf_lt n br hn hlt, ?_, hle, fun i hi => ?_, h.grid_wf,
    h.active_cleared, hclosed⟩
  · rw [withReader_br, hf]; omega
  · rw [withReader_br, hf, withReader_pos]; omega
  · rw [withReader_br, hf] at hi
    have hb : ((s.withReader (br.drop n) pos).br).buf.getLsbD i = br.buf.getLsbD (n + i) := by
      simp [BitReader.drop, BitVec.getLsbD_ushiftRight]
    rw [hb, hholds (n + i) (by omega), State.bitpos, withReader_br, hf, withReader_data, withReader_pos]
    congr 3
    omega

/-- A pushed byte holds the stream's bits from the source's position on. -/
theorem push_holds {s : State} (h : s.Inv) {b : Byte} (hd : s.src.data[s.src.pos]? = some b) (i : Nat)
    (hi : i < (s.br.push b).fill.toNat) :
    (s.br.push b).buf.getLsbD i =
      decide (sbit s.src.data (8 * (s.src.pos + 1) - (s.br.push b).fill.toNat + i) = 1) := by
  have hf := BitReader.push_fill b s.br h.fill_le
  have hp := h.fill_le_pos
  have hbits := BitReader.push_bits b s.br h.fill_le h.buf_lt
  have hget : (s.br.push b).bits[i]? = some ((s.br.push b).buf.getLsbD i) := by
    rw [BitReader.bits, bitsOf_getElem?, if_pos hi]
  have hpos8 : 8 * (s.src.pos + 1) - (s.br.push b).fill.toNat + i = s.bitpos + i := by
    simp only [State.bitpos]; omega
  rw [hpos8]
  rw [hbits, List.getElem?_append, BitReader.bits_length, BitReader.bits, bitsOf_getElem?,
    bitsOf_getElem?] at hget
  by_cases h1 : i < s.br.fill.toNat
  · simp only [h1, if_true, Option.some.injEq] at hget
    rw [← hget, h.buf_holds i h1]
  · have h2 : i - s.br.fill.toNat < 8 := by omega
    simp only [h1, if_false, h2, if_true, Option.some.injEq] at hget
    have hk : s.bitpos + i = 8 * s.src.pos + (i - s.br.fill.toNat) := by
      simp only [State.bitpos]; omega
    obtain ⟨hlt, hb⟩ := List.getElem?_eq_some_iff.1 hd
    have hst := streamBits_getElem? s.src.data (s.bitpos + i)
    rw [if_pos (by omega), hk, ← List.getElem?_drop, ← streamBits_drop,
      List.drop_eq_getElem_cons hlt, hb, streamBits_cons, List.getElem?_append, bitsOf_length,
      if_pos h2, bitsOf_getElem?, if_pos h2] at hst
    rw [← hget, hk]
    exact Option.some.inj hst

/-- A read keeps the invariant (R14). -/
theorem readBits_inv {s : State} (h : s.Inv) (n : Nat) : (readBits n s).2.Inv := by
  rcases readBits_cases n s with ⟨-, e⟩ | ⟨-, -, e⟩ | ⟨-, -, -, -, -, e⟩ | ⟨-, -, -, -, -, -, e⟩ |
    ⟨b, hc, h1, h8, hf, -, hd, e⟩ | ⟨hc, h1, h8, hf, e⟩ <;> rw [e]
  · exact raise_inv h _
  · exact raise_inv h _
  · exact raise_inv h _
  · exact h
  · have hpf := BitReader.push_fill b s.br h.fill_le
    obtain ⟨hlt, -⟩ := List.getElem?_eq_some_iff.1 hd
    have := h.fill_le_pos
    exact drop_inv (by omega) (BitReader.push_buf_lt b s.br h.fill_le h.buf_lt) (by omega) (by omega)
      (push_holds h hd) (by omega) (by simpa using h.src_closed) h
  · have := h.fill_le
    exact drop_inv (by omega) h.buf_lt h.fill_le_pos h.pos_le h.buf_holds hf h.src_closed h

/-! ### What a read answers -/

/-- The stream law in terms of the bits ahead: a read answers the next `n` of them and consumes
them, where they are there (R84). -/
theorem readBits_of_le {s : State} (h : s.Inv) (hc : s.br.closed = false) {n : Nat} (h1 : 1 ≤ n)
    (h8 : n ≤ 8) (hlen : n ≤ s.ahead.length) :
    ∃ br pos, readBits n s =
        (.ok (BitVec.ofNat 8 (fieldValue (s.ahead.take n))), s.withReader br pos) ∧
      br.closed = false ∧ (s.withReader br pos).ahead = s.ahead.drop n ∧
      (s.withReader br pos).src.failsAhead = s.src.failsAhead ∧
      (s.withReader br pos).bitpos = s.bitpos + n ∧
      pos = s.src.pos + (if s.br.fill.toNat < n then 1 else 0) := by
  have hfl := h.fill_le
  have hfp := h.fill_le_pos
  rcases readBits_cases n s with ⟨hc', -⟩ | ⟨-, hn, -⟩ | ⟨-, -, -, hf, hfail, -⟩ |
    ⟨-, -, -, hf, hfail, hd, -⟩ | ⟨b, -, -, -, hf, hfail, hd, e⟩ | ⟨-, -, -, hf, e⟩
  · simp [hc] at hc'
  · exact absurd ⟨h1, h8⟩ hn
  · have := (ahead_fail s.src h.pos_le hfail).1
    simp only [State.ahead, this, streamBits_nil, List.append_nil, BitReader.bits_length] at hlen
    omega
  · have := (ahead_eos s.src h.pos_le hfail hd).1
    simp only [State.ahead, this, streamBits_nil, List.append_nil, BitReader.bits_length] at hlen
    omega
  · have hpf := BitReader.push_fill b s.br h.fill_le
    have hn : n ≤ (s.br.push b).fill.toNat := by omega
    have hah : s.ahead = (s.br.push b).bits ++
        streamBits { s.src with pos := s.src.pos + 1 : Source }.ahead := by
      rw [State.ahead, ahead_byte s.src b hfail hd, BitReader.push_bits b s.br h.fill_le h.buf_lt,
        streamBits_cons, List.append_assoc]
    refine ⟨(s.br.push b).drop n, s.src.pos + 1, ?_, by simp [hc], ?_,
      failsAhead_byte s.src hfail, ?_, by simp [hf]⟩
    · rw [e, BitReader.low_eq n _ hn, hah, List.take_append_of_le_length (by simpa using hn)]
    · rw [State.ahead, withReader_br, BitReader.drop_bits n _ hn, hah,
        List.drop_append_of_le_length (by simpa using hn)]
      rfl
    · simp only [State.bitpos, withReader_br, withReader_pos, BitReader.drop_fill n _ hn, hpf]
      omega
  · refine ⟨s.br.drop n, s.src.pos, ?_, by simp [hc], ?_, rfl, ?_,
      by simp [show ¬ s.br.fill.toNat < n by omega]⟩
    · rw [e, BitReader.low_eq n _ hf, State.ahead, List.take_append_of_le_length (by simpa using hf)]
    · rw [State.ahead, withReader_br, BitReader.drop_bits n _ hf, State.ahead,
        List.drop_append_of_le_length (by simpa using hf)]
      rfl
    · simp only [State.bitpos, withReader_br, withReader_pos, BitReader.drop_fill n _ hf]
      omega

/-- A read that the bits ahead do not meet answers `Eos`, or raises `IO_FAILURE` where the source
fails; nothing is consumed (R80, R84). -/
theorem readBits_of_lt {s : State} (h : s.Inv) (hc : s.br.closed = false) {n : Nat} (h1 : 1 ≤ n)
    (h8 : n ≤ 8) (hlen : s.ahead.length < n) :
    readBits n s = if s.src.failsAhead then (.error (.fault .ioFailure), raise .ioFailure s)
      else (.error .eos, s) := by
  have hfl := h.fill_le
  rcases readBits_cases n s with ⟨hc', -⟩ | ⟨-, hn, -⟩ | ⟨-, -, -, hf, hfail, e⟩ |
    ⟨-, -, -, hf, hfail, hd, e⟩ | ⟨b, -, -, -, hf, hfail, hd, e⟩ | ⟨-, -, -, hf, e⟩
  · simp [hc] at hc'
  · exact absurd ⟨h1, h8⟩ hn
  · rw [e, (ahead_fail s.src h.pos_le hfail).2, if_pos rfl]
  · rw [e, (ahead_eos s.src h.pos_le hfail hd).2, if_neg (by simp)]
  · rw [State.ahead, ahead_byte s.src b hfail hd] at hlen
    simp only [streamBits_cons, List.length_append, bitsOf_length, BitReader.bits_length] at hlen
    omega
  · simp only [State.ahead, List.length_append, BitReader.bits_length] at hlen
    omega

/-- The bits ahead of a state whose source does not fail are the stream's bits from `bitpos` on. -/
theorem ahead_eq_stream {s : State} (h : s.Inv) (hf : s.src.failsAhead = false) :
    s.ahead = (streamBits s.src.data).drop s.bitpos := by
  have hfp := h.fill_le_pos
  have hple := h.pos_le
  have hsrc : s.src.ahead = s.src.data.drop s.src.pos := by
    rw [Source.ahead]
    cases hfa : s.src.failAt with
    | none => rfl
    | some p =>
      simp only [Source.failsAhead, hfa, decide_eq_false_iff_not] at hf
      simp only
      split
      · rw [List.take_of_length_le (by omega)]
      · rfl
  rw [State.ahead, hsrc, streamBits_drop]
  refine List.ext_getElem? fun i => ?_
  rw [List.getElem?_append, BitReader.bits_length, BitReader.bits, bitsOf_getElem?,
    List.getElem?_drop, List.getElem?_drop, streamBits_getElem?, streamBits_getElem?]
  by_cases hi : i < s.br.fill.toNat
  · have hlt : s.bitpos + i < 8 * s.src.data.length := by simp only [State.bitpos]; omega
    simp only [hi, if_true, h.buf_holds i hi, hlt]
  · have : 8 * s.src.pos + (i - s.br.fill.toNat) = s.bitpos + i := by simp only [State.bitpos]; omega
    simp only [hi, if_false, this]

end Sys2Proof.Machine
end

