-- ==== Sys2Proof/Laws/Fetch.lean ====
section
/-! SUPPORT. The laws of fetching a chain instruction through `ReadBits`: what a fetch leaves
unchanged in every state, and what it answers in terms of the bits ahead. -/

namespace Sys2Proof.Machine

/-- A read that answers a value takes its bits from those unread. -/
theorem readBits_unread {n : Nat} {s s' : State} {v : Byte} (h : readBits n s = (.ok v, s')) :
    s'.unread + n = s.unread ∧ 1 ≤ n := by
  have hfl := s.br.fill.isLt
  rcases readBits_cases n s with ⟨-, e⟩ | ⟨-, -, e⟩ | ⟨-, -, -, -, -, e⟩ | ⟨-, -, -, -, -, -, e⟩ |
    ⟨b, -, h1, h8, hf, -, hd, e⟩ | ⟨-, h1, h8, hf, e⟩ <;> rw [e] at h <;>
    simp only [Prod.mk.injEq, reduceCtorEq, false_and] at h
  · obtain ⟨hlt, -⟩ := List.getElem?_eq_some_iff.1 hd
    have hpf := BitReader.push_fill b s.br (by omega)
    rw [← h.2]
    simp only [State.unread, withReader_br, withReader_data, withReader_pos,
      BitReader.drop_fill n _ (show n ≤ (s.br.push b).fill.toNat by omega), hpf]
    omega
  · rw [← h.2]
    simp only [State.unread, withReader_br, withReader_data, withReader_pos,
      BitReader.drop_fill n _ hf]
    omega

/-- What a fetch does in every state: an instruction or `Eos` leaves all but the reader unchanged, an
instruction has consumed at least 2 bits, and a fault has been raised and nothing else besides. -/
theorem fetchChain_frame (s : State) :
    match fetchChain s with
    | (.ok _, t) => s.br.closed = false ∧ (∃ br pos, t = s.withReader br pos ∧ br.closed = false) ∧
        t.unread + 2 ≤ s.unread
    | (.error .eos, t) => ∃ br pos, t = s.withReader br pos ∧ br.closed = s.br.closed
    | (.error (.fault c), t) => ∃ br pos, t = raise c (s.withReader br pos) ∧ br.closed = s.br.closed := by
  have post := decodeWith_post (read := readBits) (a := s) (P0 := fun a => a = s)
    (P := fun a => s.br.closed = false ∧ (∃ br pos, a = s.withReader br pos ∧ br.closed = false) ∧
      a.unread + 2 ≤ s.unread)
    (Q := fun e a => ∃ br pos, br.closed = s.br.closed ∧ (match e with
      | .eos => a = s.withReader br pos
      | .fault c => a = raise c (s.withReader br pos)))
    ?_ ?_ ?_ ?_ rfl
  · unfold fetchChain
    rcases h : decodeWith readBits s with ⟨(_ | c) | c, t⟩ <;> rw [h] at post
    · obtain ⟨br, pos, hc, ht⟩ := post
      exact ⟨br, pos, ht, hc⟩
    · obtain ⟨br, pos, hc, ht⟩ := post
      exact ⟨br, pos, ht, hc⟩
    · exact post
  · rintro a v a' rfl h
    obtain ⟨hc, hfr⟩ := readBits_ok_frame h
    exact ⟨hc, hfr, (readBits_unread h).1.le⟩
  · rintro a e a' rfl h
    refine ⟨a.br, a.src.pos, rfl, ?_⟩
    cases e with
    | eos => exact readBits_eos_state h
    | fault c => exact readBits_fault_state h
  · rintro n a v a' ⟨hc, ⟨br, pos, rfl, hbr⟩, hu⟩ h
    obtain ⟨-, br', pos', rfl, hbr'⟩ := readBits_ok_frame h
    have := (readBits_unread h).1
    exact ⟨hc, ⟨br', pos', rfl, hbr'⟩, by omega⟩
  · rintro n a e a' ⟨hc, ⟨br, pos, rfl, hbr⟩, hu⟩ h
    refine ⟨br, pos, by rw [hbr, hc], ?_⟩
    cases e with
    | eos => exact readBits_eos_state h
    | fault c => exact readBits_fault_state h

/-- A fetch keeps the invariant. -/
theorem fetchChain_inv {s : State} (h : s.Inv) : (fetchChain s).2.Inv := by
  have read : ∀ n (a : State) r a', a.Inv → readBits n a = (r, a') → a'.Inv := by
    intro n a r a' ha e
    have := readBits_inv ha n
    rwa [e] at this
  have post := decodeWith_post (read := readBits) (a := s) (P0 := State.Inv) (P := State.Inv)
    (Q := fun _ a => a.Inv) (fun a _ a' => read 2 a _ a') (fun a _ a' => read 2 a _ a')
    (fun n a _ a' => read n a _ a') (fun n a _ a' => read n a _ a') h
  unfold fetchChain
  rcases e : decodeWith readBits s with ⟨_ | _, t⟩ <;> rw [e] at post <;> exact post

/-- `t` is a state that reads which answered values lead to from `s`, in which the invariant holds. -/
structure ReadOn (s t : State) : Prop where
  frame : ∃ br pos, t = s.withReader br pos
  closed : t.br.closed = false
  inv : t.Inv
  fails : t.src.failsAhead = s.src.failsAhead
  total : t.bitpos + t.ahead.length = s.bitpos + s.ahead.length

theorem ReadOn.refl {s : State} (h : s.Inv) (hc : s.br.closed = false) : ReadOn s s :=
  ⟨⟨s.br, s.src.pos, rfl⟩, hc, h, rfl, rfl⟩

/-- How a fetch ends where the bits ahead do not make an instruction. -/
def fetchEnd (s : State) : ReadStop := if s.src.failsAhead then .fault .ioFailure else .eos

/-- The state in which such a fetch ends, from the state its last read that answered a value left. -/
def fetchEndState (t : State) : State := if t.src.failsAhead then raise .ioFailure t else t

/-- The fetch and the decoder agree: what the block fetches is the instruction that the bits ahead
decode to, and it consumes exactly that instruction's bits; where they end inside an instruction the
fetch ends in `Eos`, or in `IO_FAILURE` where the source fails. -/
theorem fetchChain_agree {s : State} (h : s.Inv) (hc : s.br.closed = false) :
    Agree (fun t bits => ReadOn s t ∧ t.ahead = bits)
      (fun e a _ bits => e = fetchEnd s ∧ ∃ t, ReadOn s t ∧ t.ahead = bits ∧ a = fetchEndState t)
      (fetchChain s) (decodeBits s.ahead) := by
  refine decodeWith_agree ?_ ⟨ReadOn.refl h hc, rfl⟩
  rintro n hn t bits ⟨hs, rfl⟩
  obtain ⟨br0, pos0, ht⟩ := hs.frame
  by_cases hlen : n ≤ t.ahead.length
  · obtain ⟨br, pos, e, hbr, hah, hfl, hbp, -⟩ :=
      readBits_of_le hs.inv hs.closed (n := n) (by omega) (by omega) hlen
    have hinv := readBits_inv hs.inv n
    rw [e] at hinv
    rw [e, takeField, if_pos hlen]
    refine ⟨rfl, ⟨⟨br, pos, ?_⟩, hbr, hinv, hfl.trans hs.fails, ?_⟩, hah⟩
    · rw [ht, withReader_withReader]
    · have := hs.total
      rw [hbp, hah, List.length_drop]
      omega
  · have e := readBits_of_lt hs.inv hs.closed (n := n) (by omega) (by omega) (by omega)
    rw [takeField, if_neg hlen, e]
    by_cases hf : t.src.failsAhead
    · simp only [hf, if_true, Agree]
      exact ⟨by simp [fetchEnd, ← hs.fails, hf], t, hs, rfl, by simp [fetchEndState, hf]⟩
    · simp only [hf, Agree]
      exact ⟨by simp [fetchEnd, ← hs.fails, hf], t, hs, rfl, by simp [fetchEndState, hf]⟩

/-- The fetch of an instruction that the bits ahead decode to. -/
theorem fetchChain_of_ok {s : State} (h : s.Inv) (hc : s.br.closed = false) {c : ChainInstr}
    {rest : List Bool} (hd : decodeBits s.ahead = (.ok c, rest)) :
    ∃ t, fetchChain s = (.ok c, t) ∧ ReadOn s t ∧ t.ahead = rest := by
  have h1 := fetchChain_agree h hc
  rw [hd] at h1
  rcases e : fetchChain s with ⟨_ | c', t⟩ <;> rw [e] at h1 <;> simp only [Agree] at h1
  exact ⟨t, by rw [h1.1], h1.2⟩

/-- The fetch where the bits ahead end inside an instruction. -/
theorem fetchChain_of_error {s : State} (h : s.Inv) (hc : s.br.closed = false) {d : DecodeError}
    {rest : List Bool} (hd : decodeBits s.ahead = (.error d, rest)) :
    ∃ t, fetchChain s = (.error (fetchEnd s), fetchEndState t) ∧ ReadOn s t ∧ t.ahead = rest := by
  have h1 := fetchChain_agree h hc
  rw [hd] at h1
  rcases e : fetchChain s with ⟨e' | c', t'⟩ <;> rw [e] at h1 <;> simp only [Agree] at h1
  obtain ⟨rfl, t, h2, h3, rfl⟩ := h1
  exact ⟨t, rfl, h2, h3⟩

end Sys2Proof.Machine
end

