-- ==== Sys2Proof/Laws/Grid.lean ====
section
/-! SUPPORT. The laws of GRID: what a read gives after each write, and that every write keeps the
canonical form. -/

namespace Sys2Proof.Machine

/-! ### Strictly rising lists -/

@[simp] theorem mem_insertRising (a b : Nat) (l : List Nat) :
    b ∈ insertRising a l ↔ b = a ∨ b ∈ l := by
  induction l with
  | nil => simp [insertRising]
  | cons c cs ih =>
    rw [insertRising]
    split
    · simp
    · split
      · rename_i h; subst h; simp
      · simp only [List.mem_cons, ih]; tauto

theorem insertRising_pairwise (a : Nat) (l : List Nat) (h : l.Pairwise (· < ·)) :
    (insertRising a l).Pairwise (· < ·) := by
  induction l with
  | nil => simp [insertRising]
  | cons c cs ih =>
    obtain ⟨hc, hcs⟩ := List.pairwise_cons.1 h
    rw [insertRising]
    split
    · rename_i hac
      refine List.pairwise_cons.2 ⟨fun b hb => ?_, h⟩
      rcases List.mem_cons.1 hb with rfl | hb
      · exact hac
      · exact lt_trans hac (hc b hb)
    · split
      · exact h
      · rename_i h1 h2
        refine List.pairwise_cons.2 ⟨fun b hb => ?_, ih hcs⟩
        rcases (mem_insertRising a b cs).1 hb with rfl | hb
        · omega
        · exact hc b hb

/-- Two strictly rising lists with the same members are the same list. -/
theorem rising_ext {l m : List Nat} (hl : l.Pairwise (· < ·)) (hm : m.Pairwise (· < ·))
    (h : ∀ a, a ∈ l ↔ a ∈ m) : l = m :=
  ((List.perm_ext_iff_of_nodup (hl.imp Nat.ne_of_lt) (hm.imp Nat.ne_of_lt)).2 h).eq_of_pairwise
    (fun _ _ _ _ h1 h2 => absurd h1 (Nat.lt_asymm h2)) hl hm

/-! ### Addresses -/

/-- R49: the index of a cell is `cx + 256 * cy`. -/
theorem cellIndex_toNat (c : Cursor) : (cellIndex c).toNat = c.cx.toNat + 256 * c.cy.toNat := by
  have hx := c.cx.isLt
  have hy := c.cy.isLt
  have h := Nat.two_pow_add_eq_or_of_lt (i := 8) hx c.cy.toNat
  simp only [cellIndex, BitVec.toNat_or, BitVec.toNat_setWidth, BitVec.toNat_shiftLeft,
    Nat.shiftLeft_eq]
  rw [Nat.mod_eq_of_lt (show c.cx.toNat < 2 ^ 16 by omega),
    Nat.mod_eq_of_lt (show c.cy.toNat < 2 ^ 16 by omega),
    Nat.mod_eq_of_lt (show c.cy.toNat * 2 ^ 8 < 2 ^ 16 by omega),
    Nat.mul_comm c.cy.toNat, Nat.or_comm, ← h]
  omega

@[simp] theorem addrLayer_cellAddr (l : Byte) (i : BitVec 16) : addrLayer (cellAddr l i) = l.toNat := by
  have := i.isLt
  simp only [addrLayer, cellAddr, Config.gridBits]
  omega

/-- Distinct cells have distinct addresses. -/
@[simp] theorem cellAddr_inj (l m : Byte) (i j : BitVec 16) :
    cellAddr l i = cellAddr m j ↔ l = m ∧ i = j := by
  have hi := i.isLt
  have hj := j.isLt
  constructor
  · intro h
    simp only [cellAddr, Config.gridBits] at h
    exact ⟨BitVec.eq_of_toNat_eq (by omega), BitVec.eq_of_toNat_eq (by omega)⟩
  · rintro ⟨rfl, rfl⟩; rfl

/-! ### Reads after writes -/

/-- Setting a cell makes it 1 and leaves every other address alone. -/
theorem bit_setCell (g : Grid) (a b : Nat) :
    (g.setCell a).bit b = (decide (b = a) || g.bit b) := by
  by_cases h : b = a
  · simp [Grid.bit, Grid.read?, Grid.setCell, h]
  · by_cases hm : b ∈ g.marks <;> by_cases hc : addrLayer b ∈ g.cleared <;>
      simp [Grid.bit, Grid.read?, Grid.setCell, h, hm, hc]

/-- Clearing a layer makes its cells 0 and leaves every other address alone. -/
theorem bit_clearLayer (g : Grid) (l : Byte) (b : Nat) :
    (g.clearLayer l).bit b = (decide (addrLayer b ≠ l.toNat) && g.bit b) := by
  by_cases h : addrLayer b = l.toNat
  · simp [Grid.bit, Grid.read?, Grid.clearLayer, h]
  · by_cases hm : b ∈ g.marks <;> by_cases hc : addrLayer b ∈ g.cleared <;>
      simp [Grid.bit, Grid.read?, Grid.clearLayer, h, hm, hc]

/-- The host's view of one cell after a mark. -/
theorem gridBit_placeAndMark (s : State) (c : Cursor) (l : Byte) (i : BitVec 16) :
    (placeAndMark c s).gridBit l i =
      (decide (l = s.layer ∧ i = cellIndex c) || s.gridBit l i) := by
  simp only [State.gridBit, placeAndMark, bit_setCell, cellAddr_inj]

/-! ### The canonical form -/

/-- Setting a cell of a layer that has been cleared keeps the canonical form. -/
theorem setCell_wf (g : Grid) (a : Nat) (h : Memory.wf g) (ha : addrLayer a ∈ g.cleared) :
    Memory.wf (g.setCell a) := by
  obtain ⟨h1, h2, h3, h4⟩ := h
  refine ⟨h1, h2, insertRising_pairwise a _ h3, fun b hb => ?_⟩
  rcases (mem_insertRising a b _).1 hb with rfl | hb
  · exact ha
  · exact h4 b hb

/-- Clearing a layer keeps the canonical form. -/
theorem clearLayer_wf (g : Grid) (l : Byte) (h : Memory.wf g) : Memory.wf (g.clearLayer l) := by
  obtain ⟨h1, h2, h3, h4⟩ := h
  refine ⟨insertRising_pairwise _ _ h1, fun m hm => ?_, h3.filter _, fun a ha => ?_⟩
  · rcases (mem_insertRising _ m _).1 hm with rfl | hm
    · exact l.isLt
    · exact h2 m hm
  · exact (mem_insertRising _ _ _).2 (.inr (h4 a (List.mem_filter.1 ha).1))

/-- A grid with nothing listed is in canonical form. -/
theorem empty_wf : Memory.wf { cleared := [], marks := [] } := by decide

end Sys2Proof.Machine
end

