-- ==== Sys2Proof/Laws/Chain.lean ====
section
/-! SUPPORT. The laws of the chain instructions: everything one can do, and what STEP does with it. -/

namespace Sys2Proof.Machine

/-- `exec` of a chain instruction is its rule's effect, answered as STEP answers it. -/
theorem exec_toInstr (c : ChainInstr) (s : State) :
    exec c.toInstr s = answerStep (runChain c s) := by
  cases c <;> rfl

/-! ### The step instructions -/

theorem coordInRange_some {n : Int} {b : Byte} :
    coordInRange n = some b ↔ (0 ≤ n ∧ n ≤ 255) ∧ (b.toNat : Int) = n := by
  unfold coordInRange
  constructor
  · intro h
    split at h
    · rename_i hn
      simp only [Option.some.injEq] at h
      refine ⟨hn, ?_⟩
      rw [← h, BitVec.toNat_ofInt]
      omega
    · simp at h
  · rintro ⟨hn, hb⟩
    rw [if_pos hn, Option.some.injEq]
    refine BitVec.eq_of_toNat_eq ?_
    rw [BitVec.toNat_ofInt]
    omega

theorem coordInRange_none {n : Int} : coordInRange n = none ↔ ¬ (0 ≤ n ∧ n ≤ 255) := by
  unfold coordInRange
  split <;> simp_all

/-- A step leads to a cell exactly where both new coordinates lie in 0 to 255 (R90). -/
theorem stepCell_some {ax ay : Bool} {dx dy : Dir} {c c' : Cursor} :
    stepCell ax ay dx dy c = some c' ↔
      (c'.cx.toNat : Int) = stepCoord ax dx c.cx ∧ (c'.cy.toNat : Int) = stepCoord ay dy c.cy := by
  have hx := c'.cx.isLt
  have hy := c'.cy.isLt
  unfold stepCell
  constructor
  · intro h
    split at h
    · rename_i nx ny h1 h2
      simp only [Option.some.injEq] at h
      subst h
      exact ⟨(coordInRange_some.1 h1).2, (coordInRange_some.1 h2).2⟩
    · simp at h
  · rintro ⟨h1, h2⟩
    rw [coordInRange_some.2 ⟨by omega, h1⟩, coordInRange_some.2 ⟨by omega, h2⟩]

theorem stepCell_none {ax ay : Bool} {dx dy : Dir} {c : Cursor} :
    stepCell ax ay dx dy c = none ↔
      ¬ (0 ≤ stepCoord ax dx c.cx ∧ stepCoord ax dx c.cx ≤ 255 ∧
        0 ≤ stepCoord ay dy c.cy ∧ stepCoord ay dy c.cy ≤ 255) := by
  unfold stepCell
  rcases h1 : coordInRange (stepCoord ax dx c.cx) with _ | nx
  · have := coordInRange_none.1 h1
    exact ⟨fun _ h => this ⟨h.1, h.2.1⟩, fun _ => rfl⟩
  · have h1' := (coordInRange_some.1 h1).1
    rcases h2 : coordInRange (stepCoord ay dy c.cy) with _ | ny
    · have := coordInRange_none.1 h2
      exact ⟨fun _ h => this ⟨h.2.2.1, h.2.2.2⟩, fun _ => rfl⟩
    · have h2' := (coordInRange_some.1 h2).1
      simp only [reduceCtorEq, false_iff, not_not]
      exact ⟨h1'.1, h1'.2, h2'.1, h2'.2⟩

/-! ### Everything a chain instruction can do -/

/-- The inversion of the instruction rules (R90, R100, R110 to R113). -/
theorem runChain_cases (c : ChainInstr) (s : State) :
    (∃ c', runChain c s = (.cont, placeAndMark c' s)) ∨
    (∃ d, runChain c s = (.cont, setDx d s)) ∨
    (∃ d, runChain c s = (.cont, setDy d s)) ∨
    runChain c s = (.stop, endLayer s) ∨
    (∃ f, runChain c s = (.fault f, raise f s)) := by
  have hmove : ∀ ax ay, (∃ c', move ax ay s = (.cont, placeAndMark c' s)) ∨
      (∃ f, move ax ay s = (.fault f, raise f s)) := by
    intro ax ay
    unfold move
    split
    · exact .inr ⟨_, rfl⟩
    · split
      · exact .inr ⟨_, rfl⟩
      · exact .inl ⟨_, rfl⟩
  cases c with
  | stepx => exact (hmove true false).elim .inl fun h => .inr (.inr (.inr (.inr h)))
  | stepy => exact (hmove false true).elim .inl fun h => .inr (.inr (.inr (.inr h)))
  | stepxy => exact (hmove true true).elim .inl fun h => .inr (.inr (.inr (.inr h)))
  | dxneg => exact .inr (.inl ⟨_, rfl⟩)
  | dxpos => exact .inr (.inl ⟨_, rfl⟩)
  | dyneg => exact .inr (.inr (.inl ⟨_, rfl⟩))
  | dypos => exact .inr (.inr (.inl ⟨_, rfl⟩))
  | jump x y => exact .inl ⟨_, rfl⟩
  | stop => exact .inr (.inr (.inr (.inl rfl)))
  | rsv2 => exact .inr (.inr (.inr (.inr ⟨_, rfl⟩)))
  | rsv3 => exact .inr (.inr (.inr (.inr ⟨_, rfl⟩)))

/-- The inversion of `DecodeOne` (R122): the fetch runs an instruction, ends the layer, or has raised a
fault. -/
theorem decodeOne_cases (s : State) :
    (∃ c br pos, br.closed = false ∧ s.br.closed = false ∧ fetchChain s = (.ok c, s.withReader br pos) ∧
      (s.withReader br pos).unread + 2 ≤ s.unread ∧ decodeOne s = runChain c (s.withReader br pos)) ∨
    (∃ br pos, br.closed = s.br.closed ∧ fetchChain s = (.error .eos, s.withReader br pos) ∧
      decodeOne s = (.stop, endLayer (s.withReader br pos))) ∨
    (∃ f br pos, br.closed = s.br.closed ∧
      fetchChain s = (.error (.fault f), raise f (s.withReader br pos)) ∧
      decodeOne s = (.fault f, raise f (s.withReader br pos))) := by
  have h := fetchChain_frame s
  unfold decodeOne
  rcases e : fetchChain s with ⟨(_ | f) | c, t⟩ <;> rw [e] at h
  · obtain ⟨br, pos, rfl, hc⟩ := h
    exact .inr (.inl ⟨br, pos, hc, rfl, rfl⟩)
  · obtain ⟨br, pos, rfl, hc⟩ := h
    exact .inr (.inr ⟨f, br, pos, hc, rfl, rfl⟩)
  · obtain ⟨hcl, ⟨br, pos, rfl, hc⟩, hu⟩ := h
    exact .inl ⟨c, br, pos, hc, hcl, rfl, hu, rfl⟩

end Sys2Proof.Machine
end

