-- ==== Sys2Proof/Laws/Layer.lean ====
section
/-! SUPPORT. The laws of the commands: what every command preserves, packaged once as an induction
over what a command is made of; what its response says; and that the loops of LRUN and ARUN end. -/

namespace Sys2Proof.Machine

/-! ### The gate -/

theorem gated_none {body : State → Rsp × State} {s : State} (h : s.fault = none) :
    gated body s = body s := by simp [gated, h]

theorem gated_some {body : State → Rsp × State} {s : State} {c : FaultCode} (h : s.fault = some c) :
    gated body s = ({ status := .fault c, data := 0 }, s) := by simp [gated, h]

/-! ### What a command is made of -/

/-- A relation between states that everything a command is made of respects. -/
structure Respects (P : State → State → Prop) : Prop where
  refl : ∀ s, P s s
  trans : ∀ {s t u}, P s t → P t u → P s u
  read : ∀ n s, s.fault = none → P s (readBits n s).2
  fetch : ∀ s, s.fault = none → s.active = true → P s (fetchChain s).2
  raise : ∀ c s, s.fault = none → P s (raise c s)
  mark : ∀ c s, s.fault = none → s.active = true → P s (placeAndMark c s)
  setDx : ∀ d s, s.fault = none → s.active = true → P s (setDx d s)
  setDy : ∀ d s, s.fault = none → s.active = true → P s (setDy d s)
  endLayer : ∀ s, s.fault = none → s.active = true → P s (endLayer s)
  lbegin : ∀ b s, s.fault = none → P s (lbeginBody b s).2
  close : ∀ s, P s (closeReader s).2

theorem Respects.runChain {P : State → State → Prop} (hP : Respects P) (c : ChainInstr) {s : State}
    (hf : s.fault = none) (ha : s.active = true) : P s (runChain c s).2 := by
  rcases runChain_cases c s with ⟨c', e⟩ | ⟨d, e⟩ | ⟨d, e⟩ | e | ⟨f, e⟩ <;> rw [e]
  · exact hP.mark _ s hf ha
  · exact hP.setDx _ s hf ha
  · exact hP.setDy _ s hf ha
  · exact hP.endLayer s hf ha
  · exact hP.raise _ s hf

theorem Respects.decodeOne {P : State → State → Prop} (hP : Respects P) {s : State}
    (hf : s.fault = none) (ha : s.active = true) : P s (decodeOne s).2 := by
  have h := hP.fetch s hf ha
  rcases decodeOne_cases s with ⟨c, br, pos, -, -, e, -, d⟩ | ⟨br, pos, -, e, d⟩ | ⟨f, br, pos, -, e, d⟩ <;>
    rw [e] at h <;> rw [d]
  · exact hP.trans h (hP.runChain c hf ha)
  · exact hP.trans h (hP.endLayer _ hf ha)
  · exact h

theorem Respects.stepCommand {P : State → State → Prop} (hP : Respects P) (s : State) :
    P s (stepCommand s).2 := by
  unfold Sys2Proof.Machine.stepCommand
  cases hf : s.fault with
  | some c => rw [gated_some hf]; exact hP.refl s
  | none =>
    rw [gated_none hf, stepBody]
    split
    · exact hP.decodeOne hf ‹_›
    · exact hP.raise _ s hf

theorem Respects.lbeginCommand {P : State → State → Prop} (hP : Respects P) (b : Byte) (s : State) :
    P s (Sys2Proof.Machine.lbegin b s).2 := by
  unfold Sys2Proof.Machine.lbegin
  cases hf : s.fault with
  | some c => rw [gated_some hf]; exact hP.refl s
  | none => rw [gated_none hf]; exact hP.lbegin b s hf

theorem Respects.lrunLoop {P : State → State → Prop} (hP : Respects P) (fuel : Nat) {s s' : State}
    {r : Rsp} (h : lrunLoop fuel s = some (r, s')) : P s s' := by
  induction fuel generalizing s with
  | zero => simp [Sys2Proof.Machine.lrunLoop] at h
  | succ fuel ih =>
    have hs := hP.stepCommand s
    unfold Sys2Proof.Machine.lrunLoop at h
    rcases e : Sys2Proof.Machine.stepCommand s with ⟨r1, s1⟩
    rw [e] at h hs
    simp only at h
    split at h
    · simp only [Option.some.injEq, Prod.mk.injEq] at h
      exact h.2 ▸ hs
    · split at h
      · simp only [Option.some.injEq, Prod.mk.injEq] at h
        exact h.2 ▸ hs
      · exact hP.trans hs (ih h)

theorem Respects.lrun {P : State → State → Prop} (hP : Respects P) {b : Byte} {s s' : State}
    {r : Rsp} (h : lrun b s = some (r, s')) : P s s' := by
  have hb := hP.lbeginCommand b s
  unfold Sys2Proof.Machine.lrun at h
  rcases e : Sys2Proof.Machine.lbegin b s with ⟨r1, s1⟩
  rw [e] at h hb
  simp only at h
  split at h
  · simp only [Option.some.injEq, Prod.mk.injEq] at h
    exact h.2 ▸ hb
  · exact hP.trans hb (hP.lrunLoop _ h)

theorem Respects.arunLoop {P : State → State → Prop} (hP : Respects P) (bs : List Byte) {s s' : State}
    {r : Rsp} (h : arunLoop bs s = some (r, s')) : P s s' := by
  induction bs generalizing s with
  | nil =>
    simp only [Sys2Proof.Machine.arunLoop, Option.some.injEq, Prod.mk.injEq] at h
    exact h.2 ▸ hP.refl s
  | cons b bs ih =>
    unfold Sys2Proof.Machine.arunLoop at h
    rcases e : Sys2Proof.Machine.lrun b s with _ | ⟨r1, s1⟩ <;> rw [e] at h
    · simp at h
    · simp only at h
      split at h
      · simp only [Option.some.injEq, Prod.mk.injEq] at h
        exact h.2 ▸ hP.lrun e
      · exact hP.trans (hP.lrun e) (ih h)

theorem Respects.readCommand {P : State → State → Prop} (hP : Respects P) (n : Nat) (s : State) :
    P s (gated (readCommand n) s).2 := by
  cases hf : s.fault with
  | some c => rw [gated_some hf]; exact hP.refl s
  | none => rw [gated_none hf]; exact hP.read n s hf

/-! ### What a response says -/

/-- A response fits the state its command ends in (R73, R140, R142): data come with `OK` only, a fault
code is the recorded one, and a command that answers no fault has recorded none. -/
def Fits (s : State) (r : Rsp × State) : Prop :=
  (r.1.status ≠ .ok → r.1.data = 0) ∧
    match r.1.status with
    | .fault c => r.2.fault = some c
    | .ok => r.2.fault = s.fault
    | .eos => r.2.fault = s.fault

theorem fits_gated {body : State → Rsp × State} {s : State}
    (h : s.fault = none → Fits s (body s)) : Fits s (gated body s) := by
  cases hf : s.fault with
  | some c => rw [gated_some hf]; exact ⟨fun _ => rfl, hf⟩
  | none => rw [gated_none hf]; exact h hf

theorem fits_readCommand {s : State} (n : Nat) (hf : s.fault = none) : Fits s (readCommand n s) := by
  unfold readCommand
  rcases h : readBits n s with ⟨(_ | c) | v, t⟩
  · have := readBits_eos_state h
    subst this
    exact ⟨fun _ => rfl, rfl⟩
  · have := readBits_fault_state h
    subst this
    exact ⟨fun _ => rfl, raise_fault_of_none _ _ hf⟩
  · obtain ⟨-, br, pos, rfl, -⟩ := readBits_ok_frame h
    exact ⟨fun h => absurd rfl h, rfl⟩

theorem fits_decodeOne {s : State} (hf : s.fault = none) :
    Fits s ((decodeOne s).1.rsp, (decodeOne s).2) := by
  rcases decodeOne_cases s with ⟨c, br, pos, -, -, -, -, d⟩ | ⟨br, pos, -, -, d⟩ | ⟨f, br, pos, -, -, d⟩ <;>
    rw [d]
  · rcases runChain_cases c (s.withReader br pos) with ⟨c', e⟩ | ⟨d, e⟩ | ⟨d, e⟩ | e | ⟨f, e⟩ <;> rw [e]
    · exact ⟨fun h => absurd rfl h, rfl⟩
    · exact ⟨fun h => absurd rfl h, rfl⟩
    · exact ⟨fun h => absurd rfl h, rfl⟩
    · exact ⟨fun h => absurd rfl h, rfl⟩
    · exact ⟨fun _ => rfl, raise_fault_of_none _ _ hf⟩
  · exact ⟨fun h => absurd rfl h, rfl⟩
  · exact ⟨fun _ => rfl, raise_fault_of_none _ _ hf⟩

theorem fits_stepCommand (s : State) : Fits s (stepCommand s) := by
  refine fits_gated fun hf => ?_
  unfold stepBody
  split
  · exact fits_decodeOne hf
  · exact ⟨fun _ => rfl, raise_fault_of_none _ _ hf⟩

/-- STEP never answers `EOS` (R121). -/
theorem stepCommand_ne_eos (s : State) : (stepCommand s).1.status ≠ .eos := by
  unfold stepCommand
  cases hf : s.fault with
  | some c => rw [gated_some hf]; simp
  | none =>
    rw [gated_none hf, stepBody]
    split
    · rcases h : (decodeOne s).1 with _ | _ | c <;> simp [h, Ending.rsp]
    · simp

theorem fits_trans {s t : State} {r : Rsp × State} (hs : t.fault = s.fault) (h : Fits t r) : Fits s r := by
  unfold Fits at *
  rw [hs] at h
  exact h

theorem fits_lrunLoop (fuel : Nat) {s : State} {r : Rsp × State} (h : lrunLoop fuel s = some r) :
    Fits s r ∧ r.1.status ≠ .eos := by
  induction fuel generalizing s with
  | zero => simp [lrunLoop] at h
  | succ fuel ih =>
    have hs := fits_stepCommand s
    have hne := stepCommand_ne_eos s
    unfold lrunLoop at h
    rcases e : stepCommand s with ⟨r1, s1⟩
    rw [e] at h hs hne
    simp only at h
    split at h
    · simp only [Option.some.injEq] at h
      subst h
      exact ⟨⟨fun _ => rfl, hs.2⟩, hne⟩
    · rename_i hok
      simp only [ne_eq, not_not] at hok
      have hfault : s1.fault = s.fault := by simpa only [Fits, hok] using hs.2
      split at h
      · simp only [Option.some.injEq] at h
        subst h
        exact ⟨⟨fun h => absurd rfl h, hfault⟩, by simp⟩
      · exact ⟨fits_trans hfault (ih h).1, (ih h).2⟩

theorem fits_lbegin (b : Byte) (s : State) : Fits s (lbegin b s) :=
  fits_gated fun _ => ⟨fun h => absurd rfl h, rfl⟩

theorem lbegin_ne_eos (b : Byte) (s : State) : (lbegin b s).1.status ≠ .eos := by
  unfold lbegin
  cases hf : s.fault with
  | some c => rw [gated_some hf]; simp
  | none => rw [gated_none hf]; simp [lbeginBody]

theorem fits_lrun {b : Byte} {s : State} {r : Rsp × State} (h : lrun b s = some r) :
    Fits s r ∧ r.1.status ≠ .eos := by
  have hb := fits_lbegin b s
  have hne := lbegin_ne_eos b s
  unfold lrun at h
  rcases e : lbegin b s with ⟨r1, s1⟩
  rw [e] at h hb hne
  simp only at h
  split at h
  · simp only [Option.some.injEq] at h
    exact h ▸ ⟨hb, hne⟩
  · rename_i hok
    simp only [ne_eq, not_not] at hok
    exact ⟨fits_trans (by simpa only [Fits, hok] using hb.2) (fits_lrunLoop _ h).1,
      (fits_lrunLoop _ h).2⟩

theorem fits_arunLoop (bs : List Byte) {s : State} {r : Rsp × State} (h : arunLoop bs s = some r) :
    Fits s r ∧ r.1.status ≠ .eos := by
  induction bs generalizing s with
  | nil =>
    simp only [arunLoop, Option.some.injEq] at h
    exact h ▸ ⟨⟨fun h => absurd rfl h, rfl⟩, by simp⟩
  | cons b bs ih =>
    unfold arunLoop at h
    rcases e : lrun b s with _ | ⟨r1, s1⟩ <;> rw [e] at h
    · simp at h
    · have hl := fits_lrun e
      simp only at h
      split at h
      · simp only [Option.some.injEq] at h
        subst h
        exact ⟨⟨fun _ => rfl, hl.1.2⟩, hl.2⟩
      · rename_i hok
        simp only [ne_eq, not_not] at hok
        exact ⟨fits_trans (by simpa only [Fits, hok] using hl.1.2) (ih h).1, (ih h).2⟩

/-! ### The loops end -/

/-- A STEP after which the layer continues has consumed at least 2 bits (R125). -/
theorem stepCommand_cont {s s' : State} {r : Rsp} (h : stepCommand s = (r, s')) (hok : r.status = .ok)
    (hcont : r.data ≠ 0) : s'.unread + 2 ≤ s.unread := by
  unfold stepCommand at h
  cases hf : s.fault with
  | some c =>
    rw [gated_some hf, Prod.mk.injEq] at h
    rw [← h.1] at hok
    simp at hok
  | none =>
    rw [gated_none hf, stepBody] at h
    split at h
    · rcases decodeOne_cases s with ⟨c, br, pos, -, -, -, hu, d⟩ | ⟨br, pos, -, -, d⟩ |
        ⟨f, br, pos, -, -, d⟩ <;> rw [d] at h
      · rcases runChain_cases c (s.withReader br pos) with ⟨c', e⟩ | ⟨d, e⟩ | ⟨d, e⟩ | e | ⟨f, e⟩ <;>
          rw [e] at h <;> simp only [Prod.mk.injEq] at h <;> obtain ⟨hr, hs⟩ := h
        · rw [← hs]; exact hu
        · rw [← hs]; exact hu
        · rw [← hs]; exact hu
        · rw [← hr] at hcont; simp [Ending.rsp] at hcont
        · rw [← hr] at hok; simp [Ending.rsp] at hok
      · simp only [Prod.mk.injEq] at h
        rw [← h.1] at hcont; simp [Ending.rsp] at hcont
      · simp only [Prod.mk.injEq] at h
        rw [← h.1] at hok; simp [Ending.rsp] at hok
    · simp only [Prod.mk.injEq] at h
      rw [← h.1] at hok; simp at hok

/-- The loop of LRUN ends within the bound of R125. -/
theorem lrunLoop_ends (fuel : Nat) (s : State) (h : stepBound s ≤ fuel) :
    ∃ r, lrunLoop fuel s = some r := by
  induction fuel generalizing s with
  | zero => simp [stepBound] at h
  | succ fuel ih =>
    unfold lrunLoop
    rcases e : stepCommand s with ⟨r, s'⟩
    simp only
    split
    · exact ⟨_, rfl⟩
    · split
      · exact ⟨_, rfl⟩
      · rename_i hok hcont
        simp only [ne_eq, not_not] at hok
        have := stepCommand_cont e hok hcont
        refine ih s' ?_
        simp only [stepBound] at h ⊢
        omega

theorem lrun_ends (b : Byte) (s : State) : ∃ r, lrun b s = some r := by
  unfold lrun
  rcases e : lbegin b s with ⟨r, s'⟩
  simp only
  split
  · exact ⟨_, rfl⟩
  · exact lrunLoop_ends _ s' le_rfl

theorem arunLoop_ends (bs : List Byte) (s : State) : ∃ r, arunLoop bs s = some r := by
  induction bs generalizing s with
  | nil => exact ⟨_, rfl⟩
  | cons b bs ih =>
    obtain ⟨⟨r, s'⟩, e⟩ := lrun_ends b s
    unfold arunLoop
    rw [e]
    simp only
    split
    · exact ⟨_, rfl⟩
    · exact ih s'

end Sys2Proof.Machine
end

