-- ==== Sys2Proof/Laws/Pen.lean ====
section
/-! SUPPORT. The laws of the pen: what an instruction rule does to it, and where one faults. -/

namespace Sys2Proof.Machine

@[simp] theorem placeAndMark_pen (c : Cursor) (s : State) :
    (placeAndMark c s).pen = penOf (some c) s.dx s.dy := rfl
@[simp] theorem setDx_pen (d : Dir) (s : State) : (setDx d s).pen = { s.pen with dx := d.delta } := rfl
@[simp] theorem setDy_pen (d : Dir) (s : State) : (setDy d s).pen = { s.pen with dy := d.delta } := rfl
@[simp] theorem endLayer_pen (s : State) : (endLayer s).pen = s.pen := rfl
@[simp] theorem raise_pen (f : FaultCode) (s : State) : (raise f s).pen = s.pen := rfl
@[simp] theorem withReader_pen (s : State) (br : BitReader) (pos : Nat) :
    (s.withReader br pos).pen = s.pen := rfl
@[simp] theorem lbeginBody_pen (b : Byte) (s : State) : (lbeginBody b s).2.pen = Pen.start := rfl

/-- The pen moves as the cursor does (R90). -/
theorem pen_move (ax ay : Bool) (s : State) :
    s.pen.move (if ax then 1 else 0) (if ay then 1 else 0) =
      (s.cursor.bind (stepCell ax ay s.dx s.dy)).map fun c => penOf (some c) s.dx s.dy := by
  rcases hc : s.cursor with _ | c
  · simp [State.pen, penOf, Pen.move, hc]
  have hcoord : ∀ (a : Bool) (d : Dir) (n : Byte),
      (n.toNat : Int) + (if a then 1 else 0) * d.delta = stepCoord a d n := by
    intro a d n
    cases a <;> simp [stepCoord]
  simp only [State.pen, penOf, Pen.move, hc, Option.map_some, Option.bind_some, hcoord, ← and_assoc]
  rcases e : stepCell ax ay s.dx s.dy c with _ | c'
  · rw [if_neg (by simpa [and_assoc] using stepCell_none.1 e)]
    rfl
  · obtain ⟨hx, hy⟩ := stepCell_some.1 e
    have hx' := c'.cx.isLt
    have hy' := c'.cy.isLt
    rw [if_pos (by omega), ← hx, ← hy]
    rfl

/-- A step that moves the pen moves the cursor (R90). -/
theorem move_of_pen {ax ay : Bool} {s : State} {p : Pen}
    (h : s.pen.move (if ax then 1 else 0) (if ay then 1 else 0) = some p) :
    ∃ t, move ax ay s = (.cont, t) ∧ t.pen = p := by
  rw [pen_move] at h
  rcases hc : s.cursor with _ | c
  · simp [hc] at h
  rcases e : stepCell ax ay s.dx s.dy c with _ | c' <;> simp [hc, e] at h
  exact ⟨placeAndMark c' s, by simp [move, hc, e], h⟩

/-- A step that faults from the pen faults, and writes nothing else (R90, R154). -/
theorem move_of_moveFault {ax ay : Bool} {s : State} {f : FaultCode}
    (h : s.pen.moveFault (if ax then 1 else 0) (if ay then 1 else 0) = some f) :
    move ax ay s = (.fault f, raise f s) := by
  rw [Pen.moveFault, pen_move] at h
  rcases hc : s.cursor with _ | c
  · simp [State.pen, penOf, hc] at h
    subst h
    simp [move, hc]
  rcases e : stepCell ax ay s.dx s.dy c with _ | c' <;> simp [State.pen, penOf, hc, e] at h
  subst h
  simp [move, hc, e]

/-- An instruction behind which the pen goes on lets the layer continue, with that pen. -/
theorem runChain_of_run {c : ChainInstr} {s : State} {p : Pen} (h : s.pen.run c = some p) :
    ∃ t, runChain c s = (.cont, t) ∧ t.pen = p := by
  cases c with
  | stepx => exact move_of_pen (ax := true) (ay := false) h
  | stepy => exact move_of_pen (ax := false) (ay := true) h
  | stepxy => exact move_of_pen (ax := true) (ay := true) h
  | dxneg => exact ⟨_, rfl, Option.some.inj h⟩
  | dxpos => exact ⟨_, rfl, Option.some.inj h⟩
  | dyneg => exact ⟨_, rfl, Option.some.inj h⟩
  | dypos => exact ⟨_, rfl, Option.some.inj h⟩
  | jump x y => exact ⟨_, rfl, Option.some.inj h⟩
  | stop => simp [Pen.run] at h
  | rsv2 => simp [Pen.run] at h
  | rsv3 => simp [Pen.run] at h

/-- An instruction that faults from the pen raises that fault, and writes nothing else (R147 to R149). -/
theorem runChain_of_fault {c : ChainInstr} {s : State} {f : FaultCode} (h : Pen.fault c s.pen = some f) :
    runChain c s = (.fault f, raise f s) := by
  cases c with
  | stepx => exact move_of_moveFault (ax := true) (ay := false) h
  | stepy => exact move_of_moveFault (ax := false) (ay := true) h
  | stepxy => exact move_of_moveFault (ax := true) (ay := true) h
  | rsv2 => cases h; rfl
  | rsv3 => cases h; rfl
  | dxneg => simp [Pen.fault] at h
  | dxpos => simp [Pen.fault] at h
  | dyneg => simp [Pen.fault] at h
  | dypos => simp [Pen.fault] at h
  | jump x y => simp [Pen.fault] at h
  | stop => simp [Pen.fault] at h

end Sys2Proof.Machine
end

