-- ==== Sys2Proof/Laws/PerInstr.lean ====
section
/-! SUPPORT. What holds of every instruction as syntax, one lemma per constructor: the encoder writes
the row of spec/opcode_table.json that the constructor stands for. -/

namespace Sys2Proof.Laws.TableRow

/-- A row of spec/opcode_table.json: its length in bits, its match and its mask. -/
structure Row where
  length : Nat
  matchBits : Nat
  mask : Nat

/-- The row a constructor stands for, transcribed from spec/opcode_table.json. -/
def rowOf : Instr → Row
  | .stepx => ⟨2, 0x00, 0x03⟩
  | .stepy => ⟨2, 0x01, 0x03⟩
  | .stepxy => ⟨2, 0x02, 0x03⟩
  | .dxneg => ⟨5, 0x07, 0x1F⟩
  | .dxpos => ⟨5, 0x0F, 0x1F⟩
  | .dyneg => ⟨5, 0x17, 0x1F⟩
  | .dypos => ⟨5, 0x1F, 0x1F⟩
  | .jump _ _ => ⟨21, 0x03, 0x1F⟩
  | .stop => ⟨5, 0x0B, 0x1F⟩
  | .rsv2 => ⟨5, 0x13, 0x1F⟩
  | .rsv3 => ⟨5, 0x1B, 0x1F⟩
  | .rdbits _ => ⟨12, 0x100, 0xF00⟩
  | .rdbyte _ => ⟨12, 0x200, 0xF00⟩
  | .close _ => ⟨12, 0x300, 0xF00⟩
  | .lbegin _ => ⟨12, 0x800, 0xF00⟩
  | .step _ => ⟨12, 0x900, 0xF00⟩
  | .lrun _ => ⟨12, 0xA00, 0xF00⟩
  | .arun _ => ⟨12, 0xB00, 0xF00⟩

/-- The encoder's length is the row's, its word fits it, and the row selects the word:
`W & mask = match` (R69, R72). -/
def Statement (i : Instr) : Prop :=
  (encode i).1 = (rowOf i).length ∧ (encode i).2 < 2 ^ (rowOf i).length ∧
    (encode i).2 &&& (rowOf i).mask = (rowOf i).matchBits

/-- A command word `op`, `arg` is selected by the row of its `op` (R71, R72). -/
theorem cmdWord_row (op : BitVec 4) (arg : Byte) :
    (op ++ arg).toNat < 2 ^ 12 ∧ (op ++ arg).toNat &&& 0xF00 = op.toNat * 2 ^ 8 := by
  have hop := op.isLt
  have harg := arg.isLt
  have hsum : (op ++ arg).toNat = op.toNat * 2 ^ 8 + arg.toNat := by
    rw [BitVec.toNat_append, Nat.shiftLeft_eq, Nat.mul_comm, ← Nat.two_pow_add_eq_or_of_lt harg]
  have hmask : (0xF00 : Nat) = 2 ^ 8 * (2 ^ 4 - 1) := by decide
  refine ⟨(op ++ arg).isLt, ?_⟩
  rw [hsum, hmask, Nat.mul_comm op.toNat]
  refine Nat.eq_of_testBit_eq fun i => ?_
  rw [Nat.testBit_and, Nat.testBit_two_pow_mul_add _ harg, Nat.testBit_two_pow_mul,
    Nat.testBit_two_pow_sub_one, Nat.testBit_two_pow_mul]
  by_cases h8 : i < 8
  · simp [h8, show ¬ 8 ≤ i by omega]
  · by_cases h12 : i - 8 < 4
    · simp [h8, h12, show 8 ≤ i by omega]
    · have : op.toNat.testBit (i - 8) = false :=
        Nat.testBit_lt_two_pow (Nat.lt_of_lt_of_le hop (Nat.pow_le_pow_right (by omega) (by omega)))
      simp [h8, this]

theorem stepx : Statement .stepx := ⟨rfl, by decide, by decide⟩
theorem stepy : Statement .stepy := ⟨rfl, by decide, by decide⟩
theorem stepxy : Statement .stepxy := ⟨rfl, by decide, by decide⟩
theorem dxneg : Statement .dxneg := ⟨rfl, by decide, by decide⟩
theorem dxpos : Statement .dxpos := ⟨rfl, by decide, by decide⟩
theorem dyneg : Statement .dyneg := ⟨rfl, by decide, by decide⟩
theorem dypos : Statement .dypos := ⟨rfl, by decide, by decide⟩

theorem jump (x y : Byte) : Statement (.jump x y) := by
  refine ⟨rfl, (ChainInstr.jump x y).word.isLt, ?_⟩
  have h : (ChainInstr.jump x y).word.setWidth 5 = 0x03#5 := by
    ext i hi
    have hc : i = 0 ∨ i = 1 ∨ i = 2 ∨ i = 3 ∨ i = 4 := by omega
    rcases hc with rfl | rfl | rfl | rfl | rfl <;> simp [ChainInstr.word]
  have hn : (ChainInstr.jump x y).word.toNat % 2 ^ 5 = 3 := by
    have := congrArg BitVec.toNat h
    rwa [BitVec.toNat_setWidth] at this
  show (ChainInstr.jump x y).word.toNat &&& (2 ^ 5 - 1) = 3
  rw [Nat.and_two_pow_sub_one_eq_mod, hn]

theorem stop : Statement .stop := ⟨rfl, by decide, by decide⟩
theorem rsv2 : Statement .rsv2 := ⟨rfl, by decide, by decide⟩
theorem rsv3 : Statement .rsv3 := ⟨rfl, by decide, by decide⟩
theorem rdbits (n : Byte) : Statement (.rdbits n) := ⟨rfl, cmdWord_row 1 n⟩
theorem rdbyte (arg : Byte) : Statement (.rdbyte arg) := ⟨rfl, cmdWord_row 2 arg⟩
theorem close (arg : Byte) : Statement (.close arg) := ⟨rfl, cmdWord_row 3 arg⟩
theorem lbegin (b : Byte) : Statement (.lbegin b) := ⟨rfl, cmdWord_row 8 b⟩
theorem step (arg : Byte) : Statement (.step arg) := ⟨rfl, cmdWord_row 9 arg⟩
theorem lrun (b : Byte) : Statement (.lrun b) := ⟨rfl, cmdWord_row 0xA b⟩
theorem arun (arg : Byte) : Statement (.arun arg) := ⟨rfl, cmdWord_row 0xB arg⟩

end Sys2Proof.Laws.TableRow
end

