-- ==== Sys2Proof/Laws/Step.lean ====
section
/-! SUPPORT. The laws of one step: everything it can do, and what the invariant is kept by. -/

namespace Sys2Proof.Machine

/-- What any command that ends leaves behind: one response that fits the state, in a state that
everything a command is made of leads to. -/
theorem exec_command {P : State → State → Prop} (hP : Respects P) {i : Instr} (hi : isCommand i = true)
    {s t : State} (h : exec i s = .next t) :
    ∃ r s', t = respond r s' ∧ P s s' ∧ Fits s (r, s') ∧ (r.status = .eos → isRead i = true) := by
  have loop : ∀ {o : Option (Rsp × State)}, answerLoop o = .next t →
      ∃ r s', o = some (r, s') ∧ t = respond r s' := by
    intro o h
    rcases o with _ | ⟨r, s'⟩
    · simp [answerLoop] at h
    · exact ⟨r, s', rfl, by simpa [answerLoop, answer] using h.symm⟩
  have plain : ∀ {o : Rsp × State}, answer o = .next t → t = respond o.1 o.2 := by
    intro o h
    simpa [answer] using h.symm
  cases i with
  | rdbits n =>
    exact ⟨_, _, plain h, hP.readCommand _ s, fits_gated fun hf => fits_readCommand _ hf, fun _ => rfl⟩
  | rdbyte a =>
    exact ⟨_, _, plain h, hP.readCommand _ s, fits_gated fun hf => fits_readCommand _ hf, fun _ => rfl⟩
  | close a =>
    refine ⟨_, _, plain h, hP.close s, ⟨fun h => absurd rfl h, ?_⟩, by simp [closeReader]⟩
    simp only [closeReader]
    split
    · rfl
    · split <;> rfl
  | lbegin b =>
    exact ⟨_, _, plain h, hP.lbeginCommand b s, fits_lbegin b s, fun e => absurd e (lbegin_ne_eos b s)⟩
  | step a =>
    exact ⟨_, _, plain h, hP.stepCommand s, fits_stepCommand s, fun e => absurd e (stepCommand_ne_eos s)⟩
  | lrun b =>
    obtain ⟨r, s', e, rfl⟩ := loop h
    exact ⟨r, s', rfl, hP.lrun e, (fits_lrun e).1, fun h => absurd h (fits_lrun e).2⟩
  | arun a =>
    obtain ⟨r, s', e, rfl⟩ := loop h
    exact ⟨r, s', rfl, hP.arunLoop _ e, (fits_arunLoop _ e).1, fun h => absurd h (fits_arunLoop _ e).2⟩
  | _ => simp [isCommand] at hi

/-- The decoder of command words answers commands only (R72). -/
theorem decodeCmd_isCommand {w : CmdWord} {i : Instr} (h : decodeCmd w = .ok i) : isCommand i = true := by
  unfold decodeCmd at h
  repeat' split at h
  all_goals first
    | (simp only [Except.ok.injEq] at h; subst h; rfl)
    | simp at h

theorem fits_badCommand (s : State) : Fits s (gated badCommandBody s) :=
  fits_gated fun hf => ⟨fun _ => rfl, raise_fault_of_none _ _ hf⟩

theorem Respects.badCommand {P : State → State → Prop} (hP : Respects P) (s : State) :
    P s (gated badCommandBody s).2 := by
  cases hf : s.fault with
  | some c => rw [gated_some hf]; exact hP.refl s
  | none => rw [gated_none hf]; exact hP.raise _ s hf

theorem badCommand_ne_eos (s : State) : (gated badCommandBody s).1.status ≠ .eos := by
  cases hf : s.fault with
  | some c => rw [gated_some hf]; simp
  | none => rw [gated_none hf]; simp [badCommandBody]

/-- The inversion of `step`: it waits, it resets, or it runs one command to its response. -/
theorem step_cases {P : State → State → Prop} (hP : Respects P) {s t : State} (h : step s = .next t) :
    (s.inputs = [] ∧ t = s) ∨
    (∃ p d f rest, s.inputs = .reset p d f :: rest ∧ t = resetWith p d f { s with inputs := rest }) ∨
    (∃ w rest r s', s.inputs = .cmd w :: rest ∧ t = respond r s' ∧ P { s with inputs := rest } s' ∧
      Fits s (r, s') ∧ (r.status = .eos → ∃ i, decodeCmd w = .ok i ∧ isRead i = true)) := by
  unfold step nextInput at h
  rcases hin : s.inputs with _ | ⟨w | ⟨p, d, f⟩, rest⟩
  · simp only [hin, Host.Outcome.next.injEq] at h
    exact .inl ⟨rfl, h.symm⟩
  · simp only [hin] at h
    refine .inr (.inr ?_)
    rcases hd : decodeCmd w with e | i
    · simp only [hd, answerBadCommand, answer, Host.Outcome.next.injEq] at h
      exact ⟨w, rest, _, _, rfl, h.symm, hP.badCommand _,
        fits_trans (t := { s with inputs := rest }) rfl (fits_badCommand { s with inputs := rest }),
        fun he => absurd he (badCommand_ne_eos _)⟩
    · simp only [hd] at h
      obtain ⟨r, s', ht, hp, hfit, hne⟩ := exec_command hP (decodeCmd_isCommand hd) h
      exact ⟨w, rest, r, s', rfl, ht, hp, fits_trans (t := { s with inputs := rest }) rfl hfit,
        fun he => ⟨i, hd, hne he⟩⟩
  · simp only [hin, Host.Outcome.next.injEq] at h
    exact .inr (.inl ⟨p, d, f, rest, rfl, h.symm⟩)

/-! ### The invariant -/

theorem placeAndMark_inv {s : State} (h : s.Inv) (ha : s.active = true) (c : Cursor) :
    (placeAndMark c s).Inv := by
  obtain ⟨h1, h2, h3, h4, h5, h6, h7, h8⟩ := h
  exact ⟨h1, h2, h3, h4, h5, setCell_wf _ _ h6 (by simpa using h7 ha), h7, h8⟩

theorem lbeginBody_inv {s : State} (h : s.Inv) (b : Byte) : (lbeginBody b s).2.Inv := by
  obtain ⟨h1, h2, h3, h4, h5, h6, h7, h8⟩ := h
  exact ⟨h1, h2, h3, h4, h5, clearLayer_wf _ _ h6,
    fun _ => (mem_insertRising _ _ _).2 (.inl rfl), h8⟩

theorem closeReader_inv {s : State} (h : s.Inv) : (closeReader s).2.Inv := by
  unfold closeReader
  split
  · exact h
  · obtain ⟨h1, h2, h3, h4, h5, h6, h7, h8⟩ := h
    split <;> exact ⟨h1, h2, h3, h4, h5, h6, h7, fun _ => rfl⟩

/-- Everything a command is made of keeps the invariant. -/
theorem inv_respects : Respects fun s t => s.Inv → t.Inv where
  refl _ := id
  trans h1 h2 := h2 ∘ h1
  read n _ _ h := readBits_inv h n
  fetch _ _ _ h := fetchChain_inv h
  raise c _ _ h := raise_inv h c
  mark c _ _ ha h := placeAndMark_inv h ha c
  setDx _ _ _ _ h := h.congr rfl rfl rfl rfl rfl
  setDy _ _ _ _ h := h.congr rfl rfl rfl rfl rfl
  endLayer _ _ _ h := by
    obtain ⟨h1, h2, h3, h4, h5, h6, h7, h8⟩ := h
    exact ⟨h1, h2, h3, h4, h5, h6, fun e => by simp at e, h8⟩
  lbegin b _ _ h := lbeginBody_inv h b
  close _ h := closeReader_inv h

/-- A reset leads to a state in which the invariant holds, whatever source is bound (R14, R170). -/
theorem resetWith_inv {s : State} (h : Memory.wf s.grid) (p : Bool) (d : List Byte) (f : Option Nat) :
    (resetWith p d f s).Inv where
  fill_le := by simp
  buf_lt := by simp
  fill_le_pos := by simp
  pos_le := by simp [Source.bind]
  buf_holds i hi := by simp at hi
  grid_wf := h
  active_cleared e := by simp at e
  src_closed e := by simp [Source.bind] at e

end Sys2Proof.Machine
end

