-- ==== Sys2Proof/Tests/Slice0.lean ====
section
/-! SUPPORT. The package's own tests: the well-formedness checks, the decoder on words written out from
spec/30_encoding.md, one step each of the vectors of spec/95_test_vectors.md, and for every statement
with hypotheses a witness that meets them. -/

namespace Sys2Proof.Tests

open Sys2Proof.Machine

/-! ### Helpers -/

/-- The block after a reset that binds a source, `PROPAGATE_CLOSE = 1`. -/
def bound (data : List Byte) (failAt : Option Nat) : State := resetWith true data failAt State.reset

/-- The same with layer `b` begun. -/
def opened (b : Byte) (data : List Byte) (failAt : Option Nat) : State :=
  (lbeginBody b (bound data failAt)).2

/-- The state behind a read. -/
def behind (n : Nat) (s : State) : State := (readBits n s).2

/-- Something that holds of the state an outcome leads to. -/
def leadsTo (p : State → Bool) : Host.Outcome State Fault Refusal → Bool
  | .next t => p t
  | .fault _ => false
  | .refused _ => false

/-- The last response, as its 12-bit word. -/
def answered (t : State) : Option RspWord := t.rsps.getLast?.map Rsp.word

/-- A cell of the cursor. -/
def cell (x y : Byte) : Option Cursor := some { cx := x, cy := y }

theorem bound_inv (data : List Byte) (failAt : Option Nat) : (bound data failAt).Inv :=
  resetWith_inv empty_wf _ _ _

theorem opened_inv (b : Byte) (data : List Byte) (failAt : Option Nat) : (opened b data failAt).Inv :=
  lbeginBody_inv (bound_inv data failAt) b

theorem behind_inv (n : Nat) (data : List Byte) (failAt : Option Nat) :
    (behind n (bound data failAt)).Inv := readBits_inv (bound_inv data failAt) n

theorem leads {p : State → Bool} {o : Host.Outcome State Fault Refusal} (h : leadsTo p o = true) :
    ∃ t, o = .next t ∧ p t = true := by
  cases o with
  | next t => exact ⟨t, rfl, h⟩
  | fault f => simp [leadsTo] at h
  | refused r => simp [leadsTo] at h

/-! ### Well-formedness: an ill-formed term for each check -/

theorem test_wellFormed_refuses_length_0 : (Instr.rdbits 0).wellFormed = false := by decide
theorem test_wellFormed_refuses_length_9 : (Instr.rdbits 9).wellFormed = false := by decide
theorem test_wellFormed_refuses_reserved_2 : Instr.rsv2.wellFormed = false := by decide
theorem test_wellFormed_refuses_reserved_3 : Instr.rsv3.wellFormed = false := by decide
theorem test_wellFormed_takes_lengths_1_and_8 :
    (Instr.rdbits 1).wellFormed = true ∧ (Instr.rdbits 8).wellFormed = true := by decide

/-! ### Decoding: every constructor from a word of R69 or R72, bit by bit, first bit first -/

theorem test_decode_two_bit_words :
    decodeBits [false, false] = (.ok .stepx, []) ∧ decodeBits [true, false] = (.ok .stepy, []) ∧
    decodeBits [false, true] = (.ok .stepxy, []) := by decide

theorem test_decode_direction_words :
    decodeBits [true, true, true, false, false] = (.ok .dxneg, []) ∧
    decodeBits [true, true, true, true, false] = (.ok .dxpos, []) ∧
    decodeBits [true, true, true, false, true] = (.ok .dyneg, []) ∧
    decodeBits [true, true, true, true, true] = (.ok .dypos, []) := by decide

theorem test_decode_stop_and_reserved_words :
    decodeBits [true, true, false, true, false] = (.ok .stop, []) ∧
    decodeBits [true, true, false, false, true] = (.ok .rsv2, []) ∧
    decodeBits [true, true, false, true, true] = (.ok .rsv3, []) := by decide

/-- JUMP 10, 20 written out: the header, then 10 = 0b00001010 and 20 = 0b00010100, low bit first. -/
theorem test_decode_jump_word :
    decodeBits [true, true, false, false, false,
      false, true, false, true, false, false, false, false,
      false, false, true, false, true, false, false, false] = (.ok (.jump 10 20), []) := by decide

/-- spec/95_test_vectors.md V24. -/
theorem test_decode_jump_bytes :
    decodeBytes [0x43, 0x81, 0x02] = .ok (.jump 10 20) ∧
    decodeBytes [0x63, 0xB5, 0x19] = .ok (.jump 0xAB 0xCD) ∧
    decodeBytes [0xE3, 0xFF, 0x1F] = .ok (.jump 255 255) := by decide

theorem test_decode_command_words :
    decodeCmd 0b000100000011 = .ok (.rdbits 3) ∧ decodeCmd 0b001011111111 = .ok (.rdbyte 255) ∧
    decodeCmd 0b001100000001 = .ok (.close 1) ∧ decodeCmd 0b100000000111 = .ok (.lbegin 7) ∧
    decodeCmd 0b100100000000 = .ok (.step 0) ∧ decodeCmd 0b101000001001 = .ok (.lrun 9) ∧
    decodeCmd 0b101100000000 = .ok (.arun 0) := by decide

/-- spec/95_test_vectors.md V12's words. -/
theorem test_decode_refuses_reserved_commands :
    decodeCmd 0x000 = .error (.reservedCommand 0) ∧ decodeCmd 0x4FF = .error (.reservedCommand 4) ∧
    decodeCmd 0xC00 = .error (.reservedCommand 0xC) ∧ decodeCmd 0xF01 = .error (.reservedCommand 0xF) := by
  decide

theorem test_decode_refuses_truncated_bits :
    decodeBits [true] = (.error .truncated, [true]) ∧
    decodeBits [true, true, false, false, false, true] = (.error .truncated, [true]) := by decide

/-- The bytes of spec/95_test_vectors.md P1. -/
theorem test_assemble_P1 :
    assemble [.jump 10 20, .stepx, .stepx, .stepy, .stepxy, .stop] =
      [0x43, 0x81, 0x02, 0x72, 0x01] := by decide

/-! ### One step each -/

/-- S1: byte B4, RDBITS 3 answers 4. -/
theorem test_rdbits_S1 :
    leadsTo (fun t => answered t = some 0x004 ∧ t.br.buf = 0b10110 ∧ t.br.fill = 5 ∧ t.src.pos = 1)
      (exec (.rdbits 3) (bound [0xB4] none)) = true := by decide

/-- V1's third read: a byte is pulled with 5 bits in the buffer. -/
theorem test_rdbits_V1 :
    leadsTo (fun t => answered t = some 0x094 ∧ t.br.buf = 0b111 ∧ t.br.fill = 5 ∧ t.bitpos = 11)
      (exec (.rdbits 8) (behind 2 (behind 1 (bound [0xA5, 0x3C, 0xFF] none)))) = true := by decide

/-- V9: RDBYTE does not align. -/
theorem test_rdbyte_V9 :
    leadsTo (fun t => answered t = some 0x041) (exec (.rdbyte 0) (behind 4 (bound [0x12, 0x34, 0x56] none))) =
      true := by decide

/-- V7. -/
theorem test_close_V7 :
    leadsTo (fun t => answered t = some 0x000 ∧ t.br.closed ∧ t.src.closed ∧ t.br.fill = 4)
      (exec (.close 0) (behind 4 (bound [0x81] none))) = true := by decide

/-- V10: `PROPAGATE_CLOSE = 0`. -/
theorem test_close_V10 :
    leadsTo (fun t => t.br.closed && !t.src.closed)
      (exec (.close 0) (resetWith false [0x81] none State.reset)) = true := by decide

/-- P1's first STEP. -/
theorem test_step_P1 :
    leadsTo (fun t => answered t = some 0x001 ∧ t.cursor = cell 10 20 ∧ t.br.fill = 3 ∧ t.bitpos = 21 ∧
        t.grid.marks = [5130])
      (exec (.step 0) (opened 0 [0x43, 0x81, 0x02, 0x72, 0x01] none)) = true := by decide

/-- V33: STEP straight after reset. -/
theorem test_step_V33 :
    leadsTo (fun t => answered t = some 0x800 ∧ t.bitpos = 0) (exec (.step 0) (bound [0x0B] none)) = true := by
  decide

/-- V14: x upward; index 256 stays 0. -/
theorem test_stepx_V14 :
    leadsTo (fun t => answered t = some 0x600 ∧ t.cursor = cell 255 0 ∧ t.active ∧ t.bitpos = 23 ∧
        t.grid.marks = [255])
      (exec (.lrun 0) (bound [0xE3, 0x1F, 0x00] none)) = true := by decide

/-- V18: a step with the sentinel cursor. -/
theorem test_stepx_V18 :
    leadsTo (fun t => answered t = some 0x500 ∧ t.cursor = none ∧ t.br.buf = 0b1011 ∧ t.br.fill = 6)
      (exec (.lrun 0) (bound [0x2C] none)) = true := by decide

/-- V19, the pin of the primary op: 1, 0 is STEPY. -/
theorem test_stepy_V19 :
    leadsTo (fun t => answered t = some 0x000 ∧ t.grid.marks = [0, 256] ∧ t.bitpos = 28)
      (exec (.lrun 0) (bound [0x03, 0x00, 0xA0, 0x05] none)) = true := by decide

/-- V16: y upward. -/
theorem test_stepy_V16 :
    leadsTo (fun t => answered t = some 0x600 ∧ t.cursor = cell 3 255 ∧ t.grid.marks = [65283])
      (exec (.lrun 0) (bound [0x63, 0xE0, 0x3F] none)) = true := by decide

/-- V17: one coordinate in range and one out; neither is written. -/
theorem test_stepxy_V17 :
    leadsTo (fun t => answered t = some 0x600 ∧ t.cursor = cell 4 0 ∧ t.dy = .neg ∧ t.grid.marks = [4])
      (exec (.lrun 0) (bound [0x83, 0x00, 0xE0, 0x0A] none)) = true := by decide

/-- V20: directions need no position. -/
theorem test_dxneg_dyneg_V20 :
    leadsTo (fun t => answered t = some 0x000 ∧ t.dx = .neg ∧ t.dy = .neg ∧ t.cursor = none ∧
        t.grid.marks = [] ∧ t.bitpos = 15)
      (exec (.lrun 0) (bound [0xE7, 0x2E] none)) = true := by decide

/-- V21, the pin of the sub-op: 1,1,1,0,1 is DYNEG. -/
theorem test_dyneg_V21 :
    leadsTo (fun t => answered t = some 0x000 ∧ t.dx = .pos ∧ t.dy = .neg ∧ t.grid.marks = [2057, 2313])
      (exec (.lrun 0) (bound [0x23, 0x21, 0xE1, 0xB6, 0x00] none)) = true := by decide

/-- P2: all four directions, in layer 7. -/
theorem test_dxpos_dypos_P2 :
    leadsTo (fun t => answered t = some 0x000 ∧ t.cursor = cell 5 4 ∧ t.br.fill = 0 ∧ t.layer = 7 ∧
        t.grid.marks = [771, 772, 1028, 1029, 1284, 1285].map (458752 + ·))
      (exec (.lrun 7) (bound [0xA3, 0xA0, 0xE0, 0x70, 0xF3, 0xF1, 0x5D] none)) = true := by decide

/-- V29: the stream ends behind a JUMP's header, which stays consumed. -/
theorem test_jump_V29 :
    leadsTo (fun t => answered t = some 0x000 ∧ t.bitpos = 5 ∧ t.br.fill = 3 ∧ t.cursor = none ∧ !t.active)
      (exec (.lrun 0) (bound [0x03] none)) = true := by decide

/-- V25. -/
theorem test_stop_V25 :
    leadsTo (fun t => answered t = some 0x000 ∧ t.bitpos = 5 ∧ t.br.fill = 3 ∧ !t.active)
      (exec (.lrun 0) (bound [0x0B] none)) = true := by decide

/-- V26. -/
theorem test_rsv2_V26 :
    leadsTo (fun t => answered t = some 0x700 ∧ t.bitpos = 26 ∧ t.cursor = cell 1 1 ∧ t.active)
      (exec (.lrun 0) (bound [0x23, 0x20, 0x60, 0x02] none)) = true := by decide

/-- V27. -/
theorem test_rsv3_V27 :
    leadsTo (fun t => answered t = some 0x700 ∧ t.bitpos = 5 ∧ t.br.fill = 3 ∧ t.faultReg = 7)
      (exec (.lrun 0) (bound [0x1B] none)) = true := by decide

/-- V40: LBEGIN 1 keeps the open layer 0's cell and puts the cursor back to the sentinel. -/
theorem test_lbegin_V40 :
    leadsTo (fun t => answered t = some 0x000 ∧ t.grid.marks = [5130] ∧ t.grid.cleared = [0, 1] ∧
        t.cursor = none ∧ t.layer = 1 ∧ t.active)
      (exec (.lbegin 1) (jumpBody 10 20 (opened 0 [0x43, 0x81, 0x02, 0x72, 0x01] none)).2) = true := by decide

/-- P1. -/
theorem test_lrun_P1 :
    leadsTo (fun t => answered t = some 0x000 ∧ t.grid.marks = [5130, 5131, 5132, 5388, 5645] ∧
        t.cursor = cell 13 22 ∧ t.bitpos = 34 ∧ !t.active)
      (exec (.lrun 0) (bound [0x43, 0x81, 0x02, 0x72, 0x01] none)) = true := by decide

/-- P5's section cut to its first 9 bytes. -/
theorem test_arun_P5_truncated :
    leadsTo (fun t => (t.bitpos, t.grid.marks) = (71, [0, 1, 131072 + 1542, 131072 + 1799]))
      (exec (.arun 0) (bound [0x03, 0x00, 0x80, 0xB5, 0xC6, 0xC1, 0xC1, 0xB9, 0xAE] none)) = true := by
  decide +kernel

/-- V12: a reserved command, through `step`. -/
theorem test_badCommand_V12 :
    leadsTo (fun t => answered t = some 0x900 ∧ t.faultReg = 9) (step (placeCommand 0x4FF State.reset)) =
      true := by decide

/-- A step as the host's first one after reset runs the word it is given. -/
theorem test_withFetchWord_runs :
    leadsTo (fun t => t.cursor = cell 10 20) (step (State.reset.withFetchWord 21 0x028143)) = true ∧
    leadsTo (fun t => t.layer = 7) (step (State.reset.withFetchWord 12 0x807)) = true := by decide

/-! ### Witnesses of the statements' hypotheses -/

theorem witness_ChainDecodeReadsOnlyItsBits :
    decodeBits ((ChainInstr.jump 255 255).bits ++ [true]) = (.ok (.jump 255 255), [true]) := by decide

theorem witness_CommandWordHasOneMeaning :
    decodeCmd 0xBFF = .ok (.arun 255) ∧ encode (.arun 255) = (12, (0xBFF : CmdWord).toNat) := by decide

/-- The fullest buffer, 7 bits. -/
theorem witness_BitBufferStaysTight :
    (behind 1 (bound [0xA5] none)).br.Tight ∧
    ∃ t, step (placeCommand 0x108 (behind 1 (bound [0xA5, 0x3C] none))) = .next t ∧
      decide (t.br.fill = 7) = true := by
  refine ⟨⟨by decide, fun i hi => ?_⟩, leads (by decide)⟩
  exact Nat.testBit_lt_two_pow
    (Nat.lt_of_lt_of_le (behind_inv 1 [0xA5] none).buf_lt (Nat.pow_le_pow_right (by decide) hi))

/-- The last bits of the stream at exactly its end, one bit beyond it, and a pull that fails. -/
theorem witness_StreamLaw :
    ((bound [0xB4] none).Inv ∧ (bound [0xB4] none).bitpos + 8 = 8 * 1 ∧
      (bound [0xB4] none).br.closed = false ∧
      ¬ ((bound [0xB4] none).br.fill.toNat < 8 ∧
        (bound [0xB4] none).src.failAt = some (bound [0xB4] none).src.pos)) ∧
    ((behind 1 (bound [0xB4] none)).Inv ∧ 8 * 1 + 1 = (behind 1 (bound [0xB4] none)).bitpos + 8 ∧
      (behind 1 (bound [0xB4] none)).br.closed = false ∧
      ¬ ((behind 1 (bound [0xB4] none)).br.fill.toNat < 8 ∧
        (behind 1 (bound [0xB4] none)).src.failAt = some (behind 1 (bound [0xB4] none)).src.pos)) ∧
    (bound [0xB4] (some 0)).Inv ∧
      (readBits 1 (bound [0xB4] (some 0))).1 = .error (.fault .ioFailure) :=
  ⟨⟨bound_inv _ _, by decide, by decide, by decide⟩, ⟨behind_inv _ _ _, by decide, by decide, by decide⟩,
    bound_inv _ _, by decide⟩

/-- S1's two reads, `a + b = 8`; and with 7 bits left a second read one bit too long. -/
theorem witness_ConcatenationLaw :
    ((bound [0xB4] none).Inv ∧ (readBits 3 (bound [0xB4] none)).1 = .ok 4 ∧
      (readBits 5 (behind 3 (bound [0xB4] none))).1 = .ok 22) ∧
    ((behind 1 (bound [0xB4] none)).Inv ∧ (readBits 1 (behind 1 (bound [0xB4] none))).1 = .ok 0 ∧
      (readBits 7 (behind 1 (behind 1 (bound [0xB4] none)))).1 = .error .eos) :=
  ⟨⟨bound_inv _ _, by decide, by decide⟩, behind_inv _ _ _, by decide, by decide⟩

/-- A source whose failure point lies behind its end. -/
theorem witness_ByteRoundTrip :
    (bound [0x00, 0xFF] (some 3)).Inv ∧ (bound [0x00, 0xFF] (some 3)).br.closed = false ∧
      (bound [0x00, 0xFF] (some 3)).br.fill = 0 ∧
      ∀ p, (bound [0x00, 0xFF] (some 3)).src.failAt = some p →
        p < (bound [0x00, 0xFF] (some 3)).src.pos ∨ (bound [0x00, 0xFF] (some 3)).src.data.length < p := by
  refine ⟨bound_inv _ _, rfl, rfl, fun p hp => .inr ?_⟩
  have : 3 = p := Option.some.inj hp
  subst this
  decide

/-- A read that pulls, one that needs all 7 buffered bits and pulls nothing, one that answers `Eos`, and a
step. -/
theorem witness_PullsOnlyAsNeeded :
    (readBits 8 (bound [0xB4] none)).1 = .ok 0xB4 ∧
    (readBits 7 (behind 1 (bound [0xB4] none))).1 = .ok 0x5A ∧
    (readBits 8 (behind 1 (bound [0xB4] none))).1 = .error .eos ∧
    ((bound [0xB4] none).br.fill.toNat < 8 ∧ (bound [0xB4] none).src.pos < 1 ∧
      (bound [0xB4] none).src.failAt ≠ some (bound [0xB4] none).src.pos) ∧
    (bound [0xB4] none).Inv ∧ ∃ t, step (bound [0xB4] none) = .next t :=
  ⟨by decide, by decide, by decide, by decide, bound_inv _ _, ⟨_, rfl⟩⟩

/-- V3. -/
theorem witness_EndOfStreamLeavesReaderUsable :
    (readBits 8 (behind 3 (bound [0x2D] none))).1 = .error .eos ∧
      (behind 3 (bound [0x2D] none)).br.fill.toNat = 5 ∧ 5 ≤ Config.nmax := by decide

/-- One state for each clause: a recorded fault, a closed reader, the lengths 0 and 9, a pull that
fails, the stream's last 8 bits, and one bit too few. -/
theorem witness_RdbitsReadsField :
    (raise .badLength (bound [0xB4] none)).fault = some .badLength ∧
    ((bound [0xB4] none).fault = none ∧ (markClosed (bound [0xB4] none)).br.closed = true) ∧
    (¬ (1 ≤ (0 : Byte).toNat ∧ (0 : Byte).toNat ≤ Config.nmax) ∧
      ¬ (1 ≤ (9 : Byte).toNat ∧ (9 : Byte).toNat ≤ Config.nmax)) ∧
    ((bound [0xB4] (some 0)).br.fill.toNat < 1 ∧
      (bound [0xB4] (some 0)).src.failAt = some (bound [0xB4] (some 0)).src.pos) ∧
    ((bound [0xB4] none).Inv ∧ (bound [0xB4] none).bitpos + (8 : Byte).toNat = 8 * 1) ∧
    ((behind 1 (bound [0xB4] none)).Inv ∧ (behind 1 (bound [0xB4] none)).fault = none ∧
      8 * 1 < (behind 1 (bound [0xB4] none)).bitpos + (8 : Byte).toNat) :=
  ⟨by decide, by decide, by decide, by decide, ⟨bound_inv _ _, by decide⟩, behind_inv _ _ _, by decide,
    by decide⟩

/-- An unaligned byte that ends with the stream. -/
theorem witness_RdbyteIsRdbitsEight :
    (behind 8 (bound [0x12, 0x34] none)).Inv ∧ (behind 8 (bound [0x12, 0x34] none)).fault = none ∧
      (behind 8 (bound [0x12, 0x34] none)).br.closed = false ∧
      (behind 8 (bound [0x12, 0x34] none)).src.failAt ≠ some (behind 8 (bound [0x12, 0x34] none)).src.pos ∧
      (behind 8 (bound [0x12, 0x34] none)).bitpos + 8 = 8 * 2 ∧
      ∃ t, exec (.rdbyte 0) (behind 8 (bound [0x12, 0x34] none)) = .next t :=
  ⟨behind_inv _ _ _, by decide, by decide, by decide, by decide, _, rfl⟩

theorem witness_CloseClosesOnce :
    (bound [0x81] none).br.closed = false ∧ (markClosed (bound [0x81] none)).br.closed = true ∧
    ((markClosed (opened 0 [0x81] none)).br.closed = true ∧ (opened 0 [0x81] none).active = true ∧
      (opened 0 [0x81] none).fault = none) ∧
    ∃ t, step (markClosed (bound [0x81] none)) = .next t := ⟨rfl, rfl, ⟨rfl, rfl, rfl⟩, _, rfl⟩

theorem witness_ClosedReaderFaultsEveryRead :
    (markClosed (opened 0 [0x81] none)).br.closed = true ∧ (markClosed (opened 0 [0x81] none)).fault = none ∧
      (markClosed (opened 0 [0x81] none)).active = true := by decide

/-- The sentinel; x = 255 and x = 0 left at the edge; and the last cell that a step reaches. -/
theorem witness_StepInstructionsMoveAndMark :
    ((Instr.stepxy, (1 : Int), (1 : Int)) ∈ [(Instr.stepx, (1 : Int), (0 : Int)), (.stepy, 0, 1), (.stepxy, 1, 1)] ∧
      (opened 0 [] none).fault = none ∧ (opened 0 [] none).cursor = none) ∧
    ((jumpBody 255 0 (opened 0 [] none)).2.cursor = cell 255 0 ∧
      (255 : Int) < (255 : Byte).toNat + 1 * (jumpBody 255 0 (opened 0 [] none)).2.dx.delta) ∧
    ((dxnegBody (jumpBody 0 0 (opened 0 [] none)).2).2.cursor = cell 0 0 ∧
      ((0 : Byte).toNat : Int) + 1 * (dxnegBody (jumpBody 0 0 (opened 0 [] none)).2).2.dx.delta < 0) ∧
    ((jumpBody 254 255 (opened 0 [] none)).2.cursor = cell 254 255 ∧
      ((254 : Byte).toNat : Int) + 1 * (jumpBody 254 255 (opened 0 [] none)).2.dx.delta = 255 ∧
      ((255 : Byte).toNat : Int) + 0 * (jumpBody 254 255 (opened 0 [] none)).2.dy.delta = 255) := by decide

theorem witness_DirectionsPersist :
    (∃ t, exec (ChainInstr.jump 1 2).toInstr (opened 0 [] none) = .next t) ∧
    ∃ t, isCommand (.rdbits 1) = true ∧ exec (.rdbits 1) (bound [0xB4] none) = .next t :=
  ⟨⟨_, rfl⟩, _, rfl, rfl⟩

theorem witness_ReservedEncodingsFault : (opened 0 [0x13] none).fault = none := by decide

theorem witness_OnlyJumpPositionsCursor :
    (∃ t, exec (ChainInstr.jump 1 2).toInstr (opened 0 [] none) = .next t ∧
      decide (t.cursor ≠ none) = true) ∧ (opened 0 [] none).cursor = none ∧
    ∃ t, exec (.step 0) (opened 0 [0x43, 0x81, 0x02] none) = .next t ∧ decide (t.cursor ≠ none) = true :=
  ⟨leads (by decide), by decide, leads (by decide)⟩

theorem witness_LbeginStartsLayer :
    (raise .badLength (bound [] none)).fault = some .badLength ∧ (bound [] none).fault = none := by decide

theorem witness_StepRunsDecodedInstruction :
    (placeCommand 0x807 State.reset).inputs = [.cmd 0x807] ∧ decodeCmd 0x807 = .ok (.lbegin 7) := by decide

/-- The longest instruction, with nothing behind it but the byte's three zero bits. -/
theorem witness_StepCommandRunsChainInstruction :
    (opened 0 [0xE3, 0xFF, 0x1F] none).Inv ∧ (opened 0 [0xE3, 0xFF, 0x1F] none).fault = none ∧
      (opened 0 [0xE3, 0xFF, 0x1F] none).active = true ∧
      (opened 0 [0xE3, 0xFF, 0x1F] none).br.closed = false ∧
      decodeBits (opened 0 [0xE3, 0xFF, 0x1F] none).ahead = (.ok (.jump 255 255), [false, false, false]) :=
  ⟨opened_inv _ _ _, by decide, by decide, by decide, by decide⟩

/-- No bit ahead, and a stream that ends inside a JUMP. -/
theorem witness_EndOfStreamEndsLayer :
    ((opened 0 [] none).Inv ∧ (opened 0 [] none).src.failsAhead = false ∧
      decodeBits (opened 0 [] none).ahead = (.error .truncated, [])) ∧
    (opened 0 [0x03] none).Inv ∧ (opened 0 [0x03] none).fault = none ∧
      (opened 0 [0x03] none).active = true ∧ (opened 0 [0x03] none).br.closed = false ∧
      (opened 0 [0x03] none).src.failsAhead = false ∧
      decodeBits (opened 0 [0x03] none).ahead = (.error .truncated, [false, false, false]) :=
  ⟨⟨opened_inv _ _ _, by decide, by decide⟩, opened_inv _ _ _, by decide, by decide, by decide, by decide,
    by decide⟩

/-- A pull that fails behind a JUMP's header. -/
theorem witness_FailedPullFaultsStep :
    (opened 0 [0x03, 0x00] (some 1)).Inv ∧ (opened 0 [0x03, 0x00] (some 1)).fault = none ∧
      (opened 0 [0x03, 0x00] (some 1)).active = true ∧
      (opened 0 [0x03, 0x00] (some 1)).br.closed = false ∧
      (opened 0 [0x03, 0x00] (some 1)).src.failsAhead = true ∧
      decodeBits (opened 0 [0x03, 0x00] (some 1)).ahead = (.error .truncated, [false, false, false]) :=
  ⟨opened_inv _ _ _, by decide, by decide, by decide, by decide, by decide⟩

theorem witness_StepNeedsOpenLayer :
    (bound [0x0B] none).fault = none ∧ (bound [0x0B] none).active = false ∧
    (∃ t, exec .stop (opened 0 [] none) = .next t) ∧ ∃ t, exec (.lrun 0) (bound [0x0B] none) = .next t ∧
      decide (t.fault = none) = true :=
  ⟨rfl, rfl, ⟨_, rfl⟩, leads (by decide)⟩

/-- P1, whose last byte has six zero bits behind the STOP. -/
theorem witness_LrunDrawsProgram :
    (bound [0x43, 0x81, 0x02, 0x72, 0x01] none).Inv ∧
      (bound [0x43, 0x81, 0x02, 0x72, 0x01] none).fault = none ∧
      (bound [0x43, 0x81, 0x02, 0x72, 0x01] none).br.closed = false ∧
      drawnBy [.jump 10 20, .stepx, .stepx, .stepy, .stepxy] =
        some [(10, 20), (11, 20), (12, 20), (12, 21), (13, 22)] ∧
      (bound [0x43, 0x81, 0x02, 0x72, 0x01] none).ahead =
        programBits ([.jump 10 20, .stepx, .stepx, .stepy, .stepxy] ++ [.stop]) ++
          [false, false, false, false, false, false] :=
  ⟨bound_inv _ _, by decide, by decide, by decide, by decide⟩

/-- JUMP 254, 0 and, from the byte's last three bits, a STEPX and one bit. -/
theorem witness_LrunEndsAtEndOfStream :
    (bound [0xC3, 0x1F, 0x00] none).Inv ∧ (bound [0xC3, 0x1F, 0x00] none).fault = none ∧
      (bound [0xC3, 0x1F, 0x00] none).br.closed = false ∧
      (bound [0xC3, 0x1F, 0x00] none).src.failsAhead = false ∧
      drawnBy [.jump 254 0, .stepx] = some [(254, 0), (255, 0)] ∧
      (bound [0xC3, 0x1F, 0x00] none).ahead = programBits [.jump 254 0, .stepx] ++ [false] ∧
      decodeBits [false] = (.error .truncated, [false]) :=
  ⟨bound_inv _ _, by decide, by decide, by decide, by decide, by decide, by decide⟩

/-- V26 in layer 7 over an older layer 3, V14, V18; V32's stream failing before the layer's first bit, and
inside an instruction before its `x` and before its `y`; and a closed reader. -/
theorem witness_LrunLeavesPictureOnFault :
    ((opened 3 [0x23, 0x20, 0x60, 0x02] none).Inv ∧
      (opened 3 [0x23, 0x20, 0x60, 0x02] none).fault = none ∧
      (opened 3 [0x23, 0x20, 0x60, 0x02] none).br.closed = false ∧
      drawnBy [.jump 1 1] = some [(1, 1)] ∧
      penBehind [.jump 1 1] = some { at? := some (1, 1), dx := 1, dy := 1 } ∧
      (opened 3 [0x23, 0x20, 0x60, 0x02] none).ahead =
        programBits [.jump 1 1] ++ (ChainInstr.rsv2.bits ++ List.replicate 6 false) ∧
      faultAt false { at? := some (1, 1), dx := 1, dy := 1 }
        (ChainInstr.rsv2.bits ++ List.replicate 6 false) = some (.reservedOpcode, List.replicate 6 false)) ∧
    (drawnBy [.jump 255 0] = some [(255, 0)] ∧
      penBehind [.jump 255 0] = some { at? := some (255, 0), dx := 1, dy := 1 } ∧
      (bound [0xE3, 0x1F, 0x00] none).ahead = programBits [.jump 255 0] ++ [false, false, false] ∧
      faultAt false { at? := some (255, 0), dx := 1, dy := 1 } [false, false, false] =
        some (.cursorRange, [false])) ∧
    (drawnBy [] = some [] ∧ penBehind [] = some Pen.start ∧
      faultAt false Pen.start (bound [0x2C] none).ahead =
        some (.drawUnpositioned, [true, true, false, true, false, false])) ∧
    ((bound [0x23, 0x20, 0x80, 0x05] (some 0)).src.failsAhead = true ∧
      faultAt true Pen.start (bound [0x23, 0x20, 0x80, 0x05] (some 0)).ahead = some (.ioFailure, [])) ∧
    (faultAt true Pen.start (bound [0x23, 0x20, 0x80, 0x05] (some 1)).ahead =
        some (.ioFailure, [true, false, false]) ∧
      faultAt true Pen.start (bound [0x23, 0x20, 0x80, 0x05] (some 2)).ahead =
        some (.ioFailure, [true, false, false])) ∧
    (markClosed (bound [0x0B] none)).fault = none ∧ (markClosed (bound [0x0B] none)).br.closed = true :=
  ⟨⟨opened_inv _ _ _, by decide, by decide, by decide, by decide, by decide, by decide⟩, by decide,
    by decide, by decide, by decide, by decide⟩

/-- V26: the layer's cell stays on a fault, and the layer stays open. -/
theorem test_lrun_keeps_marks_V26 :
    leadsTo (fun t => answered t = some 0x700 ∧ t.grid.marks = [257] ∧ t.grid.cleared = [0] ∧ t.active)
      (exec (.lrun 0) (bound [0x23, 0x20, 0x60, 0x02] none)) = true := by decide

/-- A STEP that consumes exactly 2 bits and goes on. -/
theorem witness_LayerLoopsEnd :
    (jumpBody 0 0 (opened 0 [0x00] none)).2.Inv ∧
      (stepCommand (jumpBody 0 0 (opened 0 [0x00] none)).2).1 = { status := .ok, data := 1 } ∧
      (stepCommand (jumpBody 0 0 (opened 0 [0x00] none)).2).2.bitpos = 2 :=
  ⟨placeAndMark_inv (opened_inv _ _ _) rfl _, by decide, by decide⟩

/-- The programs of spec/95_test_vectors.md P5: layers 0 and 2 draw two cells each, the others are a
STOP. -/
def programP5 (b : Byte) : List ChainInstr :=
  if b = 0 then [.jump 0 0, .stepx] else if b = 2 then [.jump 7 7, .dxneg, .dyneg, .stepxy] else []

/-- Their cells. -/
def cellsP5 (b : Byte) : List (Int × Int) :=
  if b = 0 then [(0, 0), (1, 0)] else if b = 2 then [(7, 7), (6, 6)] else []

/-- Their 167 bytes. -/
def bytesP5 : List Byte :=
  [0x03, 0x00, 0x80, 0xB5, 0xC6, 0xC1, 0xC1, 0xB9, 0xAE] ++
    ((List.replicate 32 [0xB5, 0xD6, 0x5A, 0x6B, 0xAD]).flatten).take 158

theorem witness_ArunDecodesEveryLayer :
    (bound bytesP5 none).Inv ∧ (bound bytesP5 none).fault = none ∧
      (bound bytesP5 none).br.closed = false ∧
      (∀ b, drawnBy (programP5 b) = some (cellsP5 b)) ∧
      (bound bytesP5 none).ahead = (allLayers.flatMap fun b => programBits (programP5 b ++ [.stop])) ++ [] :=
  ⟨bound_inv _ _, rfl, rfl, by decide +kernel, by decide +kernel⟩

theorem witness_ArunStopsAtFirstFault :
    (bound [0xE3, 0x1F, 0x00] none).fault = none ∧
      ∃ t, exec (.arun 0) (bound [0xE3, 0x1F, 0x00] none) = .next t ∧
        decide (t.fault = some .cursorRange) = true :=
  ⟨rfl, leads (by decide)⟩

/-- 255 STOPs and then RSV3, in 160 bytes. -/
def bytesRsv3InLayer255 : List Byte :=
  ((List.replicate 32 [0x6B, 0xAD, 0xB5, 0xD6, 0x5A]).flatten).take 159 ++ [0xDA]

/-- A fault in the first layer (V14) and one in the last. -/
theorem witness_ArunKeepsPicturesOnFault :
    ((bound [0xE3, 0x1F, 0x00] none).Inv ∧
      (bound [0xE3, 0x1F, 0x00] none).fault = none ∧ (bound [0xE3, 0x1F, 0x00] none).br.closed = false ∧
      (∀ l : Byte, l.toNat ≤ (0 : Byte).toNat → drawnBy [.jump 255 0] = some [(255, 0)]) ∧
      penBehind [.jump 255 0] = some { at? := some (255, 0), dx := 1, dy := 1 } ∧
      (bound [0xE3, 0x1F, 0x00] none).ahead =
        ((allLayers.take (0 : Byte).toNat).flatMap fun _ => programBits ([.jump 255 0] ++ [.stop])) ++
          (programBits [.jump 255 0] ++ [false, false, false]) ∧
      faultAt false { at? := some (255, 0), dx := 1, dy := 1 } [false, false, false] =
        some (.cursorRange, [false])) ∧
    ((bound bytesRsv3InLayer255 none).Inv ∧ (bound bytesRsv3InLayer255 none).fault = none ∧
      (bound bytesRsv3InLayer255 none).br.closed = false ∧
      (∀ l : Byte, l.toNat ≤ (255 : Byte).toNat → drawnBy [] = some []) ∧
      penBehind [] = some Pen.start ∧
      (bound bytesRsv3InLayer255 none).ahead =
        ((allLayers.take (255 : Byte).toNat).flatMap fun _ => programBits ([] ++ [.stop])) ++
          (programBits [] ++ ChainInstr.rsv3.bits) ∧
      faultAt (bound bytesRsv3InLayer255 none).src.failsAhead Pen.start ChainInstr.rsv3.bits =
        some (.reservedOpcode, [])) :=
  ⟨⟨bound_inv _ _, by decide, by decide, fun _ _ => by decide, by decide, by decide, by decide⟩,
    bound_inv _ _, by decide, by decide, fun _ _ => by decide, by decide, by decide +kernel, by decide⟩

/-- No bit left, and one bit left. -/
theorem witness_ArunPastEndClearsAllLayers :
    ((bound [] none).Inv ∧ (bound [] none).fault = none ∧ (bound [] none).br.closed = false ∧
      (bound [] none).src.failsAhead = false ∧ (bound [] none).ahead.length = 0) ∧
    (behind 7 (bound [0x81] none)).Inv ∧ (behind 7 (bound [0x81] none)).fault = none ∧
      (behind 7 (bound [0x81] none)).br.closed = false ∧
      (behind 7 (bound [0x81] none)).src.failsAhead = false ∧
      (behind 7 (bound [0x81] none)).ahead.length = 1 :=
  ⟨⟨bound_inv _ _, by decide, by decide, by decide, by decide⟩, behind_inv _ _ _, by decide, by decide,
    by decide, by decide⟩

theorem witness_RecordedFaultGatesCommands :
    (raise .cursorRange State.reset).fault = some .cursorRange ∧
    (isCommand (.arun 0) = true ∧ isClose (.arun 0) = false) ∧
    (placeCommand 0x700 (raise .cursorRange State.reset)).inputs = [.cmd 0x700] ∧
    decodeCmd 0x700 = .error (.reservedCommand 7) ∧
    ∃ t, step (placeCommand 0x700 (raise .cursorRange State.reset)) = .next t ∧
      decide (t.fault = some .cursorRange) = true :=
  ⟨by decide, by decide, by decide, by decide, leads (by decide)⟩

/-- A command that answers `EOS`, and one that answers a fault. -/
theorem witness_OneResponsePerCommand :
    (∃ t, step (placeCommand 0x101 State.reset) = .next t ∧ decide (answered t = some 0x100) = true) ∧
    ∃ t, step (placeCommand 0x900 State.reset) = .next t ∧ decide (answered t = some 0x800) = true :=
  ⟨leads (by decide), leads (by decide)⟩

/-- The smallest reserved `op` and the largest. -/
theorem witness_ReservedCommandFaults :
    (placeCommand 0x000 State.reset).inputs = [.cmd 0x000] ∧ State.reset.fault = none ∧
      (cmdOp 0x000).toNat ∉ [0x1, 0x2, 0x3, 0x8, 0x9, 0xA, 0xB] ∧
      (cmdOp 0xFFF).toNat ∉ [0x1, 0x2, 0x3, 0x8, 0x9, 0xA, 0xB] := by decide

theorem witness_TestsComeInOrder :
    (markClosed State.reset).br.closed = true ∧ (markClosed State.reset).active = false ∧
      (markClosed State.reset).fault = none ∧ State.reset.cursor = none ∧
      (∃ t, exec (.step 0) (markClosed State.reset) = .next t) ∧
      (∃ t, exec (.rdbits 0) (markClosed State.reset) = .next t) ∧
      ∃ t, exec .stepxy (opened 0 [] none) = .next t :=
  ⟨rfl, rfl, rfl, rfl, ⟨_, rfl⟩, ⟨_, rfl⟩, _, rfl⟩

theorem witness_ResetGivesResetValues :
    ({ State.reset with inputs := [.reset true [0xB4] (some 1)] } : State).inputs =
      .reset true [0xB4] (some 1) :: [] := rfl

theorem witness_IdleBlockWaits : State.reset.inputs = [] := rfl

/-- A state with an open layer, a drawn cell and bits in the buffer. -/
theorem witness_StepKeepsInvariant :
    (placeCommand 0x900 (opened 3 [0x43, 0x81, 0x02] none)).Inv ∧
      ∃ t, step (placeCommand 0x900 (opened 3 [0x43, 0x81, 0x02] none)) = .next t ∧
        decide (t.br.fill = 3) = true :=
  ⟨(opened_inv 3 [0x43, 0x81, 0x02] none).congr rfl rfl rfl rfl rfl, leads (by decide)⟩

theorem witness_CanonicalGridIsUnique :
    Memory.wf { cleared := [0, 255], marks := [0, 255 * 65536 + 65535] } := by decide

theorem witness_BlockNeverReadsGrid :
    ∃ t, exec (.step 0) (opened 0 [0x43, 0x81, 0x02] none) = .next t ∧ decide (t.rsps.length = 1) = true :=
  leads (by decide)

/-- One instruction that draws, and one that clears. -/
theorem witness_GridWritesStayInLayer :
    (∃ t, exec (.jump 255 255) (opened 0 [] none) = .next t ∧ decide (t.grid.marks = [65535]) = true) ∧
    ∃ t, exec (.lbegin 255) (bound [] none) = .next t ∧ decide (t.grid.cleared = [255]) = true :=
  ⟨leads (by decide), leads (by decide)⟩

theorem witness_InstructionsKeepSource :
    ∃ t, exec (.lrun 0) (bound [0x0B] none) = .next t ∧ decide (t.src.pos = 1) = true := leads (by decide)

theorem witness_ClosedSourceIsNeverPulled :
    (closeReader (bound [0x81] none)).2.Inv ∧ (closeReader (bound [0x81] none)).2.src.closed = true ∧
      ∃ t, step (placeCommand 0x101 (closeReader (bound [0x81] none)).2) = .next t :=
  ⟨closeReader_inv (bound_inv _ _), rfl, _, rfl⟩

end Sys2Proof.Tests
end

namespace Sys2Proof.Machine

/-! ### The oldest input -/

theorem nextInput_nil {s : State} (h : s.inputs = []) : nextInput s = none := by
  simp [nextInput, h]

theorem nextInput_cons {s : State} {i : HostInput} {rest : List HostInput}
    (h : s.inputs = i :: rest) : nextInput s = some (i, { s with inputs := rest }) := by
  simp [nextInput, h]

/-- Settles O44: with no input `step` takes its waiting branch. -/
theorem idleBlockWaits : Obligations.IdleBlockWaits := by
  intro s hs
  simp only [step, nextInput_nil hs]

/-- Settles O26: the oldest input is the command word, and the decoder answers its instruction. -/
theorem stepRunsDecodedInstruction : Obligations.StepRunsDecodedInstruction := by
  intro s w rest i hs hd
  simp only [step, nextInput_cons hs, hd]

/-! ### The invariant -/

/-- Settles O46: waiting keeps the state, a reset leads into the invariant, and everything a command
is made of respects it. -/
theorem stepKeepsInvariant : Obligations.StepKeepsInvariant := by
  intro s t hs ht
  rcases step_cases inv_respects ht with
    ⟨-, rfl⟩ | ⟨p, d, f, rest, -, rfl⟩ | ⟨w, rest, r, s', -, rfl, hkeep, -, -⟩
  · exact hs
  · exact resetWith_inv (s := { s with inputs := rest }) hs.grid_wf p d f
  · have hs' : s'.Inv := hkeep (hs.congr rfl rfl rfl rfl rfl)
    exact hs'.congr rfl rfl rfl rfl rfl

/-! ### The tight buffer -/

/-- A property that every read keeps is kept by a fetch, which is made of reads (R122). -/
theorem fetchChain_keeps {K : State → Prop} (hread : ∀ n a, K a → K (readBits n a).2) {s : State}
    (h : K s) : K (fetchChain s).2 := by
  have read : ∀ n a r a', K a → readBits n a = (r, a') → K a' := by
    intro n a r a' ha e
    simpa only [e] using hread n a ha
  have post := decodeWith_post (read := readBits) (P0 := K) (P := K) (Q := fun _ a => K a)
    (fun a _ a' => read 2 a _ a') (fun a _ a' => read 2 a _ a')
    (fun n a _ a' => read n a _ a') (fun n a _ a' => read n a _ a') h
  unfold fetchChain
  rcases e : decodeWith readBits s with ⟨_ | _, t⟩ <;> rw [e] at post <;> exact post

/-- R14 as a bound on the buffer's value. -/
theorem BitReader.tight_iff (br : BitReader) :
    br.Tight ↔ br.fill.toNat ≤ 7 ∧ br.buf.toNat < 2 ^ br.fill.toNat := by
  refine and_congr_right fun _ => ⟨fun h => Nat.lt_pow_two_of_testBit _ h, fun h i hi => ?_⟩
  exact Nat.testBit_lt_two_pow (h.trans_le (Nat.pow_le_pow_right (by omega) hi))

/-- Shifting out `n` bits makes a buffer tight that holds at most 7 bits more (R14). -/
theorem BitReader.drop_tight {br : BitReader} {n : Nat} (hn : n ≤ br.fill.toNat)
    (hfill : br.fill.toNat ≤ 7 + n) (hlt : br.buf.toNat < 2 ^ br.fill.toNat) : (br.drop n).Tight := by
  refine (tight_iff _).2 ⟨?_, drop_buf_lt n br hn hlt⟩
  rw [drop_fill n br hn]
  omega

/-- A read keeps the buffer tight: a byte is pushed only where `br.fill < n`, and the read shifts `n`
bits out (R14, R80). -/
theorem readBits_tight (n : Nat) {s : State} (h : s.br.Tight) : (readBits n s).2.br.Tight := by
  obtain ⟨hfill, hlt⟩ := (BitReader.tight_iff _).1 h
  rcases readBits_cases n s with ⟨-, e⟩ | ⟨-, -, e⟩ | ⟨-, -, -, -, -, e⟩ | ⟨-, -, -, -, -, -, e⟩ |
    ⟨b, -, h1, h8, hf, -, -, e⟩ | ⟨-, h1, h8, hf, e⟩ <;> rw [e]
  · exact h
  · exact h
  · exact h
  · exact h
  · have hpush := BitReader.push_fill b s.br hfill
    exact BitReader.drop_tight (by omega) (by omega) (BitReader.push_buf_lt b s.br hfill hlt)
  · exact BitReader.drop_tight hf (by omega) hlt

/-- CLOSE leaves the buffer and its fill length (R83). -/
theorem closeReader_tight {s : State} (h : s.br.Tight) : (closeReader s).2.br.Tight := by
  unfold closeReader
  split
  · exact h
  · split <;> exact h

/-- Everything a command is made of keeps the buffer tight. -/
theorem tight_respects : Respects fun s t => s.br.Tight → t.br.Tight where
  refl _ := id
  trans h1 h2 := h2 ∘ h1
  read n _ _ := readBits_tight n
  fetch _ _ _ := fetchChain_keeps (K := fun a => a.br.Tight) fun n _ => readBits_tight n
  raise _ _ _ := id
  mark _ _ _ _ := id
  setDx _ _ _ _ := id
  setDy _ _ _ _ := id
  endLayer _ _ _ := id
  lbegin _ _ _ := id
  close _ := closeReader_tight

/-- An empty buffer is tight. -/
theorem BitReader.empty_tight (closed : Bool) :
    BitReader.Tight { buf := 0, fill := 0, closed := closed } := by
  simp [BitReader.tight_iff]

/-- Settles O8: only reads move the buffer, and reset empties it. -/
theorem bitBufferStaysTight : Obligations.BitBufferStaysTight := by
  refine ⟨BitReader.empty_tight false, fun n s => readBits_tight n, fun s t hs ht => ?_⟩
  rcases step_cases tight_respects ht with
    ⟨-, rfl⟩ | ⟨p, d, f, rest, -, rfl⟩ | ⟨w, rest, r, s', -, rfl, hkeep, -, -⟩
  · exact hs
  · exact BitReader.empty_tight false
  · exact hkeep hs

/-! ### The source and what belongs to it

`Respects` asks for a relation that CLOSE respects too, and the closed flags of `SourceKept` are what
CLOSE changes. So what the other commands keep of it is proved here, from reads up to the loops. -/

/-- From `s` to `t` the source and the parameters are kept, the position does not fall, and nothing is
closed (R22, R41, R55). -/
structure SourceKept (s t : State) : Prop where
  data : t.src.data = s.src.data
  failAt : t.src.failAt = s.src.failAt
  propagateClose : t.propagateClose = s.propagateClose
  inputs : t.inputs = s.inputs
  pos_le : s.src.pos ≤ t.src.pos
  srcClosed : t.src.closed = s.src.closed
  brClosed : t.br.closed = s.br.closed

theorem SourceKept.trans {s t u : State} (h : SourceKept s t) (h' : SourceKept t u) :
    SourceKept s u where
  data := h'.data.trans h.data
  failAt := h'.failAt.trans h.failAt
  propagateClose := h'.propagateClose.trans h.propagateClose
  inputs := h'.inputs.trans h.inputs
  pos_le := h.pos_le.trans h'.pos_le
  srcClosed := h'.srcClosed.trans h.srcClosed
  brClosed := h'.brClosed.trans h.brClosed

/-- A state that shares the source, the reader, `PROPAGATE_CLOSE` and the inputs keeps them. -/
theorem SourceKept.of_eq {s t : State} (hsrc : t.src = s.src) (hbr : t.br = s.br)
    (hprop : t.propagateClose = s.propagateClose) (hin : t.inputs = s.inputs) : SourceKept s t :=
  ⟨by rw [hsrc], by rw [hsrc], hprop, hin, by rw [hsrc], by rw [hsrc], by rw [hbr]⟩

theorem SourceKept.refl (s : State) : SourceKept s s := .of_eq rfl rfl rfl rfl

/-- What a read that answers a value leaves, where the position has not fallen. -/
theorem sourceKept_withReader {s : State} {br : BitReader} {pos : Nat} (hpos : s.src.pos ≤ pos)
    (hbr : br.closed = s.br.closed) : SourceKept s (s.withReader br pos) :=
  ⟨rfl, rfl, rfl, rfl, hpos, rfl, hbr⟩

theorem sourceKept_raise (c : FaultCode) (s : State) : SourceKept s (raise c s) :=
  .of_eq rfl rfl rfl rfl

theorem sourceKept_readBits (n : Nat) (s : State) : SourceKept s (readBits n s).2 := by
  rcases readBits_cases n s with ⟨-, e⟩ | ⟨-, -, e⟩ | ⟨-, -, -, -, -, e⟩ | ⟨-, -, -, -, -, -, e⟩ |
    ⟨b, -, -, -, -, -, -, e⟩ | ⟨-, -, -, -, e⟩ <;> rw [e]
  · exact sourceKept_raise _ s
  · exact sourceKept_raise _ s
  · exact sourceKept_raise _ s
  · exact .refl s
  · exact sourceKept_withReader (Nat.le_succ _) rfl
  · exact sourceKept_withReader le_rfl rfl

theorem sourceKept_fetchChain (s : State) : SourceKept s (fetchChain s).2 :=
  fetchChain_keeps (fun n a h => h.trans (sourceKept_readBits n a)) (.refl s)

theorem sourceKept_runChain (c : ChainInstr) (s : State) : SourceKept s (runChain c s).2 := by
  rcases runChain_cases c s with ⟨c', e⟩ | ⟨d, e⟩ | ⟨d, e⟩ | e | ⟨f, e⟩ <;> rw [e] <;>
    exact .of_eq rfl rfl rfl rfl

theorem sourceKept_decodeOne (s : State) : SourceKept s (decodeOne s).2 := by
  have h := sourceKept_fetchChain s
  unfold decodeOne
  rcases e : fetchChain s with ⟨(_ | f) | c, t⟩ <;> rw [e] at h
  · exact h.trans (.of_eq rfl rfl rfl rfl)
  · exact h
  · exact h.trans (sourceKept_runChain c t)

/-- The gate runs a command's body or changes nothing (R143). -/
theorem sourceKept_gated {body : State → Rsp × State} {s : State} (h : SourceKept s (body s).2) :
    SourceKept s (gated body s).2 := by
  cases hf : s.fault with
  | some c => rw [gated_some hf]; exact .refl s
  | none => rw [gated_none hf]; exact h

theorem sourceKept_stepCommand (s : State) : SourceKept s (stepCommand s).2 := by
  refine sourceKept_gated ?_
  unfold stepBody
  split
  · exact sourceKept_decodeOne s
  · exact sourceKept_raise _ s

theorem sourceKept_lbegin (b : Byte) (s : State) : SourceKept s (lbegin b s).2 :=
  sourceKept_gated (.of_eq rfl rfl rfl rfl)

theorem sourceKept_lrunLoop (fuel : Nat) {s t : State} {r : Rsp}
    (h : lrunLoop fuel s = some (r, t)) : SourceKept s t := by
  induction fuel generalizing s with
  | zero => simp [lrunLoop] at h
  | succ fuel ih =>
    have hs := sourceKept_stepCommand s
    simp only [lrunLoop] at h
    split at h
    · cases h; exact hs
    · split at h
      · cases h; exact hs
      · exact hs.trans (ih h)

theorem sourceKept_lrun {b : Byte} {s t : State} {r : Rsp} (h : lrun b s = some (r, t)) :
    SourceKept s t := by
  have hs := sourceKept_lbegin b s
  simp only [lrun] at h
  split at h
  · cases h; exact hs
  · exact hs.trans (sourceKept_lrunLoop _ h)

theorem sourceKept_arunLoop (bs : List Byte) {s t : State} {r : Rsp}
    (h : arunLoop bs s = some (r, t)) : SourceKept s t := by
  induction bs generalizing s with
  | nil => cases h; exact .refl _
  | cons b bs ih =>
    unfold arunLoop at h
    split at h
    · cases h
    · rename_i e
      split at h
      · cases h; exact sourceKept_lrun e
      · exact (sourceKept_lrun e).trans (ih h)

/-! ### From a command's end to the next state -/

theorem answer_next {o : Rsp × State} {t : State} (h : answer o = .next t) : t = respond o.1 o.2 := by
  simpa [answer] using h.symm

theorem answerLoop_next {o : Option (Rsp × State)} {t : State} (h : answerLoop o = .next t) :
    ∃ r s', o = some (r, s') ∧ t = respond r s' := by
  cases o with
  | none => simp [answerLoop] at h
  | some o => exact ⟨o.1, o.2, rfl, answer_next h⟩

/-- What is no host command is a chain instruction (R60). -/
theorem exists_toInstr {i : Instr} (h : isCommand i = false) : ∃ c : ChainInstr, c.toInstr = i := by
  cases i with
  | stepx => exact ⟨.stepx, rfl⟩
  | stepy => exact ⟨.stepy, rfl⟩
  | stepxy => exact ⟨.stepxy, rfl⟩
  | dxneg => exact ⟨.dxneg, rfl⟩
  | dxpos => exact ⟨.dxpos, rfl⟩
  | dyneg => exact ⟨.dyneg, rfl⟩
  | dypos => exact ⟨.dypos, rfl⟩
  | jump x y => exact ⟨.jump x y, rfl⟩
  | stop => exact ⟨.stop, rfl⟩
  | rsv2 => exact ⟨.rsv2, rfl⟩
  | rsv3 => exact ⟨.rsv3, rfl⟩
  | _ => simp [isCommand] at h

/-- Giving a response keeps the source. -/
theorem SourceKept.respond {s t : State} (h : SourceKept s t) (r : Rsp) :
    SourceKept s (respond r t) := h.trans (.of_eq rfl rfl rfl rfl)

theorem sourceKept_of_answer {s t : State} {o : Rsp × State} (h : answer o = .next t)
    (ho : SourceKept s o.2) : SourceKept s t := answer_next h ▸ ho.respond o.1

theorem sourceKept_of_answerLoop {s t : State} {o : Option (Rsp × State)}
    (h : answerLoop o = .next t) (ho : ∀ r s', o = some (r, s') → SourceKept s s') :
    SourceKept s t := by
  obtain ⟨r, s', e, rfl⟩ := answerLoop_next h
  exact (ho r s' e).respond r

/-- Every instruction but CLOSE keeps the source and closes nothing. -/
theorem sourceKept_exec {i : Instr} (hi : isClose i = false) {s t : State}
    (h : exec i s = .next t) : SourceKept s t := by
  by_cases hc : isCommand i = true
  · cases i with
    | rdbits n => exact sourceKept_of_answer h (sourceKept_gated (sourceKept_readBits _ s))
    | rdbyte a => exact sourceKept_of_answer h (sourceKept_gated (sourceKept_readBits _ s))
    | close a => simp [isClose] at hi
    | lbegin b => exact sourceKept_of_answer h (sourceKept_lbegin b s)
    | step a => exact sourceKept_of_answer h (sourceKept_stepCommand s)
    | lrun b => exact sourceKept_of_answerLoop h fun _ _ => sourceKept_lrun
    | arun a => exact sourceKept_of_answerLoop h fun _ _ => sourceKept_arunLoop _
    | _ => simp [isCommand] at hc
  · obtain ⟨c, rfl⟩ := exists_toInstr (Bool.not_eq_true _ ▸ hc)
    rw [exec_toInstr] at h
    exact sourceKept_of_answer h (sourceKept_runChain c s)

/-- CLOSE changes nothing of the source but its closed flag (R45, R83). -/
theorem closeReader_source (s : State) :
    (closeReader s).2.src.data = s.src.data ∧ (closeReader s).2.src.failAt = s.src.failAt ∧
      (closeReader s).2.propagateClose = s.propagateClose ∧ (closeReader s).2.inputs = s.inputs ∧
      (closeReader s).2.src.pos = s.src.pos := by
  unfold closeReader
  split
  · exact ⟨rfl, rfl, rfl, rfl, rfl⟩
  · split <;> exact ⟨rfl, rfl, rfl, rfl, rfl⟩

theorem eq_close_of_isClose {i : Instr} (h : isClose i = true) : ∃ a, i = .close a := by
  cases i with
  | close a => exact ⟨a, rfl⟩
  | _ => simp [isClose] at h

/-- Settles O50: CLOSE keeps all but the closed flags, every other instruction keeps these too. -/
theorem instructionsKeepSource : Obligations.InstructionsKeepSource := by
  intro i s t h
  cases hi : isClose i with
  | true =>
    obtain ⟨a, rfl⟩ := eq_close_of_isClose hi
    obtain ⟨hdata, hfail, hprop, hin, hpos⟩ := closeReader_source s
    obtain rfl := answer_next h
    exact ⟨hdata, hfail, hprop, hin, hpos.ge, fun e => by simp at e⟩
  | false =>
    have hk := sourceKept_exec hi h
    exact ⟨hk.data, hk.failAt, hk.propagateClose, hk.inputs, hk.pos_le,
      fun _ => ⟨hk.srcClosed, hk.brClosed⟩⟩

end Sys2Proof.Machine

namespace Sys2Proof.Machine

/-! ### GRID is known by its cells -/

theorem Grid.read?_eq_some_true {g : Grid} {a : Nat} : g.read? a = some true ↔ a ∈ g.marks := by
  unfold Grid.read?
  split
  · simp_all
  · split <;> simp_all

/-- Something is known of a cell exactly where its layer has been cleared (R172). -/
theorem Grid.read?_ne_none {g : Grid} (hg : Memory.wf g) {a : Nat} :
    g.read? a ≠ none ↔ addrLayer a ∈ g.cleared := by
  obtain ⟨-, -, -, hmarks⟩ := hg
  unfold Grid.read?
  split
  · simpa using hmarks a ‹_›
  · split <;> simp_all

theorem addrLayer_lt {a : Nat} : addrLayer a < Config.layers ↔ a < Config.layers * Config.gridBits :=
  Nat.div_lt_iff_lt_mul (by decide)

/-- Every layer is that of its first cell's address. -/
theorem addrLayer_firstCell (l : Nat) : addrLayer (l * Config.gridBits) = l :=
  Nat.mul_div_cancel l (by decide)

/-- A set cell lies in a cleared layer, so among the addresses at which the two grids agree. -/
theorem mem_marks_of_read?_eq {g h : Grid} (hg : Memory.wf g)
    (hread : ∀ a, a < Config.layers * Config.gridBits → g.read? a = h.read? a) {a : Nat}
    (ha : a ∈ g.marks) : a ∈ h.marks := by
  obtain ⟨-, hlt, -, hmarks⟩ := hg
  have hbound := addrLayer_lt.1 (hlt _ (hmarks a ha))
  exact Grid.read?_eq_some_true.1 (hread a hbound ▸ Grid.read?_eq_some_true.2 ha)

/-- A cleared layer is one of whose first cell something is known. -/
theorem mem_cleared_of_read?_eq {g h : Grid} (hg : Memory.wf g) (hh : Memory.wf h)
    (hread : ∀ a, a < Config.layers * Config.gridBits → g.read? a = h.read? a) {l : Nat}
    (hl : l ∈ g.cleared) : l ∈ h.cleared := by
  obtain ⟨-, hlt, -, -⟩ := id hg
  have hfirst := addrLayer_firstCell l
  have hbound := addrLayer_lt.1 (hfirst.symm ▸ hlt l hl)
  have hknown := (Grid.read?_ne_none hg).2 (hfirst.symm ▸ hl)
  rw [hread _ hbound] at hknown
  exact hfirst ▸ (Grid.read?_ne_none hh).1 hknown

/-- Settles O47: both lists are strictly rising, and what is known of the cells tells their members. -/
theorem canonicalGridIsUnique : Obligations.CanonicalGridIsUnique := by
  intro g h hg hh hread
  have hread' := fun a ha => (hread a ha).symm
  obtain ⟨hgCleared, -, hgMarks, -⟩ := id hg
  obtain ⟨hhCleared, -, hhMarks, -⟩ := id hh
  have hcleared : g.cleared = h.cleared := rising_ext hgCleared hhCleared fun _ =>
    ⟨mem_cleared_of_read?_eq hg hh hread, mem_cleared_of_read?_eq hh hg hread'⟩
  have hmarks : g.marks = h.marks := rising_ext hgMarks hhMarks fun _ =>
    ⟨mem_marks_of_read?_eq hg hread, mem_marks_of_read?_eq hh hread'⟩
  cases g
  cases h
  exact congrArg₂ Grid.mk hcleared hmarks

/-! ### What the block does without reading GRID -/

/-- The state with another GRID. -/
def State.withGrid (s : State) (g : Grid) : State := { s with grid := g }

@[simp] theorem withGrid_src (s : State) (g : Grid) : (s.withGrid g).src = s.src := rfl
@[simp] theorem withGrid_cursor (s : State) (g : Grid) : (s.withGrid g).cursor = s.cursor := rfl
@[simp] theorem withGrid_dx (s : State) (g : Grid) : (s.withGrid g).dx = s.dx := rfl
@[simp] theorem withGrid_dy (s : State) (g : Grid) : (s.withGrid g).dy = s.dy := rfl
@[simp] theorem stepBound_withGrid (s : State) (g : Grid) : stepBound (s.withGrid g) = stepBound s := rfl

/-- An operation whose answer, and whose effect on everything but GRID, does not depend on what GRID
holds (R48). -/
def GridBlind {α : Type} (f : State → α × State) : Prop :=
  ∀ s g, ∃ g', f (s.withGrid g) = ((f s).1, (f s).2.withGrid g')

/-- The same of a loop, where it ends. -/
def GridBlindLoop (f : State → Option (Rsp × State)) : Prop :=
  ∀ s r t g, f s = some (r, t) → ∃ g', f (s.withGrid g) = some (r, t.withGrid g')

/-- A test that does not look at GRID chooses between two such operations. -/
theorem GridBlind.ite {α : Type} {p : State → Prop} [∀ s, Decidable (p s)]
    (hp : ∀ s g, p (s.withGrid g) ↔ p s) {f f' : State → α × State} (hf : GridBlind f)
    (hf' : GridBlind f') : GridBlind fun s => if p s then f s else f' s := by
  intro s g
  by_cases h : p s
  · simpa only [if_pos h, if_pos ((hp s g).2 h)] using hf s g
  · simpa only [if_neg h, if_neg (h ∘ (hp s g).1)] using hf' s g

/-- What is made of the answer alone. -/
theorem GridBlind.map {α β : Type} {f : State → α × State} (hf : GridBlind f) (m : α → β) :
    GridBlind fun s => (m (f s).1, (f s).2) := by
  intro s g
  obtain ⟨g', e⟩ := hf s g
  exact ⟨g', by simp only [e]⟩

theorem gridBlind_pullAndTake (n : Nat) : GridBlind (pullAndTake n) := by
  intro s g
  simp only [pullAndTake, withGrid_src]
  split <;> exact ⟨g, rfl⟩

theorem gridBlind_readBits (n : Nat) : GridBlind (readBits n) := by
  unfold readBits
  refine .ite (fun _ _ => Iff.rfl) ?closed (.ite (fun _ _ => Iff.rfl) ?badLength
    (.ite (fun _ _ => Iff.rfl) (gridBlind_pullAndTake n) ?buffered))
  all_goals exact fun _ g => ⟨g, rfl⟩

/-- A fetch is made of reads, so it never reads GRID either (R122). -/
theorem gridBlind_fetchChain : GridBlind fetchChain := by
  intro s g
  have agree : Agree (fun a b => ∃ g', b = a.withGrid g')
      (fun e a d b => e = d ∧ ∃ g', b = a.withGrid g')
      (fetchChain s) (fetchChain (s.withGrid g)) := by
    refine decodeWith_agree ?_ ⟨g, rfl⟩
    rintro n - a _ ⟨g1, rfl⟩
    obtain ⟨g2, e⟩ := gridBlind_readBits n a g1
    rw [e]
    rcases readBits n a with ⟨_ | _, a'⟩ <;> exact ⟨rfl, g2, rfl⟩
  rcases e : fetchChain s with ⟨_ | _, t⟩ <;> rcases e' : fetchChain (s.withGrid g) with ⟨_ | _, t'⟩ <;>
    rw [e, e'] at agree <;> simp only [Agree] at agree
  all_goals
    obtain ⟨rfl, g', rfl⟩ := agree
    exact ⟨g', rfl⟩

theorem gridBlind_move (ax ay : Bool) : GridBlind (move ax ay) := by
  intro s g
  simp only [move, withGrid_cursor, withGrid_dx, withGrid_dy]
  split
  · exact ⟨_, rfl⟩
  · split <;> exact ⟨_, rfl⟩

theorem gridBlind_runChain (c : ChainInstr) : GridBlind (runChain c) := by
  cases c with
  | stepx => exact gridBlind_move true false
  | stepy => exact gridBlind_move false true
  | stepxy => exact gridBlind_move true true
  | _ => exact fun _ _ => ⟨_, rfl⟩

theorem gridBlind_decodeOne : GridBlind decodeOne := by
  intro s g
  obtain ⟨g1, e⟩ := gridBlind_fetchChain s g
  unfold decodeOne
  rw [e]
  rcases fetchChain s with ⟨(_ | f) | c, t⟩
  · exact ⟨g1, rfl⟩
  · exact ⟨g1, rfl⟩
  · exact gridBlind_runChain c t g1

/-- The gate looks at `fault` only (R143). -/
theorem GridBlind.gated {body : State → Rsp × State} (h : GridBlind body) :
    GridBlind (gated body) := by
  intro s g
  cases hf : s.fault with
  | some c =>
    rw [gated_some hf, gated_some (s := s.withGrid g) hf]
    exact ⟨g, rfl⟩
  | none =>
    rw [gated_none hf, gated_none (s := s.withGrid g) hf]
    exact h s g

theorem gridBlind_readCommand (n : Nat) : GridBlind (readCommand n) :=
  (gridBlind_readBits n).map readRsp

theorem gridBlind_closeReader : GridBlind closeReader := by
  intro s g
  refine ⟨g, ?_⟩
  cases hc : s.br.closed <;> cases hp : s.propagateClose <;>
    simp [closeReader, markClosed, State.withGrid, hc, hp]

theorem gridBlind_stepCommand : GridBlind stepCommand := by
  refine GridBlind.gated ?_
  unfold stepBody
  exact .ite (fun _ _ => Iff.rfl) (gridBlind_decodeOne.map Ending.rsp) fun _ g => ⟨g, rfl⟩

theorem gridBlind_lbegin (b : Byte) : GridBlind (lbegin b) :=
  GridBlind.gated fun _ _ => ⟨_, rfl⟩

theorem gridBlind_lrunLoop (fuel : Nat) : GridBlindLoop (lrunLoop fuel) := by
  induction fuel with
  | zero => intro s r t g h; simp [lrunLoop] at h
  | succ fuel ih =>
    intro s r t g h
    obtain ⟨g1, e⟩ := gridBlind_stepCommand s g
    simp only [lrunLoop, e] at h ⊢
    split_ifs at h ⊢
    · cases h; exact ⟨g1, rfl⟩
    · cases h; exact ⟨g1, rfl⟩
    · exact ih _ r t g1 h

theorem gridBlind_lrun (b : Byte) : GridBlindLoop (lrun b) := by
  intro s r t g h
  obtain ⟨g1, e⟩ := gridBlind_lbegin b s g
  simp only [lrun, e, stepBound_withGrid] at h ⊢
  split_ifs at h ⊢
  · cases h; exact ⟨g1, rfl⟩
  · exact gridBlind_lrunLoop _ _ r t g1 h

theorem gridBlind_arunLoop (bs : List Byte) : GridBlindLoop (arunLoop bs) := by
  induction bs with
  | nil => intro s r t g h; cases h; exact ⟨g, rfl⟩
  | cons b bs ih =>
    intro s r t g h
    obtain ⟨⟨r1, s1⟩, e⟩ := lrun_ends b s
    obtain ⟨g1, e1⟩ := gridBlind_lrun b s r1 s1 g e
    simp only [arunLoop, e, e1] at h ⊢
    split_ifs at h ⊢
    · cases h; exact ⟨g1, rfl⟩
    · exact ih s1 r t g1 h

theorem GridBlind.answer {f : State → Rsp × State} (hf : GridBlind f) {s t : State}
    (h : answer (f s) = .next t) (g : Grid) :
    ∃ g', answer (f (s.withGrid g)) = .next (t.withGrid g') := by
  obtain ⟨g', e⟩ := hf s g
  rw [answer_next h, e]
  exact ⟨g', rfl⟩

theorem GridBlindLoop.answerLoop {f : State → Option (Rsp × State)} (hf : GridBlindLoop f)
    {s t : State} (h : answerLoop (f s) = .next t) (g : Grid) :
    ∃ g', answerLoop (f (s.withGrid g)) = .next (t.withGrid g') := by
  obtain ⟨r, s', e, rfl⟩ := answerLoop_next h
  obtain ⟨g', e'⟩ := hf s r s' g e
  rw [e']
  exact ⟨g', rfl⟩

/-- Settles O48: every command and every chain instruction is made of operations that do not look at
GRID. -/
theorem blockNeverReadsGrid : Obligations.BlockNeverReadsGrid := by
  intro i s t g h
  by_cases hc : isCommand i = true
  · cases i with
    | rdbits n => exact (gridBlind_readCommand _).gated.answer h g
    | rdbyte a => exact (gridBlind_readCommand 8).gated.answer h g
    | close a => exact gridBlind_closeReader.answer h g
    | lbegin b => exact (gridBlind_lbegin b).answer h g
    | step a => exact gridBlind_stepCommand.answer h g
    | lrun b => exact (gridBlind_lrun b).answerLoop h g
    | arun a => exact (gridBlind_arunLoop allLayers).answerLoop h g
    | _ => simp [isCommand] at hc
  · obtain ⟨c, rfl⟩ := exists_toInstr (Bool.not_eq_true _ ▸ hc)
    rw [exec_toInstr] at h ⊢
    exact ((gridBlind_runChain c).map Ending.rsp).answer h g

/-! ### Where the block writes GRID -/

/-- From `s` to `t` cells of the current layer have been set, and GRID is otherwise as before
(R48, R50). -/
structure DrawsInLayer (s t : State) : Prop where
  layer : t.layer = s.layer
  other : ∀ l j, l ≠ s.layer → t.gridBit l j = s.gridBit l j
  kept : ∀ l j, s.gridBit l j = true → t.gridBit l j = true

theorem DrawsInLayer.of_eq {s t : State} (hl : t.layer = s.layer) (hg : t.grid = s.grid) :
    DrawsInLayer s t :=
  ⟨hl, fun _ _ _ => by rw [State.gridBit, hg, State.gridBit],
    fun _ _ h => by rwa [State.gridBit, hg]⟩

theorem DrawsInLayer.refl (s : State) : DrawsInLayer s s := .of_eq rfl rfl

theorem DrawsInLayer.trans {s t u : State} (h : DrawsInLayer s t) (h' : DrawsInLayer t u) :
    DrawsInLayer s u where
  layer := h'.layer.trans h.layer
  other l j hl := (h'.other l j (h.layer ▸ hl)).trans (h.other l j hl)
  kept l j hs := h'.kept l j (h.kept l j hs)

theorem drawsInLayer_placeAndMark (c : Cursor) (s : State) : DrawsInLayer s (placeAndMark c s) where
  layer := rfl
  other l j hl := by simp [gridBit_placeAndMark, hl]
  kept l j hs := by simp [gridBit_placeAndMark, hs]

theorem drawsInLayer_runChain (c : ChainInstr) (s : State) : DrawsInLayer s (runChain c s).2 := by
  rcases runChain_cases c s with ⟨c', e⟩ | ⟨d, e⟩ | ⟨d, e⟩ | e | ⟨f, e⟩ <;> rw [e]
  · exact drawsInLayer_placeAndMark c' s
  all_goals exact .of_eq rfl rfl

theorem drawsInLayer_decodeOne (s : State) : DrawsInLayer s (decodeOne s).2 := by
  rcases decodeOne_cases s with ⟨c, br, pos, -, -, -, -, d⟩ | ⟨br, pos, -, -, d⟩ |
    ⟨f, br, pos, -, -, d⟩ <;> rw [d]
  · exact .trans (t := s.withReader br pos) (.of_eq rfl rfl) (drawsInLayer_runChain c _)
  · exact .of_eq rfl rfl
  · exact .of_eq rfl rfl

theorem drawsInLayer_gated {body : State → Rsp × State} {s : State}
    (h : DrawsInLayer s (body s).2) : DrawsInLayer s (gated body s).2 := by
  cases hf : s.fault with
  | some c => rw [gated_some hf]; exact .refl s
  | none => rw [gated_none hf]; exact h

theorem drawsInLayer_stepCommand (s : State) : DrawsInLayer s (stepCommand s).2 := by
  refine drawsInLayer_gated ?_
  unfold stepBody
  split
  · exact drawsInLayer_decodeOne s
  · exact .of_eq rfl rfl

theorem drawsInLayer_readCommand (n : Nat) (s : State) :
    DrawsInLayer s (gated (readCommand n) s).2 := by
  refine drawsInLayer_gated ?_
  rcases readBits_cases n s with ⟨-, e⟩ | ⟨-, -, e⟩ | ⟨-, -, -, -, -, e⟩ | ⟨-, -, -, -, -, -, e⟩ |
    ⟨b, -, -, -, -, -, -, e⟩ | ⟨-, -, -, -, e⟩ <;> rw [readCommand, e] <;> exact .of_eq rfl rfl

theorem drawsInLayer_closeReader (s : State) : DrawsInLayer s (closeReader s).2 := by
  unfold closeReader
  split
  · exact .refl s
  · split <;> exact .of_eq rfl rfl

theorem drawsInLayer_lrunLoop (fuel : Nat) {s t : State} {r : Rsp}
    (h : lrunLoop fuel s = some (r, t)) : DrawsInLayer s t := by
  induction fuel generalizing s with
  | zero => simp [lrunLoop] at h
  | succ fuel ih =>
    have hs := drawsInLayer_stepCommand s
    simp only [lrunLoop] at h
    split at h
    · cases h; exact hs
    · split at h
      · cases h; exact hs
      · exact hs.trans (ih h)

theorem drawsInLayer_of_answer {s t : State} {o : Rsp × State} (h : answer o = .next t)
    (ho : DrawsInLayer s o.2) : DrawsInLayer s t :=
  answer_next h ▸ ho.trans (.of_eq rfl rfl)

/-- An instruction that begins no layer draws in the current layer only. -/
theorem drawsInLayer_exec {i : Instr} (hlbegin : ∀ b, i ≠ .lbegin b) (hlrun : ∀ b, i ≠ .lrun b)
    (harun : ∀ a, i ≠ .arun a) {s t : State} (h : exec i s = .next t) : DrawsInLayer s t := by
  by_cases hc : isCommand i = true
  · cases i with
    | rdbits n => exact drawsInLayer_of_answer h (drawsInLayer_readCommand _ s)
    | rdbyte a => exact drawsInLayer_of_answer h (drawsInLayer_readCommand 8 s)
    | close a => exact drawsInLayer_of_answer h (drawsInLayer_closeReader s)
    | lbegin b => exact absurd rfl (hlbegin b)
    | step a => exact drawsInLayer_of_answer h (drawsInLayer_stepCommand s)
    | lrun b => exact absurd rfl (hlrun b)
    | arun a => exact absurd rfl (harun a)
    | _ => simp [isCommand] at hc
  · obtain ⟨c, rfl⟩ := exists_toInstr (Bool.not_eq_true _ ▸ hc)
    rw [exec_toInstr] at h
    exact drawsInLayer_of_answer h (drawsInLayer_runChain c s)

theorem gridBit_lbeginBody (b : Byte) (s : State) {l : Byte} (hl : l ≠ b) (j : BitVec 16) :
    (lbeginBody b s).2.gridBit l j = s.gridBit l j := by
  have hne : l.toNat ≠ b.toNat := fun e => hl (BitVec.eq_of_toNat_eq e)
  simp [State.gridBit, lbeginBody, bit_clearLayer, hne]

theorem gridBit_lbegin (b : Byte) (s : State) {l : Byte} (hl : l ≠ b) (j : BitVec 16) :
    (lbegin b s).2.gridBit l j = s.gridBit l j := by
  unfold lbegin
  cases hf : s.fault with
  | some c => rw [gated_some hf]
  | none => rw [gated_none hf]; exact gridBit_lbeginBody b s hl j

/-- An LBEGIN that answers no fault makes its layer the current one (R120). -/
theorem lbegin_layer {b : Byte} {s : State} (h : (lbegin b s).1.status = .ok) :
    (lbegin b s).2.layer = b := by
  unfold lbegin at h ⊢
  cases hf : s.fault with
  | some c => rw [gated_some hf] at h; cases h
  | none => rw [gated_none hf]; rfl

theorem gridBit_lrun {b : Byte} {s t : State} {r : Rsp} (h : lrun b s = some (r, t)) {l : Byte}
    (hl : l ≠ b) (j : BitVec 16) : t.gridBit l j = s.gridBit l j := by
  have hbegin := gridBit_lbegin b s hl j
  simp only [lrun] at h
  split at h
  · cases h; exact hbegin
  · rename_i hok
    have hlayer : l ≠ (lbegin b s).2.layer := (lbegin_layer (not_not.1 hok)).symm ▸ hl
    exact ((drawsInLayer_lrunLoop _ h).other l j hlayer).trans hbegin

/-- Settles O49: a cell is set in the current layer, which LBEGIN alone changes, and only LBEGIN
clears. -/
theorem gridWritesStayInLayer : Obligations.GridWritesStayInLayer := by
  intro i s t h
  refine ⟨fun hlbegin hlrun harun l j => ?_, fun b hb l j hl => ?_⟩
  · have hd := drawsInLayer_exec hlbegin hlrun harun h
    exact ⟨hd.other l j, hd.kept l j⟩
  · rcases hb with rfl | rfl
    · rw [answer_next h]
      exact gridBit_lbegin b s hl j
    · obtain ⟨r, s', e, rfl⟩ := answerLoop_next h
      exact gridBit_lrun e hl j

/-! ### A closed source -/

/-- The source is closed, its reader too, and it has delivered `p` bytes. -/
structure ClosedAt (p : Nat) (s : State) : Prop where
  brClosed : s.br.closed = true
  srcClosed : s.src.closed = true
  pos : s.src.pos = p

theorem ClosedAt.of_eq {p : Nat} {s t : State} (h : ClosedAt p s) (hbr : t.br = s.br)
    (hsrc : t.src = s.src) : ClosedAt p t :=
  ⟨hbr ▸ h.brClosed, hsrc ▸ h.srcClosed, hsrc ▸ h.pos⟩

/-- A read of a closed reader stops before its pull (R80, R145). -/
theorem readBits_closedAt {p : Nat} (n : Nat) {s : State} (h : ClosedAt p s) :
    ClosedAt p (readBits n s).2 := by
  rw [readBits, if_pos h.brClosed]
  exact h.of_eq rfl rfl

/-- A later CLOSE changes nothing (R83). -/
theorem closeReader_closedAt {p : Nat} {s : State} (h : ClosedAt p s) :
    ClosedAt p (closeReader s).2 := by
  rw [closeReader, if_pos h.brClosed]
  exact h

/-- Everything a command is made of leaves a closed source where it is. -/
theorem closedAt_respects (p : Nat) : Respects fun s t => ClosedAt p s → ClosedAt p t where
  refl _ := id
  trans h1 h2 := h2 ∘ h1
  read n _ _ := readBits_closedAt n
  fetch _ _ _ := fetchChain_keeps fun n _ => readBits_closedAt n
  raise _ _ _ h := h.of_eq rfl rfl
  mark _ _ _ _ h := h.of_eq rfl rfl
  setDx _ _ _ _ h := h.of_eq rfl rfl
  setDy _ _ _ _ h := h.of_eq rfl rfl
  endLayer _ _ _ h := h.of_eq rfl rfl
  lbegin _ _ _ h := h.of_eq rfl rfl
  close _ := closeReader_closedAt

/-- Settles O51: by the invariant a closed source belongs to a closed reader, and a closed reader's
reads never pull. -/
theorem closedSourceIsNeverPulled : Obligations.ClosedSourceIsNeverPulled := by
  intro s t hs hclosed ht
  have hat : ClosedAt s.src.pos s := ⟨hs.src_closed hclosed, hclosed, rfl⟩
  rcases step_cases (closedAt_respects s.src.pos) ht with
    ⟨-, rfl⟩ | ⟨p, d, f, rest, hin, -⟩ | ⟨w, rest, r, s', -, rfl, hkeep, -, -⟩
  · exact .inr ⟨rfl, hclosed⟩
  · exact .inl (by simp [State.resetComes, hin])
  · have hend : ClosedAt s.src.pos s' := hkeep (hat.of_eq rfl rfl)
    exact .inr ⟨hend.pos, hend.srcClosed⟩

end Sys2Proof.Machine

namespace Sys2Proof

open Machine

/-! ### Fields and the bits they are read from -/

theorem testBit_fieldValue (bits : List Bool) (i : Nat) :
    (fieldValue bits).testBit i = bits[i]?.getD false := by
  induction bits generalizing i with
  | nil => simp [fieldValue]
  | cons b bs ih =>
    cases i with
    | zero => cases b <;> simp [fieldValue, Nat.testBit_zero]
    | succ i =>
      have hhalf : fieldValue (b :: bs) / 2 = fieldValue bs := by
        have := Bool.toNat_le b
        simp only [fieldValue]
        omega
      rw [Nat.testBit_succ, hhalf, ih, List.getElem?_cons_succ]

/-- The bits of a number that a word holds. -/
theorem bitsOf_ofNat {w n m : Nat} (h : n ≤ w) :
    bitsOf n (BitVec.ofNat w m) = (List.range n).map m.testBit := by
  refine List.map_congr_left fun i hi => ?_
  rw [BitVec.getLsbD_ofNat, decide_eq_true ((List.mem_range.1 hi).trans_le h), Bool.true_and]

/-- Bits are laid out again from their value (R47, R63). -/
theorem bitsOf_fieldValue (bits : List Bool) :
    bitsOf bits.length (BitVec.ofNat bits.length (fieldValue bits)) = bits := by
  refine List.ext_getElem? fun i => ?_
  rw [bitsOf_ofNat le_rfl, List.getElem?_map]
  by_cases hi : i < bits.length
  · simp [hi, testBit_fieldValue]
  · simp [hi]

/-- A read answers a value exactly where the bits begin with a word of `n` bits, and it answers that
word (R47). -/
theorem takeField_eq_ok_iff {n : Nat} {bits rest : List Bool} {v : Byte} :
    takeField n bits = (.ok v, rest) ↔
      ∃ u : BitVec n, v = u.setWidth 8 ∧ bits = bitsOf n u ++ rest := by
  constructor
  · intro h
    unfold takeField at h
    split at h
    · rename_i hlen
      cases h
      have htake : (bits.take n).length = n := List.length_take_of_le hlen
      have hbits := bitsOf_fieldValue (bits.take n)
      have hlt := fieldValue_lt (bits.take n)
      rw [htake] at hbits hlt
      refine ⟨BitVec.ofNat n (fieldValue (bits.take n)), ?_, ?_⟩
      · rw [← BitVec.ofNat_toNat, BitVec.toNat_ofNat, Nat.mod_eq_of_lt hlt]
      · rw [hbits, List.take_append_drop]
    · cases h
  · rintro ⟨u, rfl, rfl⟩
    rw [takeField_bitsOf, Nat.mod_eq_of_lt u.isLt, BitVec.ofNat_toNat]

/-! ### What a decode that answers an instruction has read -/

section Inversion
variable {σ ε : Type} {read : Nat → σ → Except ε Byte × σ} {s t : σ} {c : ChainInstr}

theorem decodeJump_eq_ok_iff :
    decodeJump read s = (.ok c, t) ↔
      ∃ x s1 y, read 8 s = (.ok x, s1) ∧ read 8 s1 = (.ok y, t) ∧ .jump x y = c := by
  unfold decodeJump
  rcases h1 : read 8 s with ⟨e | x, s1⟩
  · simp
  · rcases h2 : read 8 s1 with ⟨e | y, s2⟩
    · simp [h2]
    · simp [h2, and_comm]

theorem decodeLong_eq_ok_iff :
    decodeLong read s = (.ok c, t) ↔
      ∃ f s1 q s2, read 1 s = (.ok f, s1) ∧ read 2 s1 = (.ok q, s2) ∧
        ((decodeSub (f.setWidth 1) (q.setWidth 2) = some c ∧ s2 = t) ∨
          (decodeSub (f.setWidth 1) (q.setWidth 2) = none ∧ decodeJump read s2 = (.ok c, t))) := by
  unfold decodeLong
  rcases h1 : read 1 s with ⟨e | f, s1⟩
  · simp
  · rcases h2 : read 2 s1 with ⟨e | q, s2⟩
    · simp [h2]
    · cases h3 : decodeSub (f.setWidth 1) (q.setWidth 2) <;> simp [h2, h3]

theorem decodeWith_eq_ok_iff :
    decodeWith read s = (.ok c, t) ↔
      ∃ p s1, read 2 s = (.ok p, s1) ∧
        ((decodePrimary (p.setWidth 2) = some c ∧ s1 = t) ∨
          (decodePrimary (p.setWidth 2) = none ∧ decodeLong read s1 = (.ok c, t))) := by
  unfold decodeWith
  rcases h1 : read 2 s with ⟨e | p, s1⟩
  · simp
  · cases h2 : decodePrimary (p.setWidth 2) <;> simp [h2]

end Inversion

/-! ### The fields of a chain instruction -/

theorem decodePrimary_bits :
    ∀ p : BitVec 2, ∀ c ∈ decodePrimary p, c.bits = bitsOf 2 p := by decide

theorem decodePrimary_eq_none_iff : ∀ p : BitVec 2, decodePrimary p = none ↔ p = 3 := by decide

theorem decodeSub_bits :
    ∀ (f : BitVec 1) (q : BitVec 2), ∀ c ∈ decodeSub f q,
      c.bits = bitsOf 2 3#2 ++ (bitsOf 1 f ++ bitsOf 2 q) := by decide

theorem decodeSub_eq_none_iff :
    ∀ (f : BitVec 1) (q : BitVec 2), decodeSub f q = none ↔ f = 0 ∧ q = 0 := by decide

/-- JUMP is its header, then `x`, then `y` (R67, R69). -/
theorem jump_bits (x y : Byte) :
    (ChainInstr.jump x y).bits =
      bitsOf 2 3#2 ++ (bitsOf 1 0#1 ++ (bitsOf 2 0#2 ++ (bitsOf 8 x ++ bitsOf 8 y))) := by
  simp [ChainInstr.bits, ChainInstr.length, ChainInstr.word, bitsOf, List.range_succ]

/-- Every chain instruction is one of 2 bits, one of 5 bits, or a JUMP (R64 to R66). -/
theorem ChainInstr.fields_cases (c : ChainInstr) :
    (∃ p, decodePrimary p = some c) ∨ (∃ f q, decodeSub f q = some c) ∨ ∃ x y, .jump x y = c := by
  cases c with
  | stepx => exact .inl ⟨0, rfl⟩
  | stepy => exact .inl ⟨1, rfl⟩
  | stepxy => exact .inl ⟨2, rfl⟩
  | dxneg => exact .inr (.inl ⟨1, 0, rfl⟩)
  | dxpos => exact .inr (.inl ⟨1, 1, rfl⟩)
  | dyneg => exact .inr (.inl ⟨1, 2, rfl⟩)
  | dypos => exact .inr (.inl ⟨1, 3, rfl⟩)
  | jump x y => exact .inr (.inr ⟨x, y, rfl⟩)
  | stop => exact .inr (.inl ⟨0, 1, rfl⟩)
  | rsv2 => exact .inr (.inl ⟨0, 2, rfl⟩)
  | rsv3 => exact .inr (.inl ⟨0, 3, rfl⟩)

/-! ### Decoding and encoding are inverse -/

/-- A field of the decoder's, widened by the read and cut back. -/
theorem setWidth_setWidth_byte {n : Nat} (h : n ≤ 8) (u : BitVec n) :
    (u.setWidth 8).setWidth n = u := by
  rw [BitVec.setWidth_setWidth_of_le _ h, BitVec.setWidth_eq]

/-- What the decoder reads, field by field (R68, R69). -/
theorem decodeBits_eq_ok_iff_fields {bits rest : List Bool} {c : ChainInstr} :
    decodeBits bits = (.ok c, rest) ↔
      (∃ p, decodePrimary p = some c ∧ bits = bitsOf 2 p ++ rest) ∨
      (∃ f q, decodeSub f q = some c ∧
        bits = bitsOf 2 3#2 ++ (bitsOf 1 f ++ (bitsOf 2 q ++ rest))) ∨
      ∃ x y, .jump x y = c ∧ bits = bitsOf 2 3#2 ++ (bitsOf 1 0#1 ++ (bitsOf 2 0#2 ++
        (bitsOf 8 x ++ (bitsOf 8 y ++ rest)))) := by
  simp only [decodeBits, decodeWith_eq_ok_iff, decodeLong_eq_ok_iff, decodeJump_eq_ok_iff,
    takeField_eq_ok_iff]
  constructor
  · rintro ⟨_, _, ⟨p, rfl, rfl⟩, ⟨hp, rfl⟩ | ⟨hp, _, _, _, _, ⟨f, rfl, rfl⟩, ⟨q, rfl, rfl⟩, h⟩⟩ <;>
      rw [setWidth_setWidth_byte (by decide)] at hp
    · exact .inl ⟨p, hp, rfl⟩
    · rw [setWidth_setWidth_byte (by decide), setWidth_setWidth_byte (by decide)] at h
      obtain rfl := (decodePrimary_eq_none_iff p).1 hp
      obtain ⟨hs, rfl⟩ | ⟨hs, _, _, _, ⟨x, rfl, rfl⟩, ⟨y, rfl, rfl⟩, hc⟩ := h
      · exact .inr (.inl ⟨f, q, hs, rfl⟩)
      · obtain ⟨rfl, rfl⟩ := (decodeSub_eq_none_iff f q).1 hs
        exact .inr (.inr ⟨x, y, by simpa using hc, rfl⟩)
  · rintro (⟨p, hp, rfl⟩ | ⟨f, q, hs, rfl⟩ | ⟨x, y, hc, rfl⟩)
    · exact ⟨_, _, ⟨p, rfl, rfl⟩, .inl ⟨by rwa [setWidth_setWidth_byte (by decide)], rfl⟩⟩
    · refine ⟨_, _, ⟨3, rfl, rfl⟩, .inr ⟨rfl, _, _, _, _, ⟨f, rfl, rfl⟩, ⟨q, rfl, rfl⟩, .inl ⟨?_, rfl⟩⟩⟩
      rwa [setWidth_setWidth_byte (by decide), setWidth_setWidth_byte (by decide)]
    · refine ⟨_, _, ⟨3, rfl, rfl⟩, .inr ⟨rfl, _, _, _, _, ⟨0, rfl, rfl⟩, ⟨0, rfl, rfl⟩, .inr ⟨rfl, ?_⟩⟩⟩
      exact ⟨_, _, _, ⟨x, rfl, rfl⟩, ⟨y, rfl, rfl⟩, by simpa using hc⟩

/-- Bits decode to an instruction exactly where they begin with that instruction's bits. -/
theorem decodeBits_eq_ok_iff {bits rest : List Bool} {c : ChainInstr} :
    decodeBits bits = (.ok c, rest) ↔ bits = c.bits ++ rest := by
  rw [decodeBits_eq_ok_iff_fields]
  constructor
  · rintro (⟨p, hp, rfl⟩ | ⟨f, q, hs, rfl⟩ | ⟨x, y, rfl, rfl⟩)
    · rw [decodePrimary_bits p c hp]
    · simp only [decodeSub_bits f q c hs, List.append_assoc]
    · simp only [jump_bits, List.append_assoc]
  · rintro rfl
    obtain ⟨p, hp⟩ | ⟨f, q, hs⟩ | ⟨x, y, rfl⟩ := c.fields_cases
    · exact .inl ⟨p, hp, by rw [decodePrimary_bits p c hp]⟩
    · exact .inr (.inl ⟨f, q, hs, by simp only [decodeSub_bits f q c hs, List.append_assoc]⟩)
    · exact .inr (.inr ⟨x, y, rfl, by simp only [jump_bits, List.append_assoc]⟩)

/-- Settles O2: an instruction's bits, with any behind them, begin with that instruction's bits. -/
theorem chainDecodeInvertsEncode : Obligations.ChainDecodeInvertsEncode :=
  fun _ _ => decodeBits_eq_ok_iff.2 rfl

/-- Settles O3: the decoder's reads answer exactly the fields that the bits begin with. -/
theorem chainDecodeReadsOnlyItsBits : Obligations.ChainDecodeReadsOnlyItsBits :=
  fun _ _ _ => decodeBits_eq_ok_iff.1

/-! ### Command words -/

@[simp] theorem cmdOp_append (op : BitVec 4) (arg : Byte) : cmdOp (op ++ arg) = op :=
  BitVec.extractLsb'_append_eq_left

@[simp] theorem cmdArg_append (op : BitVec 4) (arg : Byte) : cmdArg (op ++ arg) = arg :=
  BitVec.extractLsb'_append_eq_right

/-- A command word is its `op` and its `arg` (R71). -/
theorem cmdOp_append_cmdArg (w : CmdWord) : cmdOp w ++ cmdArg w = w :=
  BitVec.extractLsb'_append_extractLsb'

/-- Every host command has a word, which decodes to it (R72). -/
theorem exists_cmdWord {i : Instr} (h : isCommand i = true) :
    ∃ w : CmdWord, encode i = (12, w.toNat) ∧ decodeCmd w = .ok i := by
  cases i with
  | rdbits n => exact ⟨0x1#4 ++ n, rfl, by simp [decodeCmd]⟩
  | rdbyte a => exact ⟨0x2#4 ++ a, rfl, by simp [decodeCmd]⟩
  | close a => exact ⟨0x3#4 ++ a, rfl, by simp [decodeCmd]⟩
  | lbegin b => exact ⟨0x8#4 ++ b, rfl, by simp [decodeCmd]⟩
  | step a => exact ⟨0x9#4 ++ a, rfl, by simp [decodeCmd]⟩
  | lrun b => exact ⟨0xA#4 ++ b, rfl, by simp [decodeCmd]⟩
  | arun a => exact ⟨0xB#4 ++ a, rfl, by simp [decodeCmd]⟩
  | _ => simp [isCommand] at h

/-- The instruction that a command word decodes to has the word of that `op` and `arg` (R72). -/
theorem encode_of_decodeCmd {w : CmdWord} {i : Instr} (h : decodeCmd w = .ok i) :
    encode i = (12, (cmdOp w ++ cmdArg w).toNat) := by
  unfold decodeCmd at h
  split_ifs at h with hop hop hop hop hop hop hop <;> cases h <;> rw [hop] <;> rfl

/-- No chain instruction has the length of a command word (R61). -/
theorem isCommand_of_encode_length {i : Instr} (h : (encode i).1 = 12) : isCommand i = true := by
  cases hi : isCommand i with
  | true => rfl
  | false =>
    obtain ⟨c, rfl⟩ := exists_toInstr hi
    cases c <;> cases h

/-- Settles O6: the seven `op`s of the table and the seven commands are each other's. -/
theorem commandWordHasOneMeaning : Obligations.CommandWordHasOneMeaning := by
  intro w i
  constructor
  · intro h
    rw [encode_of_decodeCmd h, cmdOp_append_cmdArg]
  · intro h
    obtain ⟨w', hw', hd⟩ := exists_cmdWord (isCommand_of_encode_length (congrArg Prod.fst h))
    have hw : w' = w := BitVec.eq_of_toNat_eq (congrArg Prod.snd (hw'.symm.trans h))
    exact hw ▸ hd

/-! ### Words of the opcode table -/

theorem encode_toInstr (c : ChainInstr) : encode c.toInstr = (c.length, c.word.toNat) := by
  cases c <;> rfl

/-- The longest chain instruction is the JUMP, of 21 bits (R66). -/
theorem ChainInstr.length_le (c : ChainInstr) : c.length ≤ 21 := by
  cases c <;> simp [ChainInstr.length]

/-- The chain instructions' own lengths are among those of the table's chain rows. -/
theorem isChainLength_length (c : ChainInstr) :
    isCmdLength c.length = false ∧ isChainLength c.length = true := by
  cases c <;> exact ⟨rfl, rfl⟩

/-- A number's bits from bit `a` on are those of the number divided by `2 ^ a`. -/
theorem map_testBit_add (a b m : Nat) :
    (List.range (a + b)).map m.testBit =
      (List.range a).map m.testBit ++ (List.range b).map (m / 2 ^ a).testBit := by
  rw [List.range_add, List.map_append, List.map_map]
  congr 1
  refine List.map_congr_left fun i _ => ?_
  rw [Function.comp_apply, Nat.testBit_div_two_pow, Nat.add_comm]

/-- A table word's bytes are laid out as its first 24 bits. -/
theorem streamBits_wordBytes (nbits m : Nat) :
    streamBits (wordBytes nbits m) = bitsOf 24 (BitVec.ofNat 24 (m % 2 ^ nbits)) := by
  rw [wordBytes, streamBits_cons, streamBits_cons, streamBits_cons, streamBits_nil, List.append_nil]
  simp only [bitsOf_ofNat le_rfl]
  rw [map_testBit_add 8 16, map_testBit_add 8 8, Nat.div_div_eq_div_mul, ← pow_add]

/-- The bytes of a chain word begin with the word's bits. -/
theorem exists_streamBits_wordBytes {nbits : Nat} (h : nbits ≤ 24) (v : ChainWord) :
    ∃ rest, streamBits (wordBytes nbits v.toNat) = bitsOf nbits v ++ rest := by
  have htake : (streamBits (wordBytes nbits v.toNat)).take nbits = bitsOf nbits v := by
    rw [streamBits_wordBytes, bitsOf_take _ _ _ h, bitsOf_ofNat h]
    refine List.map_congr_left fun i hi => ?_
    rw [Nat.testBit_mod_two_pow, decide_eq_true (List.mem_range.1 hi), Bool.true_and]
    rfl
  exact ⟨_, htake ▸ (List.take_append_drop nbits _).symm⟩

/-- The bytes of a chain instruction's word decode to it: its bits stand first among theirs. -/
theorem decodeBytes_wordBytes (c : ChainInstr) :
    decodeBytes (wordBytes c.length c.word.toNat) = .ok c := by
  obtain ⟨rest, hrest⟩ := exists_streamBits_wordBytes (c.length_le.trans (by decide)) c.word
  rw [decodeBytes, hrest]
  exact congrArg Prod.fst (chainDecodeInvertsEncode c rest)

/-- Settles O5: a command by its 12 bits, a chain instruction by the bits that its word's bytes begin
with. -/
theorem tableWordDecodesToInstr : Obligations.TableWordDecodesToInstr := by
  intro i
  cases hi : isCommand i with
  | true =>
    obtain ⟨w, hw, hd⟩ := exists_cmdWord hi
    simp [hw, decodeTableWord, isCmdLength, hd, Except.toOption]
  | false =>
    obtain ⟨c, rfl⟩ := exists_toInstr hi
    obtain ⟨hcmd, hchain⟩ := isChainLength_length c
    simp [encode_toInstr, decodeTableWord, hcmd, hchain, decodeBytes_wordBytes, Except.toOption]

/-- Settles O1: each listed word is the one that the encoder writes, but the last, whose `op` is
reserved. -/
theorem listedWordsDecode : Obligations.ListedWordsDecode :=
  have h := tableWordDecodesToInstr
  ⟨h .stepx, h .stepy, h .stepxy, h .dxneg, h .dxpos, h .dyneg, h .dypos, h (.jump 0xAB 0xCD),
    h .stop, h .rsv2, h .rsv3, h (.rdbits 3), h (.lbegin 0), h (.lrun 7), rfl⟩

/-! ### Assembly -/

/-- The spec's `sbit` is a bit of the byte it lies in (R46). -/
theorem decide_sbit_eq_one (bytes : List Byte) (k : Nat) :
    decide (sbit bytes k = 1) = ((bytes[k / 8]?).getD 0).getLsbD (k % 8) := by
  simp [sbit, BitVec.getLsbD, Nat.testBit]

/-- Byte `k` of packed bits holds the bits from `8 * k` on (R76). -/
theorem packBits_getElem? (bits : List Bool) {k : Nat} (h : 8 * k < bits.length) :
    (packBits bits)[k]? = some (BitVec.ofNat 8 (fieldValue ((bits.drop (8 * k)).take 8))) := by
  simp [packBits, show k < (bits.length + 7) / 8 by omega]

theorem packBits_length (bits : List Bool) : (packBits bits).length = (bits.length + 7) / 8 := by
  simp [packBits]

/-- Packed bits are laid out as they were, with zeros behind them to the end of the last byte (R76). -/
theorem streamBits_packBits (bits : List Bool) :
    streamBits (packBits bits) =
      bits ++ List.replicate (8 * ((bits.length + 7) / 8) - bits.length) false := by
  refine List.ext_getElem? fun i => ?_
  rw [streamBits_getElem?, packBits_length, List.getElem?_append, List.getElem?_replicate]
  by_cases hbyte : i < 8 * ((bits.length + 7) / 8)
  · have hbit : decide (sbit (packBits bits) i = 1) = bits[i]?.getD false := by
      rw [decide_sbit_eq_one, packBits_getElem? bits (by omega), Option.getD_some,
        BitVec.getLsbD_ofNat, testBit_fieldValue, List.getElem?_take_of_lt (by omega),
        List.getElem?_drop, Nat.div_add_mod, decide_eq_true (by omega), Bool.true_and]
    rw [if_pos hbyte, hbit]
    by_cases hi : i < bits.length
    · simp [hi]
    · simp [hi, show i - bits.length < 8 * ((bits.length + 7) / 8) - bits.length by omega]
  · rw [if_neg hbyte, if_neg (by omega), if_neg (by omega)]

/-- Settles O4: the bytes lay out the program's bits again, and a pair of the zeros behind them is
STEPX's own bits. -/
theorem assemblyPacksBitsInOrder : Obligations.AssemblyPacksBitsInOrder :=
  ⟨fun prog => ⟨_, by omega, streamBits_packBits (programBits prog)⟩,
    fun rest => chainDecodeInvertsEncode .stepx rest⟩

end Sys2Proof

namespace Sys2Proof.Machine

/-! ### Responses -/

theorem Status.code_le (st : Status) : st.code.toNat ≤ 9 := by
  cases st with
  | ok => decide
  | eos => decide
  | fault c => cases c <;> decide

/-- Settles O7: the word is `status` above `data`, and the codes are the table's. -/
theorem responseWordFields : Obligations.ResponseWordFields :=
  ⟨fun _ => ⟨BitVec.extractLsb'_append_eq_left, BitVec.extractLsb'_append_eq_right⟩,
    rfl, rfl, rfl, rfl, rfl, rfl, rfl, rfl, rfl, rfl, Status.code_le⟩

/-- The host's side is as it was: what it has asked for, and what it has been answered. -/
def PortsKept (s t : State) : Prop := t.inputs = s.inputs ∧ t.rsps = s.rsps

theorem readBits_portsKept (n : Nat) (s : State) : PortsKept s (readBits n s).2 := by
  rcases readBits_cases n s with ⟨-, e⟩ | ⟨-, -, e⟩ | ⟨-, -, -, -, -, e⟩ | ⟨-, -, -, -, -, -, e⟩ |
    ⟨b, -, -, -, -, -, -, e⟩ | ⟨-, -, -, -, e⟩ <;> rw [e] <;> exact ⟨rfl, rfl⟩

theorem closeReader_portsKept (s : State) : PortsKept s (closeReader s).2 := by
  unfold closeReader
  split
  · exact ⟨rfl, rfl⟩
  · split <;> exact ⟨rfl, rfl⟩

theorem PortsKept.trans {s t u : State} (h : PortsKept s t) (h' : PortsKept t u) : PortsKept s u :=
  ⟨h'.1.trans h.1, h'.2.trans h.2⟩

/-- Nothing that a command is made of moves the ports: its one response is given at its end (R73). -/
theorem portsKept_respects : Respects PortsKept where
  refl _ := ⟨rfl, rfl⟩
  trans := PortsKept.trans
  read n s _ := readBits_portsKept n s
  fetch s _ _ := fetchChain_keeps (K := PortsKept s) (fun n a h => h.trans (readBits_portsKept n a))
    ⟨rfl, rfl⟩
  raise _ _ _ := ⟨rfl, rfl⟩
  mark _ _ _ _ := ⟨rfl, rfl⟩
  setDx _ _ _ _ := ⟨rfl, rfl⟩
  setDy _ _ _ _ := ⟨rfl, rfl⟩
  endLayer _ _ _ := ⟨rfl, rfl⟩
  lbegin _ _ _ := ⟨rfl, rfl⟩
  close := closeReader_portsKept

theorem Fits.fault_recorded {s : State} {r : Rsp × State} (h : Fits s r) {c : FaultCode}
    (hc : r.1.status = .fault c) : r.2.fault = some c := by
  simpa only [hc] using h.2

theorem Fits.fault_kept {s : State} {r : Rsp × State} (h : Fits s r)
    (hne : ∀ c, r.1.status ≠ .fault c) : r.2.fault = s.fault := by
  have hfault := h.2
  cases hst : r.1.status with
  | ok => simpa only [hst] using hfault
  | eos => simpa only [hst] using hfault
  | fault c => exact absurd hst (hne c)

/-- Settles O39: a command runs to its one response, which fits the state it leaves. -/
theorem oneResponsePerCommand : Obligations.OneResponsePerCommand := by
  intro s t w rest hin ht
  rcases step_cases portsKept_respects ht with
    ⟨hnil, -⟩ | ⟨p, d, f, rest', hreset, -⟩ | ⟨w', rest', r, s', hcmd, rfl, ⟨hinputs, hrsps⟩, hfit, heos⟩
  · simp [hin] at hnil
  · simp [hin] at hreset
  · obtain ⟨rfl, rfl⟩ : w = w' ∧ rest = rest' := by simpa [hin] using hcmd
    exact ⟨hinputs, r, congrArg (· ++ [r]) hrsps, hfit.1, fun _ => hfit.fault_recorded,
      hfit.fault_kept, heos⟩

/-- Settles O41: the four meanings do not take the argument. -/
theorem ignoredArgumentsHaveNoEffect : Obligations.IgnoredArgumentsHaveNoEffect :=
  fun _ _ _ => ⟨rfl, rfl, rfl, rfl⟩

end Sys2Proof.Machine


namespace Sys2Proof.Machine

/-! ### Fields of the stream -/

/-- A field of `a + b` bits is the field of the first `a` below that of the `b` behind them (R47). -/
theorem field_add (data : List Byte) (p a b : Nat) :
    field data p (a + b) = field data p a + 2 ^ a * field data (p + a) b := by
  simp only [field, List.range_add, List.map_append, List.sum_append, List.map_map,
    ← List.sum_map_mul_left]
  congr 2
  refine List.map_congr_left fun i _ => ?_
  simp only [Function.comp, Nat.shiftLeft_eq, pow_add, Nat.add_assoc]
  ring

theorem field_lt (data : List Byte) (p n : Nat) : field data p n < 2 ^ n := by
  induction n with
  | zero => simp [field]
  | succ n ih =>
    have hbit : field data (p + n) 1 = sbit data (p + n) := by simp [field]
    rw [field_add, hbit, pow_succ]
    rcases sbit_eq data (p + n) with h | h <;> rw [h] <;> omega

/-- The field of a whole byte on a byte boundary is that byte (R46, R47). -/
theorem field_byte {data : List Byte} {k : Nat} {b : Byte} (h : data[k]? = some b) :
    field data (8 * k) 8 = b.toNat := by
  obtain ⟨hlt, hb⟩ := List.getElem?_eq_some_iff.1 h
  rw [field_eq _ _ _ (by omega), ← streamBits_drop, List.drop_eq_getElem_cons hlt, hb,
    streamBits_cons, List.take_left' (bitsOf_length 8 b), fieldValue_bitsOf, Nat.mod_eq_of_lt b.isLt]

/-! ### `bitpos` says how the reader stands -/

/-- R15: `bitpos` is the source's position less the buffered bits, without truncation. -/
theorem State.Inv.bitpos_add_fill {s : State} (h : s.Inv) :
    s.bitpos + s.br.fill.toNat = 8 * s.src.pos := by
  have := h.fill_le_pos
  simp only [State.bitpos]
  omega

/-- R88: the source has delivered the bytes that the consumed bits lie in, and no more. -/
theorem State.Inv.pos_eq {s : State} (h : s.Inv) : s.src.pos = (s.bitpos + 7) / 8 := by
  have := h.bitpos_add_fill
  have := h.fill_le
  omega

/-- The buffered bits, and those of all the bytes not yet delivered, are the stream from `bitpos` on:
the bits ahead of a source that has no failure point. -/
theorem State.Inv.bits_append {s : State} (h : s.Inv) :
    s.br.bits ++ streamBits (s.src.data.drop s.src.pos) = (streamBits s.src.data).drop s.bitpos := by
  have hinv : State.Inv { s with src := { s.src with failAt := none } } :=
    ⟨h.fill_le, h.buf_lt, h.fill_le_pos, h.pos_le, h.buf_holds, h.grid_wf, h.active_cleared,
      h.src_closed⟩
  exact ahead_eq_stream hinv rfl

/-- R12, R15: the buffer's value is the field of the stream that begins at `bitpos`. -/
theorem State.Inv.buf_eq_field {s : State} (h : s.Inv) :
    s.br.buf.toNat = field s.src.data s.bitpos s.br.fill.toNat := by
  have hpos := h.bitpos_add_fill
  have hle := h.pos_le
  rw [field_eq _ _ _ (by omega), ← h.bits_append, List.take_left' s.br.bits_length, BitReader.bits,
    fieldValue_bitsOf, Nat.mod_eq_of_lt h.buf_lt]

/-- Where the invariant holds, `bitpos` and the closed flag determine what reads have made of a state. -/
theorem withReader_ext {s t u : State} (ht : t.Inv) (hu : u.Inv)
    (hts : ∃ br pos, t = s.withReader br pos) (hus : ∃ br pos, u = s.withReader br pos)
    (hbit : t.bitpos = u.bitpos) (hclosed : t.br.closed = u.br.closed) : t = u := by
  have hpos : t.src.pos = u.src.pos := by rw [ht.pos_eq, hu.pos_eq, hbit]
  have hfill : t.br.fill = u.br.fill := BitVec.eq_of_toNat_eq (by
    have := ht.bitpos_add_fill
    have := hu.bitpos_add_fill
    omega)
  have hdata : t.src.data = u.src.data := by
    obtain ⟨_, _, rfl⟩ := hts
    obtain ⟨_, _, rfl⟩ := hus
    rfl
  have hbuf : t.br.buf = u.br.buf := BitVec.eq_of_toNat_eq (by
    rw [ht.buf_eq_field, hu.buf_eq_field, hdata, hbit, hfill])
  obtain ⟨⟨tbuf, tfill, tclosed⟩, tpos, rfl⟩ := hts
  obtain ⟨⟨ubuf, ufill, uclosed⟩, upos, rfl⟩ := hus
  cases hbuf
  cases hfill
  cases hclosed
  cases hpos
  rfl

/-! ### The equations of a read, one per ending of R80 -/

theorem readBits_closed (n : Nat) {s : State} (hc : s.br.closed = true) :
    readBits n s = (.error (.fault .useAfterClose), raise .useAfterClose s) := by
  rw [readBits, if_pos hc]

theorem readBits_badLength {n : Nat} {s : State} (hc : s.br.closed = false)
    (hn : ¬ (1 ≤ n ∧ n ≤ Config.nmax)) :
    readBits n s = (.error (.fault .badLength), raise .badLength s) := by
  rw [readBits, if_neg (by simp [hc]), if_pos (by omega)]

/-- A legal length needs a pull exactly where the buffer holds fewer bits (R88). -/
theorem readBits_open {n : Nat} {s : State} (hc : s.br.closed = false) (h1 : 1 ≤ n)
    (hn : n ≤ Config.nmax) :
    readBits n s = if s.br.fill.toNat < n then pullAndTake n s else takeLow n s := by
  rw [readBits, if_neg (by simp [hc]), if_neg (by omega)]

theorem readBits_pullFails {n : Nat} {s : State} (hc : s.br.closed = false) (h1 : 1 ≤ n)
    (hn : n ≤ Config.nmax) (hfill : s.br.fill.toNat < n) (hfail : s.src.failAt = some s.src.pos) :
    readBits n s = (.error (.fault .ioFailure), raise .ioFailure s) := by
  rw [readBits_open hc h1 hn, if_pos hfill, pullAndTake, pull_fail _ hfail]

theorem readBits_ends {n : Nat} {s : State} (hc : s.br.closed = false) (h1 : 1 ≤ n)
    (hn : n ≤ Config.nmax) (hfill : s.br.fill.toNat < n) (hfail : s.src.failAt ≠ some s.src.pos)
    (hend : s.src.data.length ≤ s.src.pos) : readBits n s = (.error .eos, s) := by
  rw [readBits_open hc h1 hn, if_pos hfill, pullAndTake,
    pull_eos _ hfail (List.getElem?_eq_none hend)]

/-- A read completes where the buffer holds its bits or the source delivers a byte. -/
theorem readBits_completes {n : Nat} {s : State} (hc : s.br.closed = false) (h1 : 1 ≤ n)
    (hn : n ≤ Config.nmax) (hbyte : s.br.fill.toNat < n →
      s.src.pos < s.src.data.length ∧ s.src.failAt ≠ some s.src.pos) :
    ∃ v t, readBits n s = (.ok v, t) := by
  rw [readBits_open hc h1 hn]
  split
  next hfill =>
    obtain ⟨hlt, hfail⟩ := hbyte hfill
    rw [pullAndTake, pull_byte _ _ hfail (List.getElem?_eq_getElem hlt)]
    exact ⟨_, _, rfl⟩
  next => exact ⟨_, _, rfl⟩

/-! ### Their inversions -/

/-- What a read that answers a value needed, and the state it leaves: it has pulled one byte exactly
where the buffer held fewer than `n` bits (R80, R88). -/
theorem readBits_eq_ok {n : Nat} {s t : State} {v : Byte} (h : readBits n s = (.ok v, t)) :
    s.br.closed = false ∧ 1 ≤ n ∧ n ≤ Config.nmax ∧
      (s.br.fill.toNat < n → s.src.pos < s.src.data.length ∧ s.src.failAt ≠ some s.src.pos) ∧
      ∃ br, t = s.withReader br (s.src.pos + if s.br.fill.toNat < n then 1 else 0) ∧
        br.closed = false := by
  rcases readBits_cases n s with ⟨-, e⟩ | ⟨-, -, e⟩ | ⟨-, -, -, -, -, e⟩ | ⟨-, -, -, -, -, -, e⟩ |
    ⟨b, hc, h1, hn, hfill, hfail, hd, e⟩ | ⟨hc, h1, hn, hfill, e⟩ <;> rw [e] at h <;> cases h
  · obtain ⟨hlt, -⟩ := List.getElem?_eq_some_iff.1 hd
    exact ⟨hc, h1, hn, fun _ => ⟨hlt, hfail⟩, (s.br.push b).drop n, by rw [if_pos hfill], hc⟩
  · exact ⟨hc, h1, hn, fun hlt => absurd hlt (by omega), s.br.drop n, by rw [if_neg (by omega)]; rfl,
      hc⟩

/-- What makes a read answer `Eos` (R80). -/
theorem readBits_eq_eos {n : Nat} {s t : State} (h : readBits n s = (.error .eos, t)) :
    s.br.closed = false ∧ 1 ≤ n ∧ n ≤ Config.nmax ∧ s.br.fill.toNat < n ∧
      s.src.failAt ≠ some s.src.pos ∧ s.src.data.length ≤ s.src.pos := by
  rcases readBits_cases n s with ⟨-, e⟩ | ⟨-, -, e⟩ | ⟨-, -, -, -, -, e⟩ |
    ⟨hc, h1, hn, hfill, hfail, hd, e⟩ | ⟨b, -, -, -, -, -, -, e⟩ | ⟨-, -, -, -, e⟩ <;>
    rw [e] at h <;> cases h
  exact ⟨hc, h1, hn, hfill, hfail, List.getElem?_eq_none_iff.1 hd⟩

/-- A read without a value leaves the reader and the source as they were (R80). -/
theorem readBits_error_state {n : Nat} {s t : State} {e : ReadStop}
    (h : readBits n s = (.error e, t)) : t.br = s.br ∧ t.src = s.src := by
  cases e with
  | eos => rw [readBits_eos_state h]; exact ⟨rfl, rfl⟩
  | fault c => rw [readBits_fault_state h]; exact ⟨rfl, rfl⟩

/-! ### The stream law -/

/-- What the source still delivers are the first of the bytes it has not delivered (R42). -/
theorem Source.ahead_isPrefix (src : Source) : src.ahead <+: src.data.drop src.pos := by
  unfold Source.ahead
  split
  · exact ⟨[], List.append_nil _⟩
  · split
    · rw [List.drop_take]
      exact ⟨_, List.take_append_drop _ _⟩
    · exact ⟨[], List.append_nil _⟩

theorem State.Inv.ahead_isPrefix {s : State} (h : s.Inv) :
    s.ahead <+: (streamBits s.src.data).drop s.bitpos := by
  obtain ⟨rest, hrest⟩ := s.src.ahead_isPrefix
  rw [← h.bits_append, ← hrest, streamBits_append, ← List.append_assoc]
  exact ⟨_, rfl⟩

/-- The bits that a read answers are the next ones of the stream (R84). -/
theorem readBits_ok_field {n : Nat} {s t : State} {v : Byte} (hs : s.Inv)
    (h : readBits n s = (.ok v, t)) :
    s.bitpos + n ≤ 8 * s.src.data.length ∧ v.toNat = field s.src.data s.bitpos n ∧
      t.bitpos = s.bitpos + n := by
  obtain ⟨hc, h1, hn, -, -⟩ := readBits_eq_ok h
  have hlen : n ≤ s.ahead.length := by
    by_contra hlt
    rw [readBits_of_lt hs hc h1 hn (by omega)] at h
    split at h <;> cases h
  obtain ⟨br, pos, e, -, -, -, hbit, -⟩ := readBits_of_le hs hc h1 hn hlen
  rw [e] at h
  cases h
  obtain ⟨rest, hrest⟩ := hs.ahead_isPrefix
  have hbound : s.bitpos + n ≤ 8 * s.src.data.length := by
    have := congrArg List.length hrest
    rw [List.length_append, List.length_drop, streamBits_length] at this
    omega
  have hlt := field_lt s.src.data s.bitpos n
  have hpow : 2 ^ n ≤ 2 ^ 8 := Nat.pow_le_pow_right (by omega) hn
  have hfield : field s.src.data s.bitpos n = fieldValue (s.ahead.take n) := by
    rw [field_eq _ _ _ hbound, ← hrest, List.take_append_of_le_length hlen]
  refine ⟨hbound, ?_, hbit⟩
  rw [← hfield, BitVec.toNat_ofNat, Nat.mod_eq_of_lt (by omega)]

/-- A read completes where the stream has its bits and the pull it needs does not fail (R84). -/
theorem readBits_completes_of_stream {n : Nat} {s : State} (hs : s.Inv) (hc : s.br.closed = false)
    (h1 : 1 ≤ n) (hn : n ≤ Config.nmax)
    (hfail : ¬ (s.br.fill.toNat < n ∧ s.src.failAt = some s.src.pos))
    (hlen : s.bitpos + n ≤ 8 * s.src.data.length) : ∃ v t, readBits n s = (.ok v, t) := by
  refine readBits_completes hc h1 hn fun hfill => ⟨?_, fun h => hfail ⟨hfill, h⟩⟩
  have := hs.bitpos_add_fill
  omega

/-- A read answers `Eos` where the stream lacks its bits and the pull it needs does not fail (R84). -/
theorem readBits_ends_of_stream {n : Nat} {s : State} (hs : s.Inv) (hc : s.br.closed = false)
    (h1 : 1 ≤ n) (hn : n ≤ Config.nmax)
    (hfail : ¬ (s.br.fill.toNat < n ∧ s.src.failAt = some s.src.pos))
    (hlen : 8 * s.src.data.length < s.bitpos + n) : readBits n s = (.error .eos, s) := by
  have hpos := hs.bitpos_add_fill
  have hle := hs.pos_le
  have hfl := hs.fill_le
  have hn8 : n ≤ 8 := hn
  exact readBits_ends hc h1 hn (by omega) (fun h => hfail ⟨by omega, h⟩) (by omega)

/-- Settles O9: a read completes where the stream has its bits, and ends where it lacks them. -/
theorem streamLaw : Obligations.StreamLaw := by
  intro s n hs hc h1 hn
  refine ⟨fun hfail => ⟨fun hlen => ?_, fun hlen => ?_⟩, fun c t h => ?_⟩
  · obtain ⟨v, t, e⟩ := readBits_completes_of_stream hs hc h1 hn hfail hlen
    obtain ⟨-, hv, hbit⟩ := readBits_ok_field hs e
    exact ⟨v, t, e, hv, hbit⟩
  · exact ⟨s, readBits_ends_of_stream hs hc h1 hn hfail hlen, rfl⟩
  · rw [readBits_fault_state h]
    rfl

/-! ### Two reads in a row -/

/-- The state behind a read that answers a value keeps the invariant. -/
theorem readBits_ok_keeps_inv {n : Nat} {s t : State} {v : Byte} (hs : s.Inv)
    (h : readBits n s = (.ok v, t)) : t.Inv := by
  simpa only [h] using readBits_inv hs n

/-- The values of two reads in a row make up one field (R85). -/
theorem field_of_two_reads {a b : Nat} {s s1 s2 : State} {v1 v2 : Byte} (hs : s.Inv)
    (h1 : readBits a s = (.ok v1, s1)) (h2 : readBits b s1 = (.ok v2, s2)) :
    v1.toNat ||| (v2.toNat <<< a) = field s.src.data s.bitpos (a + b) := by
  obtain ⟨-, hv1, hbit1⟩ := readBits_ok_field hs h1
  obtain ⟨-, hv2, -⟩ := readBits_ok_field (readBits_ok_keeps_inv hs h1) h2
  obtain ⟨-, -, -, -, br, rfl, -⟩ := readBits_eq_ok h1
  rw [hbit1, withReader_data] at hv2
  have hlow : v1.toNat < 2 ^ a := hv1 ▸ field_lt _ _ _
  rw [field_add, ← hv1, ← hv2, Nat.shiftLeft_eq, Nat.mul_comm v2.toNat, Nat.or_comm,
    ← Nat.two_pow_add_eq_or_of_lt hlow, Nat.add_comm]

/-- Behind a read that pulled no byte, the source stands where it stood and the buffer holds the bits
that were not read (R80). -/
theorem readBits_ok_of_le {n : Nat} {s t : State} {v : Byte} (hs : s.Inv)
    (h : readBits n s = (.ok v, t)) (hfill : n ≤ s.br.fill.toNat) :
    t.src = s.src ∧ t.br.fill.toNat + n = s.br.fill.toNat := by
  obtain ⟨-, -, hbit⟩ := readBits_ok_field hs h
  have hfill_t := (readBits_ok_keeps_inv hs h).bitpos_add_fill
  have hfill_s := hs.bitpos_add_fill
  obtain ⟨-, -, -, -, br, e, -⟩ := readBits_eq_ok h
  rw [if_neg (by omega), Nat.add_zero] at e
  subst e
  rw [withReader_pos] at hfill_t
  exact ⟨rfl, by omega⟩

/-- A read whose two parts complete completes, in the state that they leave (R85). -/
theorem readBits_add {a b : Nat} {s s1 s2 : State} {v1 v2 : Byte} (hs : s.Inv)
    (h1 : readBits a s = (.ok v1, s1)) (h2 : readBits b s1 = (.ok v2, s2))
    (hn : a + b ≤ Config.nmax) : ∃ v, readBits (a + b) s = (.ok v, s2) := by
  have hs1 := readBits_ok_keeps_inv hs h1
  obtain ⟨-, -, hbit1⟩ := readBits_ok_field hs h1
  obtain ⟨hlen, -, hbit2⟩ := readBits_ok_field hs1 h2
  obtain ⟨hc, ha, -, hbyte1, br1, e1, -⟩ := readBits_eq_ok h1
  obtain ⟨-, -, -, hbyte2, br2, e2, hc2⟩ := readBits_eq_ok h2
  have hfail : ¬ (s.br.fill.toNat < a + b ∧ s.src.failAt = some s.src.pos) := by
    rintro ⟨hfill, hfail⟩
    rcases Nat.lt_or_ge s.br.fill.toNat a with hlt | hge
    · exact (hbyte1 hlt).2 hfail
    · obtain ⟨hsrc, hfill1⟩ := readBits_ok_of_le hs h1 hge
      exact (hbyte2 (by omega)).2 (hsrc ▸ hfail)
  have hdata : s1.src.data = s.src.data := by rw [e1, withReader_data]
  obtain ⟨v, t, e⟩ := readBits_completes_of_stream hs hc (Nat.le_add_right_of_le ha) hn hfail
    (by rw [hbit1, hdata] at hlen; omega)
  obtain ⟨-, -, hbit⟩ := readBits_ok_field hs e
  obtain ⟨-, -, -, -, br, et, hct⟩ := readBits_eq_ok e
  have hts : t = s2 := withReader_ext (s := s) (readBits_ok_keeps_inv hs e)
    (readBits_ok_keeps_inv hs1 h2) ⟨_, _, et⟩ ⟨_, _, by rw [e2, e1, withReader_withReader]⟩
    (by omega) (by rw [et, e2, withReader_br, withReader_br, hct, hc2])
  exact ⟨v, hts ▸ e⟩

/-- A read whose second part answers `Eos` answers `Eos`: with at most 8 bits in all, the first part has
pulled no byte (R85). -/
theorem readBits_add_eos {a b : Nat} {s s1 s2 : State} {v1 : Byte} (hs : s.Inv)
    (h1 : readBits a s = (.ok v1, s1)) (h2 : readBits b s1 = (.error .eos, s2))
    (hn : a + b ≤ Config.nmax) : readBits (a + b) s = (.error .eos, s) := by
  have hs1 := readBits_ok_keeps_inv hs h1
  obtain ⟨-, -, hbit1⟩ := readBits_ok_field hs h1
  obtain ⟨hc, ha, -, -, br1, e1, -⟩ := readBits_eq_ok h1
  obtain ⟨-, -, -, hfill, hfail, hend⟩ := readBits_eq_eos h2
  have hfill_s := hs.bitpos_add_fill
  have hfill_s1 := hs1.bitpos_add_fill
  have hn8 : a + b ≤ 8 := hn
  have hge : a ≤ s.br.fill.toNat := by
    by_contra hlt
    have hpos : s1.src.pos = s.src.pos + 1 := by rw [e1, withReader_pos, if_pos (by omega)]
    omega
  obtain ⟨hsrc, hfill1⟩ := readBits_ok_of_le hs h1 hge
  rw [hsrc] at hfail hend
  exact readBits_ends hc (Nat.le_add_right_of_le ha) hn (by omega) hfail hend

/-- Settles O10: the two fields make up one, and `bitpos` determines the reader. -/
theorem concatenationLaw : Obligations.ConcatenationLaw := by
  intro s s1 a b v1 hs h1
  refine ⟨fun v2 s2 h2 => ⟨field_of_two_reads hs h1 h2, fun hn => ?_⟩, fun s2 h2 hn => ?_⟩
  · obtain ⟨v, e⟩ := readBits_add hs h1 h2 hn
    obtain ⟨-, hv, -⟩ := readBits_ok_field hs e
    exact ⟨v, e, hv.trans (field_of_two_reads hs h1 h2).symm⟩
  · obtain ⟨-, -, hbit⟩ := readBits_ok_field hs h1
    exact ⟨readBits_eos_state h2, hbit, readBits_add_eos hs h1 h2 hn⟩

/-! ### Reads of whole bytes -/

/-- A read of 8 bits leaves as many bits in the buffer as it found (R82). -/
theorem readBits_eight_fill {s t : State} {v : Byte} (hs : s.Inv)
    (h : readBits 8 s = (.ok v, t)) : t.br.fill = s.br.fill := by
  have ht := readBits_ok_keeps_inv hs h
  obtain ⟨-, -, hbit⟩ := readBits_ok_field hs h
  have := hs.bitpos_add_fill
  have := ht.bitpos_add_fill
  have := hs.fill_le
  have := ht.fill_le
  exact BitVec.eq_of_toNat_eq (by omega)

/-- With an empty buffer a read of 8 bits answers the next byte, and the buffer is empty again (R86). -/
theorem readBits_eight_byte {s : State} {b : Byte} (hs : s.Inv) (hc : s.br.closed = false)
    (hfill : s.br.fill = 0) (hfail : s.src.failAt ≠ some s.src.pos)
    (hb : s.src.data[s.src.pos]? = some b) :
    ∃ br, readBits 8 s = (.ok b, s.withReader br (s.src.pos + 1)) ∧ br.closed = false ∧
      br.fill = 0 := by
  have hfill0 : s.br.fill.toNat = 0 := by rw [hfill]; rfl
  obtain ⟨hlt, -⟩ := List.getElem?_eq_some_iff.1 hb
  obtain ⟨v, t, e⟩ := readBits_completes (n := 8) hc (by decide) le_rfl fun _ => ⟨hlt, hfail⟩
  have hfill_t := readBits_eight_fill hs e
  obtain ⟨-, hv, -⟩ := readBits_ok_field hs e
  obtain ⟨-, -, -, -, br, rfl, hbr⟩ := readBits_eq_ok e
  have hbit : s.bitpos = 8 * s.src.pos := by
    have := hs.bitpos_add_fill
    omega
  rw [hbit, field_byte hb] at hv
  obtain rfl := BitVec.eq_of_toNat_eq hv
  rw [hfill0, if_pos (by decide)] at e
  exact ⟨br, e, hbr, hfill_t.trans hfill⟩

/-- A source whose failure point lies behind it or past its data does not fail at its position. -/
theorem failAt_ne_pos {src : Source} (hle : src.pos ≤ src.data.length)
    (hfail : ∀ p, src.failAt = some p → p < src.pos ∨ src.data.length < p) :
    src.failAt ≠ some src.pos := fun h => by
  have := hfail _ h
  omega

/-- Reads of 8 bits from an empty buffer answer the `k` bytes that the source has not delivered, and
then `Eos` (R86). -/
theorem readBytes_remaining (k : Nat) {s : State} (hs : s.Inv) (hc : s.br.closed = false)
    (hfill : s.br.fill = 0) (hfail : ∀ p, s.src.failAt = some p → p < s.src.pos ∨ s.src.data.length < p)
    (hk : s.src.data.length = s.src.pos + k) :
    (readBytes k s).1 = (s.src.data.drop s.src.pos).map .ok ∧
      (readBits 8 (readBytes k s).2).1 = .error .eos := by
  induction k generalizing s with
  | zero =>
    have hfill0 : s.br.fill.toNat < 8 := by rw [hfill]; decide
    have hend : readBits 8 s = (.error .eos, s) := readBits_ends hc (by decide) le_rfl hfill0
      (failAt_ne_pos hs.pos_le hfail) (by omega)
    rw [readBytes, hend, List.drop_eq_nil_of_le (by omega)]
    exact ⟨rfl, rfl⟩
  | succ k ih =>
    have hlt : s.src.pos < s.src.data.length := by omega
    obtain ⟨br, e, hbr, hbr0⟩ := readBits_eight_byte hs hc hfill (failAt_ne_pos hs.pos_le hfail)
      (List.getElem?_eq_getElem hlt)
    obtain ⟨hread, hend⟩ := ih (readBits_ok_keeps_inv hs e) hbr hbr0
      (fun p hp => (hfail p hp).imp_left Nat.lt_succ_of_lt)
      (by rw [withReader_data, withReader_pos]; omega)
    simp only [readBytes, e]
    rw [hread, List.drop_eq_getElem_cons hlt]
    exact ⟨rfl, hend⟩

/-- Settles O11: one read per byte not delivered. -/
theorem byteRoundTrip : Obligations.ByteRoundTrip := by
  intro s hs hc hfill hfail
  have := hs.pos_le
  exact readBytes_remaining _ hs hc hfill hfail (by omega)

/-! ### Pulls, and the end of the stream -/

/-- Settles O12: the position moves as `readBits_eq_ok` says, and the invariant ties it to `bitpos`. -/
theorem pullsOnlyAsNeeded : Obligations.PullsOnlyAsNeeded := by
  refine ⟨fun n s t v h => ?_, fun n s t e h => ?_, fun n s => readBits_completes, fun s t hs h => ?_⟩
  · obtain ⟨-, h1, hn, -, br, rfl, -⟩ := readBits_eq_ok h
    have hn8 : n ≤ 8 := hn
    rw [withReader_pos]
    split <;> omega
  · rw [(readBits_error_state h).2]
  · exact (stepKeepsInvariant s t hs h).pos_eq

/-- Settles O13: a read of buffered bits needs no pull. -/
theorem endOfStreamLeavesReaderUsable : Obligations.EndOfStreamLeavesReaderUsable := by
  intro n s t h
  obtain ⟨hc, -⟩ := readBits_eq_eos h
  obtain rfl := readBits_eos_state h
  exact ⟨rfl, fun k h1 hk hn => readBits_completes hc h1 hn fun hlt => absurd hlt (by omega)⟩

/-! ### The read commands -/

/-- A read command behind a recorded fault answers that fault and changes nothing (R143). -/
theorem exec_rdbits_of_fault (n : Byte) {s : State} {c : FaultCode} (hf : s.fault = some c) :
    exec (.rdbits n) s = .next (respond { status := .fault c, data := 0 } s) := by
  simp only [exec, execRdbits, rdbits, gated_some hf, answer]

/-- With no fault recorded, RDBITS answers what its read answers, in the state that the read leaves
(R81). -/
theorem exec_rdbits_of_read {n : Byte} {s t : State} {a : Except ReadStop Byte} (hf : s.fault = none)
    (h : readBits n.toNat s = (a, t)) : exec (.rdbits n) s = .next (respond (readRsp a) t) := by
  simp only [exec, execRdbits, rdbits, gated_none hf, readCommand, lengthOperand, h, answer]

/-- RDBITS answers a fault that its read raises (R81, R142). -/
theorem exec_rdbits_of_read_fault {n : Byte} {s : State} {c : FaultCode} (hf : s.fault = none)
    (h : readBits n.toNat s = (.error (.fault c), raise c s)) :
    exec (.rdbits n) s = .next { s with
      fault := some c
      rsps := s.rsps ++ [{ status := .fault c, data := 0 }] } := by
  rw [exec_rdbits_of_read hf h, raise_of_none c s hf]
  rfl

/-- RDBITS where the stream has the bits: the field, and the reader that stands behind it (R81). -/
theorem exec_rdbits_completes {n : Byte} {s : State} (hs : s.Inv) (hf : s.fault = none)
    (hc : s.br.closed = false) (h1 : 1 ≤ n.toNat) (hn : n.toNat ≤ Config.nmax)
    (hfail : ¬ (s.br.fill.toNat < n.toNat ∧ s.src.failAt = some s.src.pos))
    (hlen : s.bitpos + n.toNat ≤ 8 * s.src.data.length) :
    ∃ (v : Byte) (br : BitReader) (pos : Nat),
      exec (.rdbits n) s = .next { s with
        br := br
        src := { s.src with pos := pos }
        rsps := s.rsps ++ [{ status := .ok, data := v }] } ∧
      v.toNat = field s.src.data s.bitpos n.toNat ∧
      pos = s.src.pos + (if s.br.fill.toNat < n.toNat then 1 else 0) ∧
      s.bitpos + n.toNat + br.fill.toNat = 8 * pos ∧
      br.buf.toNat = field s.src.data (s.bitpos + n.toNat) br.fill.toNat ∧
      br.closed = false := by
  obtain ⟨v, t, e⟩ := readBits_completes_of_stream hs hc h1 hn hfail hlen
  obtain ⟨-, hv, hbit⟩ := readBits_ok_field hs e
  have ht := readBits_ok_keeps_inv hs e
  obtain ⟨-, -, -, -, br, rfl, hbr⟩ := readBits_eq_ok e
  exact ⟨v, br, _, exec_rdbits_of_read hf e, hv, rfl, hbit ▸ ht.bitpos_add_fill,
    hbit ▸ ht.buf_eq_field, hbr⟩

/-- Settles O14: the gate, then the read's endings in their order. -/
theorem rdbitsReadsField : Obligations.RdbitsReadsField := by
  intro n s
  refine ⟨by simp [decodeCmd], fun c => exec_rdbits_of_fault n, fun hf hc => ?_, fun hf hc hn => ?_,
    fun hf hc h1 hn hfill hfail => ?_, fun hs hf hc h1 hn hfail => ⟨fun hlen => ?_, fun hlen => ?_⟩⟩
  · exact exec_rdbits_of_read_fault hf (readBits_closed _ hc)
  · exact exec_rdbits_of_read_fault hf (readBits_badLength hc hn)
  · exact exec_rdbits_of_read_fault hf (readBits_pullFails hc h1 hn hfill hfail)
  · exact exec_rdbits_completes hs hf hc h1 hn hfail hlen
  · exact exec_rdbits_of_read hf (readBits_ends_of_stream hs hc h1 hn hfail hlen)

/-- RDBYTE is RDBITS 8 (R82). -/
theorem exec_rdbyte (arg : Byte) (s : State) : exec (.rdbyte arg) s = exec (.rdbits 8) s := rfl

/-- A read of a legal length never raises `BAD_LENGTH` (R146). -/
theorem readBits_fault_ne_badLength {n : Nat} {s : State} (h1 : 1 ≤ n) (hn : n ≤ Config.nmax)
    (hf : s.fault = none) : (readBits n s).2.fault ≠ some .badLength := by
  rcases readBits_cases n s with ⟨-, e⟩ | ⟨-, hbad, -⟩ | ⟨-, -, -, -, -, e⟩ | ⟨-, -, -, -, -, -, e⟩ |
    ⟨b, -, -, -, -, -, -, e⟩ | ⟨-, -, -, -, e⟩
  · simp [e, raise_fault_of_none _ s hf]
  · exact absurd ⟨h1, hn⟩ hbad
  · simp [e, raise_fault_of_none _ s hf]
  · simp [e, hf]
  · simp [e, hf]
  · simp [e, hf]

/-- Settles O15: the length 8 is legal, and reading it leaves the fill length as it was. -/
theorem rdbyteIsRdbitsEight : Obligations.RdbyteIsRdbitsEight := by
  refine ⟨fun arg s => ⟨by simp [decodeCmd], exec_rdbyte arg s⟩, fun arg s t hf h => ?_,
    fun arg s hs hf hc hfail hlen => ?_⟩
  · rw [exec_rdbyte, exec_rdbits_of_read (n := 8) hf rfl] at h
    cases h
    exact readBits_fault_ne_badLength (by decide) le_rfl hf
  · obtain ⟨v, t, e⟩ := readBits_completes_of_stream (n := 8) hs hc (by decide) le_rfl
      (fun h => hfail h.2) hlen
    have hfill := readBits_eight_fill hs e
    obtain ⟨-, hv, -⟩ := readBits_ok_field hs e
    obtain ⟨-, -, -, -, br, rfl, hbr⟩ := readBits_eq_ok e
    exact ⟨v, br, _, exec_rdbits_of_read (n := 8) hf e, hbr, hfill, hv⟩

/-! ### CLOSE -/

/-- The first CLOSE closes the reader, and the source where `PROPAGATE_CLOSE` is 1 (R83). -/
theorem closeReader_open {s : State} (hc : s.br.closed = false) :
    closeReader s = ({ status := .ok, data := 0 }, { s with
      br := { s.br with closed := true }
      src := { s.src with closed := s.src.closed || s.propagateClose } }) := by
  rw [closeReader, if_neg (by simp [hc])]
  by_cases hp : s.propagateClose = true
  · have hor : (s.src.closed || s.propagateClose) = true := by rw [hp, Bool.or_true]
    rw [if_pos hp, hor]
    rfl
  · have hor : (s.src.closed || s.propagateClose) = s.src.closed := by
      rw [Bool.eq_false_of_not_eq_true hp, Bool.or_false]
    rw [if_neg hp, hor]
    rfl

/-- A later CLOSE changes nothing (R83, D9). -/
theorem closeReader_closed {s : State} (hc : s.br.closed = true) :
    closeReader s = ({ status := .ok, data := 0 }, s) := by
  rw [closeReader, if_pos hc]

/-- No CLOSE opens the reader. -/
theorem closeReader_br_closed (s : State) : (closeReader s).2.br.closed = true := by
  cases hc : s.br.closed with
  | true => rw [closeReader_closed hc]; exact hc
  | false => rw [closeReader_open hc]

/-- Everything a command is made of leaves a closed reader closed. -/
theorem closed_respects : Respects fun s t => s.br.closed = true → t.br.closed = true where
  refl _ := id
  trans h1 h2 := h2 ∘ h1
  read n s _ h := (sourceKept_readBits n s).brClosed.trans h
  fetch s _ _ h := (sourceKept_fetchChain s).brClosed.trans h
  raise _ _ _ := id
  mark _ _ _ _ := id
  setDx _ _ _ _ := id
  setDy _ _ _ _ := id
  endLayer _ _ _ := id
  lbegin _ _ _ := id
  close s _ := closeReader_br_closed s

/-- The first read of a fetch from a closed reader faults, and with it the instruction (R122, R145). -/
theorem decodeOne_closed {s : State} (hc : s.br.closed = true) :
    decodeOne s = (.fault .useAfterClose, raise .useAfterClose s) := by
  simp only [decodeOne, fetchChain, decodeWith, readBits_closed 2 hc]

/-- Settles O16: the two cases of CLOSE, and nothing but a reset opens the reader. -/
theorem closeClosesOnce : Obligations.CloseClosesOnce := by
  refine ⟨fun arg => by simp [decodeCmd], fun arg s hc => ?_, fun arg s hc => ?_,
    fun arg s hc ha hf => ?_, fun s t hc h => ?_⟩
  · simp only [exec, execClose, closeReader_open hc, answer, respond]
  · simp only [exec, execClose, closeReader_closed hc, answer, respond]
  · simp only [exec, execStep, stepCommand, gated_none hf, stepBody, if_pos ha, decodeOne_closed hc,
      raise_of_none _ s hf, answer, respond, Ending.rsp]
  · rcases step_cases closed_respects h with
      ⟨-, rfl⟩ | ⟨p, d, f, rest, hin, -⟩ | ⟨w, rest, r, s', -, rfl, hkeep, -, -⟩
    · exact .inr hc
    · exact .inl (by simp [State.resetComes, hin])
    · exact .inr (hkeep hc)

end Sys2Proof.Machine


namespace Sys2Proof.Machine

/-! ### The step instructions: `Move(ax, ay)` (R90 to R93) -/

/-- A coordinate moves by R90's 0 or 1 times the direction. -/
theorem stepCoord_eq (moves : Bool) (d : Dir) (c : Byte) :
    stepCoord moves d c = c.toNat + (if moves then 1 else 0) * d.delta := by
  cases moves <;> simp [stepCoord]

/-- R49 as an equation of integers: the cell that an index names. -/
theorem eq_cellIndex_iff (j : BitVec 16) (c : Cursor) :
    j = cellIndex c ↔ (j.toNat : Int) = c.cx.toNat + 256 * c.cy.toNat := by
  rw [← BitVec.toNat_inj, cellIndex_toNat]
  omega

/-- A sentinel cursor faults, whatever the step (R90). -/
theorem move_unpositioned (ax ay : Bool) {s : State} (hc : s.cursor = none) :
    move ax ay s = (.fault .drawUnpositioned, raise .drawUnpositioned s) := by
  simp only [move, hc]

/-- A step that leads to no cell faults (R90). -/
theorem move_of_stepCell_none {ax ay : Bool} {s : State} {c : Cursor} (hc : s.cursor = some c)
    (h : stepCell ax ay s.dx s.dy c = none) :
    move ax ay s = (.fault .cursorRange, raise .cursorRange s) := by
  simp only [move, hc, h]

/-- A step that leads to a cell places the cursor there and marks it (R90). -/
theorem move_of_stepCell_some {ax ay : Bool} {s : State} {c c' : Cursor} (hc : s.cursor = some c)
    (h : stepCell ax ay s.dx s.dy c = some c') : move ax ay s = (.cont, placeAndMark c' s) := by
  simp only [move, hc, h]

/-- A chain instruction that faults, where no fault has been recorded, as STEP answers it (R121, R142). -/
theorem answerStep_fault (f : FaultCode) {s : State} (hf : s.fault = none) :
    answerStep (.fault f, raise f s) = .next { s with
      fault := some f
      rsps := s.rsps ++ [{ status := .fault f, data := 0 }] } := by
  rw [raise_of_none f s hf]
  rfl

/-- Each of the three step instructions is `Move` along its axes (R91 to R93). -/
theorem exec_stepInstr {i : Instr} {ax ay : Int}
    (h : (i, ax, ay) ∈ [(Instr.stepx, (1 : Int), (0 : Int)), (.stepy, 0, 1), (.stepxy, 1, 1)]) :
    ∃ mx my : Bool, ax = (if mx then 1 else 0) ∧ ay = (if my then 1 else 0) ∧
      ∀ s, exec i s = answerStep (move mx my s) := by
  simp only [List.mem_cons, Prod.mk.injEq, List.not_mem_nil, or_false] at h
  obtain ⟨rfl, rfl, rfl⟩ | ⟨rfl, rfl, rfl⟩ | ⟨rfl, rfl, rfl⟩ := h
  · exact ⟨true, false, rfl, rfl, fun _ => rfl⟩
  · exact ⟨false, true, rfl, rfl, fun _ => rfl⟩
  · exact ⟨true, true, rfl, rfl, fun _ => rfl⟩

/-- Settles O18: all three are `Move`, which splits on the cursor and on the cell the step leads to. -/
theorem stepInstructionsMoveAndMark : Obligations.StepInstructionsMoveAndMark := by
  intro i ax ay s hi hf
  obtain ⟨mx, my, rfl, rfl, hexec⟩ := exec_stepInstr hi
  rw [hexec]
  refine ⟨fun hc => ?_, fun c nx ny hc hnx hny => ?_⟩
  · rw [move_unpositioned mx my hc, answerStep_fault _ hf]
  rw [← stepCoord_eq] at hnx hny
  subst hnx hny
  rcases hcell : stepCell mx my s.dx s.dy c with _ | c'
  · have hout := stepCell_none.1 hcell
    refine ⟨fun _ => ?_, fun hx0 hx1 hy0 hy1 => absurd ⟨hx0, hx1, hy0, hy1⟩ hout⟩
    rw [move_of_stepCell_none hc hcell, answerStep_fault _ hf]
  · obtain ⟨hx, hy⟩ := stepCell_some.1 hcell
    refine ⟨fun hout => ?_, fun _ _ _ _ => ⟨c', (placeAndMark c' s).grid, ?_, hx, hy, fun l j => ?_⟩⟩
    · have hcx := c'.cx.isLt
      have hcy := c'.cy.isLt
      omega
    · rw [move_of_stepCell_some hc hcell]
      rfl
    · simp only [← hx, ← hy, ← eq_cellIndex_iff]
      exact gridBit_placeAndMark s c' l j

end Sys2Proof.Machine

namespace Sys2Proof.Machine

/-! ### What sets a direction (R100) -/

/-- Settles O19: the bits are those that each instruction encodes to, and each rule is its one write. -/
theorem directionInstructionsSetOneDirection : Obligations.DirectionInstructionsSetOneDirection :=
  ⟨chainDecodeInvertsEncode .dxneg, chainDecodeInvertsEncode .dxpos,
    chainDecodeInvertsEncode .dyneg, chainDecodeInvertsEncode .dypos,
    fun _ => ⟨rfl, rfl, rfl, rfl⟩⟩

/-- Both directions are as they were. -/
def DirectionsKept (s t : State) : Prop := t.dx = s.dx ∧ t.dy = s.dy

/-- A step uses the directions and keeps them (R90). -/
theorem move_directionsKept (ax ay : Bool) (s : State) : DirectionsKept s (move ax ay s).2 := by
  unfold move
  split
  · exact ⟨rfl, rfl⟩
  · split <;> exact ⟨rfl, rfl⟩

/-- Only an instruction for the same axis sets a direction (R100, R115). -/
theorem runChain_directions (c : ChainInstr) (s : State) :
    (c ≠ .dxneg → c ≠ .dxpos → (runChain c s).2.dx = s.dx) ∧
      (c ≠ .dyneg → c ≠ .dypos → (runChain c s).2.dy = s.dy) := by
  cases c with
  | stepx => exact (move_directionsKept true false s).imp (fun h _ _ => h) fun h _ _ => h
  | stepy => exact (move_directionsKept false true s).imp (fun h _ _ => h) fun h _ _ => h
  | stepxy => exact (move_directionsKept true true s).imp (fun h _ _ => h) fun h _ _ => h
  | dxneg => exact ⟨fun hneg => absurd rfl hneg, fun _ _ => rfl⟩
  | dxpos => exact ⟨fun _ hpos => absurd rfl hpos, fun _ _ => rfl⟩
  | dyneg => exact ⟨fun _ _ => rfl, fun hneg => absurd rfl hneg⟩
  | dypos => exact ⟨fun _ _ => rfl, fun _ hpos => absurd rfl hpos⟩
  | jump x y => exact ⟨fun _ _ => rfl, fun _ _ => rfl⟩
  | stop => exact ⟨fun _ _ => rfl, fun _ _ => rfl⟩
  | rsv2 => exact ⟨fun _ _ => rfl, fun _ _ => rfl⟩
  | rsv3 => exact ⟨fun _ _ => rfl, fun _ _ => rfl⟩

/-- A read command changes the reader, the source's position and `fault` at most (R80, R81). -/
theorem readCommand_directionsKept (n : Nat) (s : State) :
    DirectionsKept s (gated (readCommand n) s).2 := by
  cases hf : s.fault with
  | some c => rw [gated_some hf]; exact ⟨rfl, rfl⟩
  | none =>
    rw [gated_none hf]
    obtain ⟨br, pos, f, e, -⟩ := readBits_frame n s
    show DirectionsKept s (readBits n s).2
    rw [e]
    exact ⟨rfl, rfl⟩

/-- CLOSE changes closed flags at most (R83). -/
theorem closeReader_directionsKept (s : State) : DirectionsKept s (closeReader s).2 := by
  cases hc : s.br.closed with
  | true => rw [closeReader_closed hc]; exact ⟨rfl, rfl⟩
  | false => rw [closeReader_open hc]; exact ⟨rfl, rfl⟩

/-- Settles O20: no other chain instruction writes the axis, and the commands left are those of the
BitReader. -/
theorem directionsPersist : Obligations.DirectionsPersist := by
  refine ⟨fun c s t h => ?_, fun i s t hi h hstep hlbegin hlrun harun => ?_⟩
  · rw [exec_toInstr] at h
    obtain rfl := answer_next h
    exact runChain_directions c s
  · cases i with
    | rdbits n => rw [answer_next h]; exact readCommand_directionsKept _ s
    | rdbyte a => rw [answer_next h]; exact readCommand_directionsKept 8 s
    | close a => rw [answer_next h]; exact closeReader_directionsKept s
    | lbegin b => exact absurd rfl (hlbegin b)
    | step a => exact absurd rfl (hstep a)
    | lrun b => exact absurd rfl (hlrun b)
    | arun a => exact absurd rfl (harun a)
    | _ => cases hi

end Sys2Proof.Machine

namespace Sys2Proof.Machine

/-! ### JUMP (R110) -/

/-- Settles O21: JUMP places the cursor and marks, and R49 says which cell the mark falls on. -/
theorem jumpPlacesAndMarks : Obligations.JumpPlacesAndMarks := by
  intro x y s
  refine ⟨(placeAndMark { cx := x, cy := y } s).grid, rfl, fun l j => ?_⟩
  have hcell : j.toNat = x.toNat + 256 * y.toNat ↔ j = cellIndex { cx := x, cy := y } := by
    rw [← BitVec.toNat_inj, cellIndex_toNat]
  simp only [hcell]
  exact gridBit_placeAndMark s { cx := x, cy := y } l j

/-! ### What makes the cursor valid (R110) -/

/-- A step from the sentinel leaves the sentinel (R90). -/
theorem move_keeps_sentinel (ax ay : Bool) {s : State} (hs : s.cursor = none) :
    (move ax ay s).2.cursor = none := by
  rw [move_unpositioned ax ay hs]
  exact hs

/-- A chain instruction that finds the sentinel leaves it, or is a JUMP. -/
theorem runChain_sentinel_or_jump (c : ChainInstr) {s : State} (hs : s.cursor = none) :
    (runChain c s).2.cursor = none ∨ ∃ x y, c = .jump x y := by
  cases c with
  | stepx => exact .inl (move_keeps_sentinel true false hs)
  | stepy => exact .inl (move_keeps_sentinel false true hs)
  | stepxy => exact .inl (move_keeps_sentinel true true hs)
  | jump x y => exact .inr ⟨x, y, rfl⟩
  | _ => exact .inl hs

/-- The gate runs a command's body or changes nothing (R143). -/
theorem gated_keeps_sentinel {body : State → Rsp × State} {s : State} (hs : s.cursor = none)
    (h : (body s).2.cursor = none) : (gated body s).2.cursor = none := by
  cases hf : s.fault with
  | some c => rw [gated_some hf]; exact hs
  | none => rw [gated_none hf]; exact h

/-- No read moves the cursor (R80). -/
theorem readBits_cursor (n : Nat) (s : State) : (readBits n s).2.cursor = s.cursor := by
  obtain ⟨br, pos, f, e, -⟩ := readBits_frame n s
  rw [e]
  rfl

/-- CLOSE does not move the cursor (R83). -/
theorem closeReader_cursor (s : State) : (closeReader s).2.cursor = s.cursor := by
  cases hc : s.br.closed with
  | true => rw [closeReader_closed hc]
  | false => rw [closeReader_open hc]

/-- Settles O24: of the chain instructions only JUMP leaves the sentinel, and the commands that run no
chain code read, close, or set the sentinel. -/
theorem onlyJumpPositionsCursor : Obligations.OnlyJumpPositionsCursor := by
  refine ⟨fun c s t h hs ht => ?_, fun i s t hi h hs ht => ?_⟩
  · rw [exec_toInstr] at h
    obtain rfl := answer_next h
    exact (runChain_sentinel_or_jump c hs).resolve_left ht
  · cases i with
    | step a => exact .inl ⟨a, rfl⟩
    | lrun b => exact .inr (.inl ⟨b, rfl⟩)
    | arun a => exact .inr (.inr ⟨a, rfl⟩)
    | rdbits n =>
      obtain rfl := answer_next h
      exact absurd (gated_keeps_sentinel hs ((readBits_cursor _ s).trans hs)) ht
    | rdbyte a =>
      obtain rfl := answer_next h
      exact absurd (gated_keeps_sentinel hs ((readBits_cursor 8 s).trans hs)) ht
    | close a =>
      obtain rfl := answer_next h
      exact absurd ((closeReader_cursor s).trans hs) ht
    | lbegin b =>
      obtain rfl := answer_next h
      exact absurd (gated_keeps_sentinel hs rfl) ht
    | _ => cases hi

/-! ### End-of-stream inside an instruction (R114) -/

/-- A decode that ends inside an instruction leaves fewer bits than its last read asked for, so at most
7: no field of the chain code has more than 8 bits (R62). -/
theorem decodeBits_error_length {bits rest : List Bool} {d : DecodeError}
    (h : decodeBits bits = (.error d, rest)) : rest.length ≤ 7 := by
  have agree : Agree Eq (fun _ _ _ left => left.length ≤ 7) (decodeBits bits) (decodeBits bits) := by
    refine decodeWith_agree ?_ rfl
    rintro n hn a _ rfl
    by_cases hlen : n ≤ a.length
    · rw [takeField, if_pos hlen]
      exact ⟨rfl, rfl⟩
    · rw [takeField, if_neg hlen]
      show a.length ≤ 7
      omega
  rw [h] at agree
  exact agree

/-- STEP with a layer open and no fault recorded is one chain instruction (R121). -/
theorem exec_step_active (arg : Byte) {s : State} (hf : s.fault = none) (ha : s.active = true) :
    exec (.step arg) s = answerStep (decodeOne s) := by
  simp only [exec, execStep, stepCommand, gated_none hf, stepBody, if_pos ha]
  rfl

/-- Where the bits ahead end inside an instruction and the source does not fail, the instruction is
abandoned behind its last whole field (R114, R122). -/
theorem decodeOne_endOfStream {s : State} (hs : s.Inv) (hc : s.br.closed = false)
    (hfail : s.src.failsAhead = false) {d : DecodeError} {rest : List Bool}
    (hd : decodeBits s.ahead = (.error d, rest)) :
    ∃ br pos, decodeOne s = endOfStream (s.withReader br pos) ∧ br.closed = false ∧
      (s.withReader br pos).ahead = rest := by
  obtain ⟨t, hfetch, ⟨⟨br, pos, rfl⟩, hclosed, -, hfails, -⟩, hrest⟩ := fetchChain_of_error hs hc hd
  have hstop : fetchEnd s = .eos := by simp [fetchEnd, hfail]
  have hstate : fetchEndState (s.withReader br pos) = s.withReader br pos := by
    simp [fetchEndState, hfails.trans hfail]
  rw [hstop, hstate] at hfetch
  exact ⟨br, pos, by rw [decodeOne, hfetch], hclosed, hrest⟩

/-- Settles O28: the fetch answers `Eos` behind the whole fields, and `EndOfStream` ends the layer. -/
theorem endOfStreamEndsLayer : Obligations.EndOfStreamEndsLayer := by
  intro arg s rest hs hf ha hc hfail hd
  obtain ⟨br, pos, hone, hclosed, hrest⟩ := decodeOne_endOfStream hs hc hfail hd
  refine ⟨br, pos, ?_, hclosed, hrest, decodeBits_error_length hd⟩
  rw [exec_step_active arg hf ha, hone]
  rfl

/-! ### STOP and the reserved encodings (R111 to R113) -/

/-- Settles O22: the bits are those that STOP encodes to, and its rule is its one write. -/
theorem stopEndsLayer : Obligations.StopEndsLayer :=
  ⟨chainDecodeInvertsEncode .stop, fun _ => rfl⟩

/-- Settles O23: the bits are those that each encodes to, and each rule raises where no fault has been
recorded. -/
theorem reservedEncodingsFault : Obligations.ReservedEncodingsFault :=
  ⟨chainDecodeInvertsEncode .rsv2, chainDecodeInvertsEncode .rsv3,
    fun _ hf => ⟨answerStep_fault .reservedOpcode hf, answerStep_fault .reservedOpcode hf⟩⟩

end Sys2Proof.Machine

namespace Sys2Proof.Machine

/-! ### LBEGIN (R120) -/

/-- LBEGIN is its body, behind the gate (R120, R143). -/
theorem exec_lbegin (b : Byte) (s : State) : exec (.lbegin b) s = answer (gated (lbeginBody b) s) := rfl

/-- LBEGIN b leaves the cells of layer `b` 0 and every other as it was (R120). -/
theorem gridBit_lbeginBody_eq (b : Byte) (s : State) (l : Byte) (j : BitVec 16) :
    (lbeginBody b s).2.gridBit l j = (decide (l ≠ b) && s.gridBit l j) := by
  have hlayer : l.toNat ≠ b.toNat ↔ l ≠ b := BitVec.toNat_inj.not
  show (s.grid.clearLayer b).bit (cellAddr l j) = _
  rw [bit_clearLayer, addrLayer_cellAddr, decide_eq_decide.2 hlayer]
  rfl

/-- Settles O25: the gate, and the cells that clearing a layer leaves. -/
theorem lbeginStartsLayer : Obligations.LbeginStartsLayer := by
  intro b s
  refine ⟨by simp [decodeCmd], fun c hf => ?_, fun hf => ⟨s.grid.clearLayer b, ?_, ?_⟩⟩
  · rw [exec_lbegin, gated_some hf]
    rfl
  · rw [exec_lbegin, gated_none hf]
    rfl
  · exact gridBit_lbeginBody_eq b s

/-! ### Every command ends (R125) -/

theorem exec_lrun_ends (b : Byte) (s : State) : ∃ t, exec (.lrun b) s = .next t := by
  obtain ⟨r, e⟩ := lrun_ends b s
  exact ⟨respond r.1 r.2, congrArg answerLoop e⟩

theorem exec_arun_ends (arg : Byte) (s : State) : ∃ t, exec (.arun arg) s = .next t := by
  obtain ⟨r, e⟩ := arunLoop_ends allLayers s
  exact ⟨respond r.1 r.2, congrArg answerLoop e⟩

/-- Every instruction ends: what has no loop answers at once. -/
theorem exec_ends (i : Instr) (s : State) : ∃ t, exec i s = .next t := by
  cases i with
  | lrun b => exact exec_lrun_ends b s
  | arun a => exact exec_arun_ends a s
  | _ => exact ⟨_, rfl⟩

/-- Settles O34: waiting, a reset and a reserved command word answer at once, and every instruction
ends. -/
theorem everyStepEnds : Obligations.EveryStepEnds := by
  intro s
  unfold step
  split
  · exact ⟨_, rfl⟩
  · exact ⟨_, rfl⟩
  · split
    · exact exec_ends _ _
    · exact ⟨_, rfl⟩

/-- R15: the bits consumed and the bits unread make up the stream. -/
theorem State.Inv.bitpos_add_unread {s : State} (h : s.Inv) :
    s.bitpos + s.unread = 8 * s.src.data.length := by
  have hbit := h.bitpos_add_fill
  have hpos := h.pos_le
  simp only [State.unread]
  omega

/-- Settles O33: a STEP that continues takes 2 bits from those unread, and the loops end. -/
theorem layerLoopsEnd : Obligations.LayerLoopsEnd := by
  refine ⟨fun s s' hs h => ?_, fun s hs => ?_, exec_lrun_ends, exec_arun_ends⟩
  · have hunread := stepCommand_cont h rfl (by decide)
    have hs' : s'.Inv := by simpa only [h] using inv_respects.stepCommand s hs
    have hdata : s'.src.data = s.src.data := by
      simpa only [h] using (sourceKept_stepCommand s).data
    have htotal := hs.bitpos_add_unread
    have htotal' := hs'.bitpos_add_unread
    rw [hdata] at htotal'
    omega
  · have htotal := hs.bitpos_add_unread
    simp only [stepBound]
    omega

/-! ### The one instruction of a STEP, from the bits ahead (R121, R122) -/

/-- The block runs the instruction that the bits ahead decode to, behind its bits. -/
theorem decodeOne_of_ok {s : State} (hs : s.Inv) (hc : s.br.closed = false) {c : ChainInstr}
    {rest : List Bool} (hd : decodeBits s.ahead = (.ok c, rest)) :
    ∃ t, ReadOn s t ∧ t.ahead = rest ∧ decodeOne s = runChain c t := by
  obtain ⟨t, hfetch, hread, hrest⟩ := fetchChain_of_ok hs hc hd
  exact ⟨t, hread, hrest, by rw [decodeOne, hfetch]⟩

/-- Where the bits ahead end inside an instruction it is abandoned, or has raised the failure of the
source, behind its whole fields (R114, R144). -/
theorem decodeOne_of_error {s : State} (hs : s.Inv) (hc : s.br.closed = false) {d : DecodeError}
    {rest : List Bool} (hd : decodeBits s.ahead = (.error d, rest)) :
    ∃ t, ReadOn s t ∧ t.ahead = rest ∧ decodeOne s =
      if s.src.failsAhead then (.fault .ioFailure, raise .ioFailure t) else (.stop, endLayer t) := by
  obtain ⟨t, hfetch, hread, hrest⟩ := fetchChain_of_error hs hc hd
  refine ⟨t, hread, hrest, ?_⟩
  rw [decodeOne, hfetch, fetchEnd, fetchEndState, hread.fails]
  cases s.src.failsAhead <;> rfl

theorem length_chainBits (c : ChainInstr) : c.bits.length = c.length := bitsOf_length _ _

/-- Settles O27: STEP is the one instruction, and the bits behind it tell how many it consumed. -/
theorem stepCommandRunsChainInstruction : Obligations.StepCommandRunsChainInstruction := by
  intro arg s c rest hs hf ha hc hd
  obtain ⟨_, ⟨⟨br, pos, rfl⟩, hclosed, -, -, htotal⟩, rfl, hone⟩ := decodeOne_of_ok hs hc hd
  refine ⟨br, pos, _, ?_, exec_toInstr c (s.withReader br pos), hclosed, rfl, ?_⟩
  · rw [exec_step_active arg hf ha, hone]
    rfl
  · have hbits := congrArg List.length (decodeBits_eq_ok_iff.1 hd)
    rw [List.length_append, length_chainBits] at hbits
    show (s.withReader br pos).bitpos = _
    omega

end Sys2Proof.Machine

namespace Sys2Proof.Machine

/-! ### What a program draws (R130) -/

@[simp] theorem holdsCell_nil (j : BitVec 16) : holdsCell [] j = false := rfl

@[simp] theorem holdsCell_append (cs ds : List (Int × Int)) (j : BitVec 16) :
    holdsCell (cs ++ ds) j = (holdsCell cs j || holdsCell ds j) := by
  simp [holdsCell]

/-- R49: the cell of a placed cursor is the one at its index. -/
theorem holdsCell_pen (c : Cursor) (dx dy : Dir) (j : BitVec 16) :
    holdsCell (penOf (some c) dx dy).at?.toList j = decide (j = cellIndex c) := by
  have hx := c.cx.isLt
  refine decide_eq_decide.2 ?_
  rw [← BitVec.toNat_inj, cellIndex_toNat]
  simp only [penOf, Option.map_some, Option.toList_some, List.mem_singleton, Prod.mk.injEq]
  omega

/-- A program that begins with `c` draws the cell that `c` arrives at, and what the others draw from
the pen behind it. -/
theorem drawnFrom_cons {c : ChainInstr} {cs : List ChainInstr} {p : Pen} {cells : List (Int × Int)}
    (h : drawnFrom (c :: cs) p = some cells) :
    ∃ p' cells', p.run c = some p' ∧ drawnFrom cs p' = some cells' ∧
      cells = (if drawsCell c then p'.at?.toList else []) ++ cells' := by
  unfold drawnFrom at h
  rcases hrun : p.run c with _ | p'
  · simp [hrun] at h
  rcases hcs : drawnFrom cs p' with _ | cells'
  · simp [hrun, hcs] at h
  refine ⟨p', cells', rfl, hcs, ?_⟩
  cases hc : drawsCell c <;> simpa [hrun, hcs, hc] using h.symm

theorem penFrom_cons {c : ChainInstr} {p p' : Pen} (h : p.run c = some p') (cs : List ChainInstr) :
    penFrom (c :: cs) p = penFrom cs p' := by
  simp only [penFrom, h]

/-! ### A chain instruction that lets the layer continue -/

theorem move_cont {ax ay : Bool} {s t : State} (h : move ax ay s = (.cont, t)) :
    ∃ c', t = placeAndMark c' s := by
  unfold move at h
  split at h
  · cases h
  · split at h
    · cases h
    · cases h
      exact ⟨_, rfl⟩

/-- It arrives at a cell and marks it, or sets a direction (R90, R100, R110). -/
theorem runChain_cont {c : ChainInstr} {s t : State} (h : runChain c s = (.cont, t)) :
    (drawsCell c = true ∧ ∃ c', t = placeAndMark c' s) ∨
      (drawsCell c = false ∧ ∃ d, t = setDx d s ∨ t = setDy d s) := by
  cases c with
  | stepx => exact .inl ⟨rfl, move_cont h⟩
  | stepy => exact .inl ⟨rfl, move_cont h⟩
  | stepxy => exact .inl ⟨rfl, move_cont h⟩
  | jump x y => cases h; exact .inl ⟨rfl, _, rfl⟩
  | dxneg => cases h; exact .inr ⟨rfl, _, .inl rfl⟩
  | dxpos => cases h; exact .inr ⟨rfl, _, .inl rfl⟩
  | dyneg => cases h; exact .inr ⟨rfl, _, .inr rfl⟩
  | dypos => cases h; exact .inr ⟨rfl, _, .inr rfl⟩
  | stop => cases h
  | rsv2 => cases h
  | rsv3 => cases h

/-- A state that chain code can run in: the invariant, no fault recorded, and an open reader. -/
structure State.Ready (s : State) : Prop where
  inv : s.Inv
  fault : s.fault = none
  opened : s.br.closed = false

/-- From `s` to `t` chain code has drawn `cells` in the current layer and has not ended it. -/
structure Draws (s t : State) (cells : List (Int × Int)) : Prop where
  ready : t.Ready
  layer : t.layer = s.layer
  active : t.active = s.active
  fails : t.src.failsAhead = s.src.failsAhead
  picture : ∀ l j, t.gridBit l j = (decide (l = s.layer) && holdsCell cells j || s.gridBit l j)

theorem Draws.refl {s : State} (h : s.Ready) : Draws s s [] :=
  ⟨h, rfl, rfl, rfl, fun _ _ => by simp⟩

theorem Draws.trans {s t u : State} {cs ds : List (Int × Int)} (h : Draws s t cs)
    (h' : Draws t u ds) : Draws s u (cs ++ ds) where
  ready := h'.ready
  layer := h'.layer.trans h.layer
  active := h'.active.trans h.active
  fails := h'.fails.trans h.fails
  picture l j := by
    rw [h'.picture, h.picture, h.layer, holdsCell_append, Bool.and_or_distrib_left, Bool.or_assoc,
      Bool.or_left_comm]

/-- Reads draw nothing. -/
theorem Draws.of_readOn {s t : State} (h : s.Ready) (hread : ReadOn s t) : Draws s t [] := by
  obtain ⟨⟨br, pos, rfl⟩, hclosed, hinv, hfails, -⟩ := hread
  exact ⟨⟨hinv, h.fault, hclosed⟩, rfl, rfl, hfails, fun _ _ => by simp [State.gridBit]⟩

/-- A chain instruction draws the cell that it arrives at, and reads nothing (R130). -/
theorem draws_runChain {c : ChainInstr} {s t : State} (h : s.Ready) (ha : s.active = true)
    (hrun : runChain c s = (.cont, t)) :
    Draws s t (if drawsCell c then t.pen.at?.toList else []) ∧ t.ahead = s.ahead := by
  have hinv : t.Inv := by simpa only [hrun] using inv_respects.runChain c h.fault ha h.inv
  obtain ⟨hc, c', rfl⟩ | ⟨hc, d, hdir⟩ := runChain_cont hrun
  · refine ⟨⟨⟨hinv, h.fault, h.opened⟩, rfl, rfl, rfl, fun l j => ?_⟩, rfl⟩
    rw [gridBit_placeAndMark, hc, if_pos rfl, placeAndMark_pen, holdsCell_pen, Bool.decide_and]
  · obtain rfl | rfl := hdir <;>
      exact ⟨⟨⟨hinv, h.fault, h.opened⟩, rfl, rfl, rfl, fun _ _ => by simp [hc, State.gridBit]⟩, rfl⟩

theorem ReadOn.pen {s t : State} (h : ReadOn s t) : t.pen = s.pen := by
  obtain ⟨_, _, rfl⟩ := h.frame
  rfl

theorem ReadOn.active {s t : State} (h : ReadOn s t) : t.active = s.active := by
  obtain ⟨_, _, rfl⟩ := h.frame
  rfl

/-- The block's next instruction, where the bits ahead begin with one behind which the pen goes on. -/
theorem decodeOne_of_run {s : State} (h : s.Ready) (ha : s.active = true) {c : ChainInstr}
    {rest : List Bool} (hah : s.ahead = c.bits ++ rest) {p : Pen} (hp : s.pen.run c = some p) :
    ∃ t, decodeOne s = (.cont, t) ∧ Draws s t (if drawsCell c then p.at?.toList else []) ∧
      t.pen = p ∧ t.ahead = rest := by
  obtain ⟨u, hread, hrest, hone⟩ := decodeOne_of_ok h.inv h.opened (decodeBits_eq_ok_iff.2 hah)
  obtain ⟨t, hrun, rfl⟩ := runChain_of_run (hread.pen ▸ hp)
  have hu := Draws.of_readOn h hread
  obtain ⟨hdraw, hahead⟩ := draws_runChain hu.ready (hread.active.trans ha) hrun
  exact ⟨t, hone.trans hrun, hu.trans hdraw, rfl, hahead.trans hrest⟩

/-! ### The loop of LRUN (R123) -/

theorem stepCommand_active {s : State} (hf : s.fault = none) (ha : s.active = true) :
    stepCommand s = ((decodeOne s).1.rsp, (decodeOne s).2) := by
  rw [stepCommand, gated_none hf, stepBody, if_pos ha]

theorem lrunLoop_cont {s t : State} (hf : s.fault = none) (ha : s.active = true)
    (h : decodeOne s = (.cont, t)) (fuel : Nat) : lrunLoop (fuel + 1) s = lrunLoop fuel t := by
  rw [lrunLoop, stepCommand_active hf ha, h]
  rfl

theorem lrunLoop_stop {s t : State} (hf : s.fault = none) (ha : s.active = true)
    (h : decodeOne s = (.stop, t)) (fuel : Nat) :
    lrunLoop (fuel + 1) s = some ({ status := .ok, data := 0 }, t) := by
  rw [lrunLoop, stepCommand_active hf ha, h]
  rfl

theorem lrunLoop_fault {s t : State} {f : FaultCode} (hf : s.fault = none) (ha : s.active = true)
    (h : decodeOne s = (.fault f, t)) (fuel : Nat) :
    lrunLoop (fuel + 1) s = some ({ status := .fault f, data := 0 }, t) := by
  rw [lrunLoop, stepCommand_active hf ha, h]
  rfl

/-- More fuel than a loop needs changes nothing. -/
theorem lrunLoop_add {fuel : Nat} {s : State} {r : Rsp × State} (h : lrunLoop fuel s = some r)
    (k : Nat) : lrunLoop (fuel + k) s = some r := by
  induction fuel generalizing s with
  | zero => cases h
  | succ fuel ih =>
    rw [Nat.add_right_comm]
    simp only [lrunLoop] at h ⊢
    split at h
    · rwa [if_pos ‹_›]
    · rw [if_neg ‹_›]
      split at h
      · rwa [if_pos ‹_›]
      · rw [if_neg ‹_›]
        exact ih h

/-- What a loop answers with any fuel it answers with the bound of R125. -/
theorem lrunLoop_stepBound {fuel : Nat} {s : State} {r : Rsp × State} (h : lrunLoop fuel s = some r) :
    lrunLoop (stepBound s) s = some r := by
  obtain ⟨r', h'⟩ := lrunLoop_ends (stepBound s) s le_rfl
  have hfuel := lrunLoop_add h (stepBound s)
  rw [Nat.add_comm, lrunLoop_add h' fuel] at hfuel
  rw [h', hfuel]

/-- LRUN is its loop behind LBEGIN (R123). -/
theorem lrun_of_loop {b : Byte} {s : State} (hf : s.fault = none) {fuel : Nat} {r : Rsp × State}
    (h : lrunLoop fuel (lbeginBody b s).2 = some r) : lrun b s = some r := by
  rw [lrun, lbegin, gated_none hf]
  exact lrunLoop_stepBound h

/-- The loop over a program that neither faults nor ends the layer. -/
theorem lrunLoop_program (prog : List ChainInstr) {s : State} {cells : List (Int × Int)}
    {bits : List Bool} (h : s.Ready) (ha : s.active = true)
    (hdraw : drawnFrom prog s.pen = some cells) (hah : s.ahead = programBits prog ++ bits) :
    ∃ t, Draws s t cells ∧ penFrom prog s.pen = some t.pen ∧ t.ahead = bits ∧
      ∀ fuel, lrunLoop (fuel + prog.length) s = lrunLoop fuel t := by
  induction prog generalizing s cells with
  | nil =>
    cases hdraw
    exact ⟨s, .refl h, rfl, hah, fun _ => rfl⟩
  | cons c prog ih =>
    obtain ⟨p, cells', hrun, hdraw', rfl⟩ := drawnFrom_cons hdraw
    rw [programBits, List.flatMap_cons, List.append_assoc] at hah
    obtain ⟨u, hone, hu, rfl, hahu⟩ := decodeOne_of_run h ha hah hrun
    obtain ⟨t, ht, hpen, haht, hloop⟩ := ih hu.ready (hu.active.trans ha) hdraw' hahu
    refine ⟨t, hu.trans ht, by rw [penFrom_cons hrun, hpen], haht, fun fuel => ?_⟩
    rw [List.length_cons, ← Nat.add_assoc, lrunLoop_cont h.fault ha hone, hloop]

/-! ### LRUN over a program -/

theorem lbeginBody_ready {s : State} (h : s.Ready) (b : Byte) : (lbeginBody b s).2.Ready :=
  ⟨lbeginBody_inv h.inv b, h.fault, h.opened⟩

/-- `t` is a state of LRUN b from `s` behind the program `prog`: the layer is open and holds `cells`,
and `rest` lies ahead. -/
structure LayerDrawn (b : Byte) (prog : List ChainInstr) (cells : List (Int × Int)) (rest : List Bool)
    (s t : State) : Prop where
  ready : t.Ready
  layer : t.layer = b
  active : t.active = true
  fails : t.src.failsAhead = s.src.failsAhead
  pen : penBehind prog = some t.pen
  ahead : t.ahead = rest
  picture : ∀ l j, t.gridBit l j = if l = b then holdsCell cells j else s.gridBit l j

/-- Reads consume bits and change nothing else of a layer. -/
theorem LayerDrawn.readOn {b : Byte} {prog : List ChainInstr} {cells : List (Int × Int)}
    {bits : List Bool} {s t u : State} (h : LayerDrawn b prog cells bits s t) (hread : ReadOn t u) :
    LayerDrawn b prog cells u.ahead s u := by
  obtain ⟨⟨br, pos, rfl⟩, hclosed, hinv, hfails, -⟩ := hread
  exact ⟨⟨hinv, h.ready.fault, hclosed⟩, h.layer, h.active, hfails.trans h.fails, h.pen, rfl,
    h.picture⟩

/-- LRUN passes through the state behind the layer's program, and ends as its loop does there. -/
theorem lrun_program (b : Byte) {s : State} {prog : List ChainInstr} {cells : List (Int × Int)}
    {bits : List Bool} (h : s.Ready) (hdraw : drawnBy prog = some cells)
    (hah : s.ahead = programBits prog ++ bits) :
    ∃ t, LayerDrawn b prog cells bits s t ∧ ∀ r, lrunLoop 1 t = some r → lrun b s = some r := by
  obtain ⟨t, ht, hpen, haht, hloop⟩ := lrunLoop_program prog (lbeginBody_ready h b) rfl hdraw hah
  refine ⟨t, ⟨ht.ready, ht.layer, ht.active, ht.fails, hpen, haht, fun l j => ?_⟩, fun r hr => ?_⟩
  · rw [ht.picture, gridBit_lbeginBody_eq]
    by_cases hl : l = b <;> simp [hl, lbeginBody]
  · exact lrun_of_loop h.fault ((hloop 1).trans hr)

/-- The bits ahead end a layer, with `rest` behind: a STOP (R111), or the stream's end (R114). -/
def EndsLayer (failsAhead : Bool) (bits rest : List Bool) : Prop :=
  decodeBits bits = (.ok .stop, rest) ∨
    (failsAhead = false ∧ decodeBits bits = (.error .truncated, rest))

theorem decodeOne_of_endsLayer {s : State} (h : s.Ready) {rest : List Bool}
    (hend : EndsLayer s.src.failsAhead s.ahead rest) :
    ∃ t, ReadOn s t ∧ t.ahead = rest ∧ decodeOne s = (.stop, endLayer t) := by
  obtain hd | ⟨hfail, hd⟩ := hend
  · exact decodeOne_of_ok h.inv h.opened hd
  · simpa [hfail] using decodeOne_of_error h.inv h.opened hd

/-- An instruction that faults has read its bits and written nothing (R147 to R149, R155). -/
theorem decodeOne_of_faultAt {s : State} (h : s.Ready) {f : FaultCode} {rest : List Bool}
    (hfault : faultAt s.src.failsAhead s.pen s.ahead = some (f, rest)) :
    ∃ t, ReadOn s t ∧ t.ahead = rest ∧ decodeOne s = (.fault f, raise f t) := by
  unfold faultAt at hfault
  rcases hd : decodeBits s.ahead with ⟨d | c, left⟩ <;> simp only [hd] at hfault
  · split at hfault
    · rename_i hfail
      cases hfault
      simpa [hfail] using decodeOne_of_error h.inv h.opened hd
    · cases hfault
  · obtain ⟨f', hf', he⟩ := Option.map_eq_some_iff.1 hfault
    cases he
    obtain ⟨t, hread, hrest, hone⟩ := decodeOne_of_ok h.inv h.opened hd
    exact ⟨t, hread, hrest, hone.trans (runChain_of_fault (hread.pen.symm ▸ hf'))⟩

/-- LRUN over a program and what ends the layer. -/
theorem lrun_endsLayer (b : Byte) {s : State} {prog : List ChainInstr} {cells : List (Int × Int)}
    {bits rest : List Bool} (h : s.Ready) (hdraw : drawnBy prog = some cells)
    (hah : s.ahead = programBits prog ++ bits) (hend : EndsLayer s.src.failsAhead bits rest) :
    ∃ t, LayerDrawn b prog cells rest s t ∧
      lrun b s = some ({ status := .ok, data := 0 }, endLayer t) := by
  obtain ⟨u, hu, hloop⟩ := lrun_program b h hdraw hah
  rw [← hu.fails, ← hu.ahead] at hend
  obtain ⟨t, hread, rfl, hone⟩ := decodeOne_of_endsLayer hu.ready hend
  exact ⟨t, hu.readOn hread, hloop _ (lrunLoop_stop hu.ready.fault hu.active hone 0)⟩

/-- LRUN over a program and an instruction that faults. -/
theorem lrun_faultAt (b : Byte) {s : State} {prog : List ChainInstr} {cells : List (Int × Int)}
    {p : Pen} {bits rest : List Bool} {f : FaultCode} (h : s.Ready)
    (hdraw : drawnBy prog = some cells) (hpen : penBehind prog = some p)
    (hah : s.ahead = programBits prog ++ bits)
    (hfault : faultAt s.src.failsAhead p bits = some (f, rest)) :
    ∃ t, LayerDrawn b prog cells rest s t ∧
      lrun b s = some ({ status := .fault f, data := 0 }, raise f t) := by
  obtain ⟨u, hu, hloop⟩ := lrun_program b h hdraw hah
  obtain rfl : u.pen = p := Option.some.inj (hu.pen.symm.trans hpen)
  rw [← hu.fails, ← hu.ahead] at hfault
  obtain ⟨t, hread, rfl, hone⟩ := decodeOne_of_faultAt hu.ready hfault
  exact ⟨t, hu.readOn hread, hloop _ (lrunLoop_fault hu.ready.fault hu.active hone 0)⟩

/-! ### The next state of LRUN and ARUN -/

/-- A command that keeps the source and the ports answers in an update of the state before. -/
theorem answer_of_kept {s t : State} (hsrc : SourceKept s t) (hports : PortsKept s t) (r : Rsp)
    {b : Byte} {a : Bool} {f : Option FaultCode} (hlayer : t.layer = b) (hactive : t.active = a)
    (hfault : t.fault = f) :
    ∃ (br : BitReader) (pos : Nat) (cursor : Option Cursor) (dx dy : Dir) (g : Grid),
      answer (r, t) = .next { s with
        br := br
        src := { s.src with pos := pos }
        cursor := cursor
        dx := dx
        dy := dy
        layer := b
        active := a
        fault := f
        grid := g
        rsps := s.rsps ++ [r] } ∧
      br.closed = s.br.closed ∧
      State.ahead { s with br := br, src := { s.src with pos := pos } } = t.ahead ∧
      penOf cursor dx dy = t.pen ∧
      ∀ (l : Byte) (j : BitVec 16), g.bit (cellAddr l j) = t.gridBit l j := by
  subst hlayer hactive hfault
  obtain ⟨br, ⟨data, failAt, pos, closed⟩, cursor, dx, dy, layer, active, fault, grid, pc,
    inputs, rsps⟩ := t
  obtain ⟨hdata, hfailAt, hpc, hinputs, -, hclosed, hbr⟩ := hsrc
  obtain ⟨-, hrsps⟩ := hports
  simp only at hdata hfailAt hpc hinputs hclosed hbr hrsps
  subst hdata hfailAt hpc hinputs hclosed hrsps
  exact ⟨br, pos, cursor, dx, dy, grid, rfl, hbr, rfl, rfl, fun _ _ => rfl⟩

end Sys2Proof.Machine

namespace Sys2Proof.Machine

/-! ### LRUN: the next state -/

theorem exec_lrun {b : Byte} {s : State} {r : Rsp × State} (h : lrun b s = some r) :
    exec (.lrun b) s = answer r := congrArg answerLoop h

/-- The next state of an LRUN whose layer ends without a fault (R111, R114, R123, R130). -/
theorem exec_lrun_endsLayer (b : Byte) {s : State} {prog : List ChainInstr}
    {cells : List (Int × Int)} {bits rest : List Bool} (h : s.Ready)
    (hdraw : drawnBy prog = some cells) (hah : s.ahead = programBits prog ++ bits)
    (hend : EndsLayer s.src.failsAhead bits rest) :
    ∃ (br : BitReader) (pos : Nat) (cursor : Option Cursor) (dx dy : Dir) (g : Grid),
      exec (.lrun b) s = .next { s with
        br := br
        src := { s.src with pos := pos }
        cursor := cursor
        dx := dx
        dy := dy
        layer := b
        active := false
        grid := g
        rsps := s.rsps ++ [{ status := .ok, data := 0 }] } ∧
      br.closed = false ∧
      State.ahead { s with br := br, src := { s.src with pos := pos } } = rest ∧
      penBehind prog = some (penOf cursor dx dy) ∧
      ∀ (l : Byte) (j : BitVec 16),
        g.bit (cellAddr l j) = if l = b then holdsCell cells j else s.gridBit l j := by
  obtain ⟨t, ht, e⟩ := lrun_endsLayer b h hdraw hah hend
  obtain ⟨br, pos, cursor, dx, dy, g, hnext, hbr, hahead, hpen, hgrid⟩ :=
    answer_of_kept (sourceKept_lrun e) (portsKept_respects.lrun e) { status := .ok, data := 0 }
      (f := s.fault) ht.layer rfl (ht.ready.fault.trans h.fault.symm)
  exact ⟨br, pos, cursor, dx, dy, g, (exec_lrun e).trans hnext, hbr.trans h.opened,
    hahead.trans ht.ahead, hpen ▸ ht.pen, fun l j => (hgrid l j).trans (ht.picture l j)⟩

theorem programBits_append (cs ds : List ChainInstr) :
    programBits (cs ++ ds) = programBits cs ++ programBits ds := List.flatMap_append

theorem programBits_stop : programBits [.stop] = ChainInstr.stop.bits := List.append_nil _

/-- A STOP's bits end the layer, whether or not the source fails later (R111). -/
theorem endsLayer_stop (failsAhead : Bool) (rest : List Bool) :
    EndsLayer failsAhead (ChainInstr.stop.bits ++ rest) rest :=
  .inl (decodeBits_eq_ok_iff.2 rfl)

/-- Settles O31: the loop runs the program's instructions one by one, and then its STOP. -/
theorem lrunDrawsProgram : Obligations.LrunDrawsProgram := by
  intro b s prog cells rest hs hf hc hdraw hah
  rw [programBits_append, programBits_stop, List.append_assoc] at hah
  exact exec_lrun_endsLayer b ⟨hs, hf, hc⟩ hdraw hah (endsLayer_stop _ rest)

/-- Settles O32: behind the whole instructions the stream's end ends the layer as a STOP does. -/
theorem lrunEndsAtEndOfStream : Obligations.LrunEndsAtEndOfStream := by
  intro b s prog cells tail rest hs hf hc hfail hdraw hah hd
  exact exec_lrun_endsLayer b ⟨hs, hf, hc⟩ hdraw hah (.inr ⟨hfail, hd⟩)

/-! ### How many bits a faulting instruction consumes (R155) -/

/-- A field is taken whole or not at all. -/
theorem takeField_cases (n : Nat) (bits : List Bool) :
    (∃ v, takeField n bits = (.ok v, bits.drop n)) ∨ takeField n bits = (.error .truncated, bits) := by
  unfold takeField
  split
  · exact .inl ⟨_, rfl⟩
  · exact .inr rfl

/-- The bits before `x`, or those before `y`. -/
theorem decodeJump_error {bits rest : List Bool} {d : DecodeError}
    (h : decodeJump takeField bits = (.error d, rest)) : ∃ k ∈ [0, 8], rest = bits.drop k := by
  unfold decodeJump at h
  rcases takeField_cases 8 bits with ⟨x, e⟩ | e <;> simp only [e] at h
  · rcases takeField_cases 8 (bits.drop 8) with ⟨y, e'⟩ | e' <;> simp only [e'] at h <;> cases h
    exact ⟨8, by simp, rfl⟩
  · cases h
    exact ⟨0, by simp, rfl⟩

/-- The bits before the flag, before the sub-op, or before a coordinate of the jump. -/
theorem decodeLong_error {bits rest : List Bool} {d : DecodeError}
    (h : decodeLong takeField bits = (.error d, rest)) : ∃ k ∈ [0, 1, 3, 11], rest = bits.drop k := by
  unfold decodeLong at h
  rcases takeField_cases 1 bits with ⟨f, e⟩ | e <;> simp only [e] at h
  · rcases takeField_cases 2 (bits.drop 1) with ⟨q, e'⟩ | e' <;> simp only [e'] at h
    · split at h
      · cases h
      · obtain ⟨k, hk, rfl⟩ := decodeJump_error h
        refine ⟨1 + (2 + k), ?_, by rw [List.drop_drop, List.drop_drop]⟩
        simp only [List.mem_cons, List.not_mem_nil, or_false] at hk ⊢
        omega
    · cases h
      exact ⟨1, by simp, rfl⟩
  · cases h
    exact ⟨0, by simp, rfl⟩

/-- A decode that ends inside an instruction has consumed the fields before the one that is missing
(R62, R155). -/
theorem decodeBits_error_consumed {bits rest : List Bool} {d : DecodeError}
    (h : decodeBits bits = (.error d, rest)) :
    ∃ k ∈ FaultCode.ioFailure.consumed, rest = bits.drop k := by
  unfold decodeBits decodeWith at h
  rcases takeField_cases 2 bits with ⟨p, e⟩ | e <;> simp only [e] at h
  · split at h
    · cases h
    · obtain ⟨k, hk, rfl⟩ := decodeLong_error h
      refine ⟨2 + k, ?_, by rw [List.drop_drop]⟩
      simp only [FaultCode.consumed, List.mem_cons, List.not_mem_nil, or_false] at hk ⊢
      omega
  · cases h
    exact ⟨0, by simp [FaultCode.consumed], rfl⟩

/-- A step that faults has consumed its 2 bits. -/
theorem moveFault_consumed {ax ay : Int} {p : Pen} {f : FaultCode}
    (h : p.moveFault ax ay = some f) : 2 ∈ f.consumed := by
  unfold Pen.moveFault at h
  split at h <;> cases h <;> decide

/-- An instruction that faults has consumed all its bits. -/
theorem fault_consumed {c : ChainInstr} {p : Pen} {f : FaultCode} (h : Pen.fault c p = some f) :
    c.length ∈ f.consumed := by
  cases c with
  | stepx => exact moveFault_consumed h
  | stepy => exact moveFault_consumed h
  | stepxy => exact moveFault_consumed h
  | rsv2 => cases h; decide
  | rsv3 => cases h; decide
  | _ => cases h

theorem faultAt_consumed {failsAhead : Bool} {p : Pen} {bits rest : List Bool} {f : FaultCode}
    (h : faultAt failsAhead p bits = some (f, rest)) : ∃ k ∈ f.consumed, rest = bits.drop k := by
  unfold faultAt at h
  rcases hd : decodeBits bits with ⟨d | c, left⟩ <;> simp only [hd] at h
  · split at h <;> cases h
    exact decodeBits_error_consumed hd
  · obtain ⟨f', hf', he⟩ := Option.map_eq_some_iff.1 h
    cases he
    refine ⟨c.length, fault_consumed hf', ?_⟩
    rw [decodeBits_eq_ok_iff.1 hd, List.drop_left' (length_chainBits c)]

/-- LRUN on a closed reader faults behind its LBEGIN, at its first read (R123, R145). -/
theorem lrun_closed (b : Byte) {s : State} (hf : s.fault = none) (hc : s.br.closed = true) :
    lrun b s = some ({ status := .fault .useAfterClose, data := 0 },
      raise .useAfterClose (lbeginBody b s).2) :=
  lrun_of_loop hf (lrunLoop_fault (s := (lbeginBody b s).2) hf rfl (decodeOne_closed hc) 0)

/-- Settles O52: the loop runs the program's instructions, and the fault writes nothing but its code. -/
theorem lrunLeavesPictureOnFault : Obligations.LrunLeavesPictureOnFault := by
  refine ⟨fun b s prog cells p bits rest f hs hf hc hdraw hpen hah hfault =>
    ⟨faultAt_consumed hfault, ?_⟩, fun b s hf hc => ⟨s.grid.clearLayer b, ?_, ?_⟩⟩
  · obtain ⟨t, ht, e⟩ := lrun_faultAt b ⟨hs, hf, hc⟩ hdraw hpen hah hfault
    obtain ⟨br, pos, cursor, dx, dy, g, hnext, hbr, hahead, hp, hgrid⟩ :=
      answer_of_kept (sourceKept_lrun e) (portsKept_respects.lrun e) { status := .fault f, data := 0 }
        ht.layer ht.active (raise_fault_of_none f t ht.ready.fault)
    exact ⟨br, pos, cursor, dx, dy, g, (exec_lrun e).trans hnext, hbr.trans hc,
      hahead.trans ht.ahead, hp.trans (Option.some.inj (ht.pen.symm.trans hpen)),
      fun l j => (hgrid l j).trans (ht.picture l j)⟩
  · rw [exec_lrun (lrun_closed b hf hc), raise_of_none _ (lbeginBody b s).2 hf]
    rfl
  · exact gridBit_lbeginBody_eq b s

/-! ### The layers of ARUN (R124) -/

theorem toNat_ofNat_layer {n : Nat} (h : n < Config.layers) : (BitVec.ofNat 8 n).toNat = n :=
  Nat.mod_eq_of_lt h

theorem mem_take_allLayers {l : Byte} {n : Nat} (hn : n ≤ Config.layers) :
    l ∈ allLayers.take n ↔ l.toNat < n := by
  rw [allLayers, ← List.map_take, List.take_range, Nat.min_eq_left hn]
  refine List.mem_map.trans ⟨?_, fun h => ⟨l.toNat, List.mem_range.2 h, BitVec.ofNat_toNat ..⟩⟩
  rintro ⟨k, hk, rfl⟩
  have hk := List.mem_range.1 hk
  rwa [toNat_ofNat_layer (hk.trans_le hn)]

/-- The layers before `b`, `b`, and the layers behind it. -/
theorem allLayers_eq (b : Byte) :
    allLayers = allLayers.take b.toNat ++ b :: allLayers.drop (b.toNat + 1) := by
  have hb : b.toNat < allLayers.length := by simpa [allLayers, Config.layers] using b.isLt
  have hget : allLayers[b.toNat] = b := by simp [allLayers]
  conv_lhs => rw [← List.take_append_drop b.toNat allLayers, List.drop_eq_getElem_cons hb, hget]

/-- The layers stand in increasing order. -/
theorem allLayers_pairwise : allLayers.Pairwise fun l m => l.toNat < m.toNat := by
  refine List.pairwise_map.2 (List.pairwise_lt_range.imp_of_mem fun hi hj h => ?_)
  rwa [toNat_ofNat_layer (List.mem_range.1 hi), toNat_ofNat_layer (List.mem_range.1 hj)]

/-! ### The loop of ARUN -/

theorem arunLoop_ok {b : Byte} {s t : State} (h : lrun b s = some ({ status := .ok, data := 0 }, t))
    (bs : List Byte) : arunLoop (b :: bs) s = arunLoop bs t := by
  rw [arunLoop, h]
  rfl

theorem arunLoop_fault {b : Byte} {s t : State} {f : FaultCode}
    (h : lrun b s = some ({ status := .fault f, data := 0 }, t)) (bs : List Byte) :
    arunLoop (b :: bs) s = some ({ status := .fault f, data := 0 }, t) := by
  rw [arunLoop, h]
  rfl

theorem exec_arun (arg : Byte) {s : State} {r : Rsp × State} (h : arunLoop allLayers s = some r) :
    exec (.arun arg) s = answer r := congrArg answerLoop h

theorem endLayer_ready {t : State} (h : t.Ready) (ha : t.active = true) : (endLayer t).Ready :=
  ⟨inv_respects.endLayer t h.fault ha h.inv, h.fault, h.opened⟩

/-- The bits of the programs of some layers, each ended by its STOP (R124). -/
def layersBits (prog : Byte → List ChainInstr) (ls : List Byte) : List Bool :=
  ls.flatMap fun l => programBits (prog l ++ [.stop])

theorem layersBits_cons (prog : Byte → List ChainInstr) (l : Byte) (ls : List Byte) :
    layersBits prog (l :: ls) =
      programBits (prog l) ++ (ChainInstr.stop.bits ++ layersBits prog ls) := by
  rw [layersBits, List.flatMap_cons, programBits_append, programBits_stop, List.append_assoc]
  rfl

theorem layersBits_append (prog : Byte → List ChainInstr) (ls ms : List Byte) :
    layersBits prog (ls ++ ms) = layersBits prog ls ++ layersBits prog ms := List.flatMap_append

/-- `t` is a state of ARUN from `s` between two layers: those of `ls` hold their cells, and `rest` lies
ahead. -/
structure LayersDrawn (cells : Byte → List (Int × Int)) (ls : List Byte) (rest : List Bool)
    (s t : State) : Prop where
  ready : t.Ready
  fails : t.src.failsAhead = s.src.failsAhead
  ahead : t.ahead = rest
  picture : ∀ l j, t.gridBit l j = if l ∈ ls then holdsCell (cells l) j else s.gridBit l j

/-- A layer drawn before others. -/
theorem LayersDrawn.cons {cells : Byte → List (Int × Int)} {b : Byte} {ls : List Byte}
    {prog : List ChainInstr} {bits rest : List Bool} {s t u : State}
    (h : LayerDrawn b prog (cells b) bits s t) (h' : LayersDrawn cells ls rest (endLayer t) u) :
    LayersDrawn cells (b :: ls) rest s u where
  ready := h'.ready
  fails := h'.fails.trans h.fails
  ahead := h'.ahead
  picture l j := by
    have ht : (endLayer t).gridBit l j = if l = b then holdsCell (cells b) j else s.gridBit l j :=
      h.picture l j
    rw [h'.picture, ht]
    by_cases hl : l = b <;> simp [hl]

/-- The loop over layers whose programs end by their STOPs. -/
theorem arunLoop_programs {prog : Byte → List ChainInstr} {cells : Byte → List (Int × Int)}
    (ls bs : List Byte) {s : State} {rest : List Bool} (h : s.Ready)
    (hdraw : ∀ l ∈ ls, drawnBy (prog l) = some (cells l))
    (hah : s.ahead = layersBits prog ls ++ rest) :
    ∃ t, LayersDrawn cells ls rest s t ∧ arunLoop (ls ++ bs) s = arunLoop bs t := by
  induction ls generalizing s with
  | nil => exact ⟨s, ⟨h, rfl, hah, fun _ _ => by simp⟩, rfl⟩
  | cons b ls ih =>
    rw [layersBits_cons, List.append_assoc, List.append_assoc] at hah
    obtain ⟨t, ht, e⟩ := lrun_endsLayer b h (hdraw b List.mem_cons_self) hah (endsLayer_stop _ _)
    obtain ⟨u, hu, hloop⟩ := ih (endLayer_ready ht.ready ht.active)
      (fun l hl => hdraw l (List.mem_cons_of_mem b hl)) ht.ahead
    exact ⟨u, .cons ht hu, by rw [List.cons_append, arunLoop_ok e, hloop]⟩

/-- The cells behind a layer that was drawn behind others. -/
theorem LayersDrawn.picture_layer {cells : Byte → List (Int × Int)} {ls : List Byte} {b : Byte}
    {prog : List ChainInstr} {bits rest : List Bool} {s t u : State}
    (h : LayersDrawn cells ls bits s t) (h' : LayerDrawn b prog (cells b) rest t u) (l : Byte)
    (j : BitVec 16) :
    u.gridBit l j = if l = b ∨ l ∈ ls then holdsCell (cells l) j else s.gridBit l j := by
  rw [h'.picture, h.picture]
  by_cases hl : l = b <;> simp [hl]

/-- A layer is `b` or stands before it exactly where its number is at most `b`'s. -/
theorem eq_or_mem_take_allLayers {b l : Byte} :
    l = b ∨ l ∈ allLayers.take b.toNat ↔ l.toNat ≤ b.toNat := by
  rw [mem_take_allLayers b.isLt.le, ← BitVec.toNat_inj]
  omega

/-- Settles O35: the layers before 255 end one by one, and the last one is an LRUN of its own. -/
theorem arunDecodesEveryLayer : Obligations.ArunDecodesEveryLayer := by
  intro arg s prog cells rest hs hf hc hdraw hah
  have hlayers : allLayers = allLayers.take (255 : Byte).toNat ++ [255] := allLayers_eq 255
  change s.ahead = layersBits prog allLayers ++ rest at hah
  rw [hlayers, layersBits_append, layersBits_cons, List.append_assoc, List.append_assoc,
    List.append_assoc] at hah
  obtain ⟨t, ht, hloop⟩ := arunLoop_programs (allLayers.take (255 : Byte).toNat) [255]
    ⟨hs, hf, hc⟩ (fun l _ => hdraw l) hah
  obtain ⟨u, hu, elast⟩ := lrun_endsLayer 255 ht.ready (hdraw 255) ht.ahead (endsLayer_stop _ _)
  have e : arunLoop allLayers s = some ({ status := .ok, data := 0 }, endLayer u) := by
    rw [hlayers, hloop, arunLoop_ok elast, arunLoop]
  obtain ⟨br, pos, cursor, dx, dy, g, hnext, hbr, hahead, hpen, hgrid⟩ :=
    answer_of_kept (sourceKept_arunLoop _ e) (portsKept_respects.arunLoop _ e)
      { status := .ok, data := 0 } (f := s.fault) hu.layer rfl (hu.ready.fault.trans hf.symm)
  refine ⟨br, pos, cursor, dx, dy, g, (exec_arun arg e).trans hnext, hbr.trans hc,
    hahead.trans hu.ahead, hpen ▸ hu.pen, fun l j => ?_⟩
  have hl : l = 255 ∨ l ∈ allLayers.take (255 : Byte).toNat :=
    eq_or_mem_take_allLayers.2 (Nat.le_of_lt_succ l.isLt)
  exact (hgrid l j).trans ((ht.picture_layer hu l j).trans (if_pos hl))

/-- Settles O53: the layers before `b` end one by one, and the LRUN of `b` ends the loop. -/
theorem arunKeepsPicturesOnFault : Obligations.ArunKeepsPicturesOnFault := by
  intro arg s b prog cells p bits rest f hs hf hc hdraw hpen hah hfault
  refine ⟨faultAt_consumed hfault, ?_⟩
  have hbefore : ∀ l ∈ allLayers.take b.toNat, drawnBy (prog l) = some (cells l) := fun l hl =>
    hdraw l (eq_or_mem_take_allLayers.1 (.inr hl))
  obtain ⟨t, ht, hloop⟩ := arunLoop_programs (allLayers.take b.toNat)
    (b :: allLayers.drop (b.toNat + 1)) ⟨hs, hf, hc⟩ hbefore hah
  rw [← ht.fails] at hfault
  obtain ⟨u, hu, elast⟩ := lrun_faultAt b ht.ready (hdraw b le_rfl) hpen ht.ahead hfault
  have e : arunLoop allLayers s = some ({ status := .fault f, data := 0 }, raise f u) := by
    rw [allLayers_eq b, hloop, arunLoop_fault elast]
  obtain ⟨br, pos, cursor, dx, dy, g, hnext, hbr, hahead, hp, hgrid⟩ :=
    answer_of_kept (sourceKept_arunLoop _ e) (portsKept_respects.arunLoop _ e)
      { status := .fault f, data := 0 } hu.layer hu.active (raise_fault_of_none f u hu.ready.fault)
  refine ⟨br, pos, cursor, dx, dy, g, (exec_arun arg e).trans hnext, hbr.trans hc,
    hahead.trans hu.ahead, hp.trans (Option.some.inj (hu.pen.symm.trans hpen)), fun l j => ?_⟩
  refine (hgrid l j).trans ((ht.picture_layer hu l j).trans ?_)
  simp only [eq_or_mem_take_allLayers]

/-! ### The first fault ends ARUN -/

/-- A command that recorded a fault where there was none answered it (R142). -/
theorem Fits.eq_fault {s t : State} {r : Rsp} {c : FaultCode} (h : Fits s (r, t))
    (hs : s.fault = none) (ht : t.fault = some c) : r = { status := .fault c, data := 0 } := by
  obtain ⟨status, data⟩ := r
  obtain ⟨hdata, hstatus⟩ := h
  cases status with
  | ok => cases ht.symm.trans (hstatus.trans hs)
  | eos => cases ht.symm.trans (hstatus.trans hs)
  | fault c' =>
    obtain rfl : c' = c := Option.some.inj (hstatus.symm.trans ht)
    obtain rfl : data = 0 := hdata (by simp)
    rfl

/-- LRUN b leaves `b` as the current layer (R120, R123). -/
theorem lrun_layer {b : Byte} {s t : State} {r : Rsp} (hf : s.fault = none)
    (h : lrun b s = some (r, t)) : t.layer = b := by
  rw [lrun, lbegin, gated_none hf] at h
  exact (drawsInLayer_lrunLoop _ h).layer

/-- A loop over rising layers that records a fault stops at one of them, and no later layer has been
touched. -/
theorem arunLoop_first_fault {ls : List Byte} (hls : ls.Pairwise fun l m => l.toNat < m.toNat)
    {s t : State} {r : Rsp} (h : arunLoop ls s = some (r, t)) (hs : s.fault = none)
    (ht : t.fault ≠ none) :
    t.layer ∈ ls ∧ ∀ l j, t.layer.toNat < l.toNat → t.gridBit l j = s.gridBit l j := by
  induction ls generalizing s with
  | nil =>
    cases h
    exact absurd hs ht
  | cons b ls ih =>
    obtain ⟨hb, hls⟩ := List.pairwise_cons.1 hls
    obtain ⟨⟨r1, s1⟩, e⟩ := lrun_ends b s
    have hother : ∀ l j, b.toNat < l.toNat → s1.gridBit l j = s.gridBit l j := fun l j hl =>
      gridBit_lrun e (fun hlb => by simp [hlb] at hl) j
    simp only [arunLoop, e] at h
    split at h
    · cases h
      have hlayer : t.layer = b := lrun_layer hs e
      exact ⟨hlayer ▸ List.mem_cons_self, fun l j hl => hother l j (hlayer ▸ hl)⟩
    · rename_i hok
      have hs1 : s1.fault = none := 
        ((fits_lrun e).1.fault_kept fun c hc => hok fun h => by cases hc.symm.trans h).trans hs
      obtain ⟨hmem, hkept⟩ := ih hls h hs1
      exact ⟨List.mem_cons_of_mem b hmem,
        fun l j hl => (hkept l j hl).trans (hother l j ((hb _ hmem).trans hl))⟩

/-- Settles O36: the loop's response fits its state, and the layers rise. -/
theorem arunStopsAtFirstFault : Obligations.ArunStopsAtFirstFault := by
  intro arg s t c hs h ht
  obtain ⟨r, u, e, rfl⟩ := answerLoop_next h
  have hfit := (fits_arunLoop _ e).1
  obtain ⟨-, hrsps⟩ := portsKept_respects.arunLoop _ e
  obtain ⟨-, hkept⟩ := arunLoop_first_fault allLayers_pairwise e hs
    fun hu => by simp [hu] at ht
  refine ⟨?_, hkept⟩
  rw [respond_rsps, hrsps, hfit.eq_fault hs ht]

/-! ### ARUN where no instruction is left (R183) -/

/-- With at most 1 bit ahead a fetch ends at its first read, which consumes nothing (R114). -/
theorem decodeOne_pastEnd {s : State} (h : s.Ready) (hfail : s.src.failsAhead = false)
    (hlen : s.ahead.length ≤ 1) : decodeOne s = (.stop, endLayer s) := by
  have hread : readBits 2 s = (.error .eos, s) := by
    rw [readBits_of_lt h.inv h.opened (by decide) (by decide) (by omega), hfail, if_neg (by decide)]
  simp only [decodeOne, fetchChain, decodeWith, hread]
  rfl

theorem lrun_pastEnd (b : Byte) {s : State} (h : s.Ready) (hfail : s.src.failsAhead = false)
    (hlen : s.ahead.length ≤ 1) :
    lrun b s = some ({ status := .ok, data := 0 }, endLayer (lbeginBody b s).2) :=
  have hbegin := lbeginBody_ready h b
  lrun_of_loop h.fault (lrunLoop_stop hbegin.fault rfl (decodeOne_pastEnd hbegin hfail hlen) 0)

/-- The loop past the end of the stream: every layer is cleared, and the last one is the current one. -/
theorem arunLoop_pastEnd (ls : List Byte) (b : Byte) {s : State} (h : s.Ready)
    (hfail : s.src.failsAhead = false) (hlen : s.ahead.length ≤ 1) :
    ∃ g : Grid,
      arunLoop (ls ++ [b]) s = some ({ status := .ok, data := 0 }, { s with
        cursor := none
        dx := .pos
        dy := .pos
        layer := b
        active := false
        grid := g }) ∧
      ∀ (l : Byte) (j : BitVec 16),
        g.bit (cellAddr l j) = (decide (l ∉ ls ++ [b]) && s.gridBit l j) := by
  induction ls generalizing s with
  | nil =>
    refine ⟨s.grid.clearLayer b, ?_, fun l j => ?_⟩
    · rw [List.nil_append, arunLoop_ok (lrun_pastEnd b h hfail hlen)]
      rfl
    · rw [List.nil_append, decide_eq_decide.2 List.mem_singleton.not]
      exact gridBit_lbeginBody_eq b s l j
  | cons c ls ih =>
    obtain ⟨g, e, hg⟩ := ih (s := endLayer (lbeginBody c s).2)
      (endLayer_ready (lbeginBody_ready h c) rfl) hfail hlen
    refine ⟨g, ?_, fun l j => ?_⟩
    · rw [List.cons_append, arunLoop_ok (lrun_pastEnd c h hfail hlen), e]
      rfl
    · have hclear : (endLayer (lbeginBody c s).2).gridBit l j = (decide (l ≠ c) && s.gridBit l j) :=
        gridBit_lbeginBody_eq c s l j
      rw [hg, hclear]
      by_cases hl : l = c <;> simp [hl]

/-- Settles O37: each layer is begun and ended, none is drawn in. -/
theorem arunPastEndClearsAllLayers : Obligations.ArunPastEndClearsAllLayers := by
  intro arg s hs hf hc hfail hlen
  have hlayers : allLayers = allLayers.take (255 : Byte).toNat ++ [255] := allLayers_eq 255
  obtain ⟨g, e, hg⟩ :=
    arunLoop_pastEnd (allLayers.take (255 : Byte).toNat) 255 ⟨hs, hf, hc⟩ hfail hlen
  rw [← hlayers] at e hg
  refine ⟨g, exec_arun arg e, fun l j => ?_⟩
  have hl : l ∈ allLayers := List.mem_map.2 ⟨l.toNat, List.mem_range.2 l.isLt, BitVec.ofNat_toNat ..⟩
  simp [hg, hl]

end Sys2Proof.Machine

namespace Sys2Proof.Machine

/-! ### USE_AFTER_CLOSE (R145) -/

/-- CLOSE answers `OK` whatever fault is recorded, and keeps the code (R83, R143). -/
theorem exec_close_answersOk (arg : Byte) (s : State) :
    ∃ t, exec (.close arg) s = .next t ∧ t.fault = s.fault ∧
      t.rsps = s.rsps ++ [{ status := .ok, data := 0 }] := by
  cases hc : s.br.closed with
  | true => exact ⟨_, congrArg answer (closeReader_closed hc), rfl, rfl⟩
  | false => exact ⟨_, congrArg answer (closeReader_open hc), rfl, rfl⟩

/-- STEP with a layer open faults at the first read of its fetch (R122, R145). -/
theorem exec_step_closed (arg : Byte) {s : State} (hf : s.fault = none) (ha : s.active = true)
    (hc : s.br.closed = true) :
    exec (.step arg) s = .next { s with
      fault := some .useAfterClose
      rsps := s.rsps ++ [{ status := .fault .useAfterClose, data := 0 }] } := by
  rw [exec_step_active arg hf ha, decodeOne_closed hc, answerStep_fault _ hf]

/-- Settles O17: the closed flag is the first test of every read, and CLOSE and LBEGIN read nothing. -/
theorem closedReaderFaultsEveryRead : Obligations.ClosedReaderFaultsEveryRead := by
  intro s hc hf
  refine ⟨fun n => ?_, fun i hi => ?_, fun i hi => ?_⟩
  · rw [readBits_closed n hc, raise_of_none _ s hf]
  · obtain ⟨n, rfl⟩ | ⟨a, rfl⟩ | ⟨a, rfl, ha⟩ := hi
    · exact exec_rdbits_of_read_fault hf (readBits_closed _ hc)
    · exact exec_rdbits_of_read_fault (n := 8) hf (readBits_closed _ hc)
    · exact exec_step_closed a hf ha hc
  · obtain ⟨a, rfl⟩ | ⟨b, rfl⟩ := hi
    · obtain ⟨t, hnext, hfault, hrsps⟩ := exec_close_answersOk a s
      exact ⟨t, hnext, hfault.trans hf, hrsps⟩
    · rw [exec_lbegin, gated_none hf]
      exact ⟨_, rfl, hf, rfl⟩

/-! ### IO_FAILURE inside an instruction (R144, R155) -/

/-- Settles O29: the fetch raises the failure behind the instruction's whole fields. -/
theorem failedPullFaultsStep : Obligations.FailedPullFaultsStep := by
  intro arg s rest hs hf ha hc hfail hd
  obtain ⟨_, ⟨⟨br, pos, rfl⟩, hclosed, -, -, -⟩, hrest, hone⟩ := decodeOne_of_error hs hc hd
  rw [if_pos hfail] at hone
  refine ⟨br, pos, ?_, hclosed, hrest⟩
  rw [exec_step_active arg hf ha, hone, answerStep_fault (s := s.withReader br pos) _ hf]
  rfl

/-! ### LAYER_NOT_OPEN (R150) -/

/-- STEP with no layer open raises before it reads (R121, R150). -/
theorem exec_step_inactive (arg : Byte) {s : State} (hf : s.fault = none) (ha : s.active = false) :
    exec (.step arg) s = .next { s with
      fault := some .layerNotOpen
      rsps := s.rsps ++ [{ status := .fault .layerNotOpen, data := 0 }] } := by
  have hbody : stepBody s =
      ({ status := .fault .layerNotOpen, data := 0 }, raise .layerNotOpen s) := by
    rw [stepBody, if_neg (by simp [ha])]
  simp only [exec, execStep, stepCommand, gated_none hf, hbody, raise_of_none _ s hf, answer, respond]

/-- The recorded fault, if any, is not `LAYER_NOT_OPEN`. -/
def NoLayerNotOpen (s : State) : Prop := s.fault ≠ some .layerNotOpen

theorem NoLayerNotOpen.of_none {s : State} (h : s.fault = none) : NoLayerNotOpen s := by
  simp [NoLayerNotOpen, h]

/-- Raising another code does not record `LAYER_NOT_OPEN` (R21). -/
theorem NoLayerNotOpen.raise {c : FaultCode} (hc : c ≠ .layerNotOpen) {s : State}
    (h : NoLayerNotOpen s) : NoLayerNotOpen (raise c s) := by
  cases hf : s.fault with
  | none => simpa [NoLayerNotOpen, raise_fault_of_none c s hf] using hc
  | some first => rwa [NoLayerNotOpen, raise_fault_of_some c first s hf, ← hf]

theorem NoLayerNotOpen.respond {s : State} (h : NoLayerNotOpen s) (r : Rsp) :
    NoLayerNotOpen (respond r s) := h

/-- The faults of a read are those of R144 to R146. -/
theorem readBits_noLayerNotOpen (n : Nat) {s : State} (h : NoLayerNotOpen s) :
    NoLayerNotOpen (readBits n s).2 := by
  rcases readBits_cases n s with ⟨-, e⟩ | ⟨-, -, e⟩ | ⟨-, -, -, -, -, e⟩ | ⟨-, -, -, -, -, -, e⟩ |
    ⟨b, -, -, -, -, -, -, e⟩ | ⟨-, -, -, -, e⟩ <;> rw [e]
  · exact h.raise (by decide)
  · exact h.raise (by decide)
  · exact h.raise (by decide)
  · exact h
  · exact h
  · exact h

/-- The faults of a step instruction are those of R147 and R148. -/
theorem move_noLayerNotOpen (ax ay : Bool) {s : State} (h : NoLayerNotOpen s) :
    NoLayerNotOpen (move ax ay s).2 := by
  unfold move
  split
  · exact h.raise (by decide)
  · split
    · exact h.raise (by decide)
    · exact h

/-- The faults of a chain instruction are those of R147 to R149. -/
theorem runChain_noLayerNotOpen (c : ChainInstr) {s : State} (h : NoLayerNotOpen s) :
    NoLayerNotOpen (runChain c s).2 := by
  cases c with
  | stepx => exact move_noLayerNotOpen true false h
  | stepy => exact move_noLayerNotOpen false true h
  | stepxy => exact move_noLayerNotOpen true true h
  | rsv2 => exact h.raise (by decide)
  | rsv3 => exact h.raise (by decide)
  | _ => exact h

/-- A chain instruction is not what tests whether a layer is open (R122). -/
theorem decodeOne_noLayerNotOpen {s : State} (h : NoLayerNotOpen s) :
    NoLayerNotOpen (decodeOne s).2 := by
  have hfetch := fetchChain_keeps (fun n _ => readBits_noLayerNotOpen n) h
  unfold decodeOne
  rcases e : fetchChain s with ⟨(_ | f) | c, t⟩ <;> rw [e] at hfetch
  · exact hfetch
  · exact hfetch
  · exact runChain_noLayerNotOpen c hfetch

/-- A chain instruction that lets the layer continue leaves it open and has recorded no fault (R121). -/
theorem decodeOne_cont_keeps {s t : State} (h : decodeOne s = (.cont, t)) :
    t.active = s.active ∧ t.fault = s.fault := by
  rcases decodeOne_cases s with ⟨c, br, pos, -, -, -, -, e⟩ | ⟨br, pos, -, -, e⟩ |
    ⟨f, br, pos, -, -, e⟩ <;> rw [e] at h
  · obtain ⟨-, c', rfl⟩ | ⟨-, d, rfl | rfl⟩ := runChain_cont h <;> exact ⟨rfl, rfl⟩
  · cases h
  · cases h

/-- Every STEP of the loop finds the layer open (R123). -/
theorem lrunLoop_noLayerNotOpen (fuel : Nat) {s t : State} {r : Rsp} (hf : s.fault = none)
    (ha : s.active = true) (h : lrunLoop fuel s = some (r, t)) : NoLayerNotOpen t := by
  induction fuel generalizing s with
  | zero => cases h
  | succ fuel ih =>
    have hone := decodeOne_noLayerNotOpen (.of_none hf)
    rcases e : decodeOne s with ⟨_ | _ | f, u⟩ <;> rw [e] at hone
    · obtain ⟨hactive, hfault⟩ := decodeOne_cont_keeps e
      rw [lrunLoop_cont hf ha e] at h
      exact ih (hfault.trans hf) (hactive.trans ha) h
    · rw [lrunLoop_stop hf ha e] at h
      cases h
      exact hone
    · rw [lrunLoop_fault hf ha e] at h
      cases h
      exact hone

/-- LRUN begins the layer that its STEPs find open (R120, R123). -/
theorem lrun_noLayerNotOpen {b : Byte} {s t : State} {r : Rsp} (hf : s.fault = none)
    (h : lrun b s = some (r, t)) : NoLayerNotOpen t := by
  rw [lrun, lbegin, gated_none hf] at h
  exact lrunLoop_noLayerNotOpen _ (s := (lbeginBody b s).2) hf rfl h

/-- An LRUN that answers `OK` has recorded no fault (R142). -/
theorem lrun_ok_fault {b : Byte} {s t : State} {r : Rsp} (h : lrun b s = some (r, t))
    (hok : r.status = .ok) : t.fault = s.fault :=
  (fits_lrun h).1.fault_kept fun c hc => by cases hc.symm.trans hok

theorem arunLoop_noLayerNotOpen (bs : List Byte) {s t : State} {r : Rsp} (hf : s.fault = none)
    (h : arunLoop bs s = some (r, t)) : NoLayerNotOpen t := by
  induction bs generalizing s with
  | nil =>
    cases h
    exact .of_none hf
  | cons b bs ih =>
    obtain ⟨⟨r1, s1⟩, e⟩ := lrun_ends b s
    simp only [arunLoop, e] at h
    split at h
    · cases h
      exact lrun_noLayerNotOpen hf e
    · rename_i hok
      exact ih ((lrun_ok_fault e (not_not.1 hok)).trans hf) h

/-- Settles O30: STEP tests `active` before it reads, and the STEPs of LRUN and ARUN find it set. -/
theorem stepNeedsOpenLayer : Obligations.StepNeedsOpenLayer := by
  refine ⟨fun arg s hf ha => exec_step_inactive arg hf ha, rfl, fun s t h => ?_, fun s => rfl,
    fun i s t hi hf h => ?_⟩
  · rw [answer_next h]
    rfl
  · obtain ⟨b, rfl⟩ | ⟨a, rfl⟩ := hi
    · obtain ⟨r, s', e, rfl⟩ := answerLoop_next h
      exact (lrun_noLayerNotOpen hf e).respond r
    · obtain ⟨r, s', e, rfl⟩ := answerLoop_next h
      exact (arunLoop_noLayerNotOpen allLayers hf e).respond r

end Sys2Proof.Machine

namespace Sys2Proof.Machine

/-! ### Faults are sticky (R143) -/

/-- LRUN behind a recorded fault ends at its LBEGIN (R123, R143). -/
theorem lrun_of_fault (b : Byte) {s : State} {c : FaultCode} (hf : s.fault = some c) :
    lrun b s = some ({ status := .fault c, data := 0 }, s) := by
  rw [lrun, lbegin, gated_some hf]
  rfl

/-- ARUN behind a recorded fault ends at its first layer (R124, R143). -/
theorem arun_of_fault {s : State} {c : FaultCode} (hf : s.fault = some c) :
    arunLoop allLayers s = some ({ status := .fault c, data := 0 }, s) := by
  rw [show allLayers = 0 :: allLayers.drop 1 from allLayers_eq 0]
  exact arunLoop_fault (lrun_of_fault 0 hf) _

/-- Every command but CLOSE answers a recorded fault and changes nothing (R143). -/
theorem exec_of_fault {i : Instr} (hi : isCommand i = true) (hclose : isClose i = false) {s : State}
    {c : FaultCode} (hf : s.fault = some c) :
    exec i s = .next (respond { status := .fault c, data := 0 } s) := by
  cases i with
  | rdbits n => exact exec_rdbits_of_fault n hf
  | rdbyte a => exact exec_rdbits_of_fault 8 hf
  | close a => cases hclose
  | lbegin b => exact congrArg answer (gated_some hf)
  | step a => exact congrArg answer (gated_some hf)
  | lrun b => exact exec_lrun (lrun_of_fault b hf)
  | arun a => exact exec_arun a (arun_of_fault hf)
  | _ => cases hi

/-- A reserved command word runs the body of R151 behind the gate (R154). -/
theorem step_reservedCommand {s : State} {w : CmdWord} {rest : List HostInput} {e : DecodeError}
    (hin : s.inputs = .cmd w :: rest) (hd : decodeCmd w = .error e) :
    step s = answer (gated badCommandBody { s with inputs := rest }) := by
  simp only [step, nextInput_cons hin, hd, answerBadCommand]

/-- Everything a command is made of keeps a recorded code: only CLOSE acts behind one, and it leaves
`fault` alone (R21, R143). -/
theorem recordedFault_respects (c : FaultCode) :
    Respects fun s t => s.fault = some c → t.fault = some c where
  refl _ := id
  trans h1 h2 := h2 ∘ h1
  read _ _ hf h := by simp [hf] at h
  fetch _ hf _ h := by simp [hf] at h
  raise _ _ hf h := by simp [hf] at h
  mark _ _ _ _ := id
  setDx _ _ _ _ := id
  setDy _ _ _ _ := id
  endLayer _ _ _ := id
  lbegin _ _ _ := id
  close s h := by
    cases hc : s.br.closed with
    | true => rwa [closeReader_closed hc]
    | false => rwa [closeReader_open hc]

/-- Settles O38: the gate answers the code before the command's body, and only reset writes `fault`
behind a recorded code. -/
theorem recordedFaultGatesCommands : Obligations.RecordedFaultGatesCommands := by
  intro s c hf
  refine ⟨fun i hi hclose => exec_of_fault hi hclose hf, fun w rest e hin hd => ?_, fun arg => ?_,
    fun t h => ?_⟩
  · rw [step_reservedCommand hin hd, gated_some (s := { s with inputs := rest }) hf]
    rfl
  · obtain ⟨t, hnext, hfault, hrsps⟩ := exec_close_answersOk arg s
    exact ⟨t, hnext, hfault.trans hf, hrsps⟩
  · rcases step_cases (recordedFault_respects c) h with
      ⟨-, rfl⟩ | ⟨p, d, f, rest, hin, -⟩ | ⟨w, rest, r, s', -, rfl, hkeep, -, -⟩
    · exact .inr hf
    · exact .inl (by simp [State.resetComes, hin])
    · exact .inr (hkeep hf)

/-! ### BAD_COMMAND (R151) -/

/-- An `op` that is none of the seven of R72 is reserved. -/
theorem decodeCmd_reserved {w : CmdWord}
    (h : (cmdOp w).toNat ∉ [0x1, 0x2, 0x3, 0x8, 0x9, 0xA, 0xB]) :
    decodeCmd w = .error (.reservedCommand (cmdOp w)) := by
  have hne : ∀ op : BitVec 4, op.toNat ∈ [0x1, 0x2, 0x3, 0x8, 0x9, 0xA, 0xB] → cmdOp w ≠ op := by
    rintro op hop rfl
    exact h hop
  rw [decodeCmd, if_neg (hne 0x1 (by decide)), if_neg (hne 0x2 (by decide)),
    if_neg (hne 0x3 (by decide)), if_neg (hne 0x8 (by decide)), if_neg (hne 0x9 (by decide)),
    if_neg (hne 0xA (by decide)), if_neg (hne 0xB (by decide))]

/-- Settles O40: the word decodes to nothing, and with no fault recorded the gate lets `BAD_COMMAND`
through. -/
theorem reservedCommandFaults : Obligations.ReservedCommandFaults := by
  intro s w rest hin hf hop
  rw [step_reservedCommand hin (decodeCmd_reserved hop),
    gated_none (s := { s with inputs := rest }) hf, badCommandBody,
    raise_of_none _ { s with inputs := rest } hf]
  rfl

/-! ### The order of tests (R154) -/

/-- A step from the sentinel records `DRAW_UNPOSITIONED`, wherever it would lead (R90, R154). -/
theorem fault_of_move_unpositioned (ax ay : Bool) {s t : State} (hf : s.fault = none)
    (hc : s.cursor = none) (h : answerStep (move ax ay s) = .next t) :
    t.fault = some .drawUnpositioned := by
  rw [move_unpositioned ax ay hc, answerStep_fault _ hf] at h
  cases h
  rfl

/-- Settles O42: STEP tests the layer before it reads, a read the closed flag before the length, and a
step instruction the sentinel before the range. -/
theorem testsComeInOrder : Obligations.TestsComeInOrder := by
  intro s hf
  refine ⟨fun arg t _ ha h => ?_, fun t hc h => ?_, fun i t hi hcursor h => ?_⟩
  · rw [exec_step_inactive arg hf ha] at h
    cases h
    rfl
  · rw [exec_rdbits_of_read_fault hf (readBits_closed _ hc)] at h
    cases h
    rfl
  · simp only [List.mem_cons, List.not_mem_nil, or_false] at hi
    obtain rfl | rfl | rfl := hi
    · exact fault_of_move_unpositioned true false hf hcursor h
    · exact fault_of_move_unpositioned false true hf hcursor h
    · exact fault_of_move_unpositioned true true hf hcursor h

end Sys2Proof.Machine

namespace Sys2Proof.Machine

/-! ### Reset (R170 to R173) -/

/-- A reset as the oldest input is taken by `step` (R170). -/
theorem step_reset {s : State} {p : Bool} {data : List Byte} {failAt : Option Nat}
    {rest : List HostInput} (hin : s.inputs = .reset p data failAt :: rest) :
    step s = .next (resetWith p data failAt { s with inputs := rest }) := by
  simp only [step, nextInput_cons hin]

/-- The reset state is its own reset, bound to the source with no bytes (R171, R173). -/
theorem resetWith_reset : resetWith false [] none State.reset = State.reset := rfl

/-- Settles O43: `step` takes its reset branch, and no layer is open behind it. -/
theorem resetGivesResetValues : Obligations.ResetGivesResetValues := by
  intro s p data failAt rest hin
  exact ⟨_, step_reset hin, resetWith_br .., resetWith_cursor .., resetWith_dx .., resetWith_dy ..,
    resetWith_layer .., resetWith_active .., resetWith_fault .., resetWith_src ..,
    resetWith_propagateClose .., resetWith_grid .., resetWith_inputs .., resetWith_rsps ..,
    fun arg => exec_step_inactive arg (resetWith_fault ..) (resetWith_active ..)⟩

/-- Settles O45: the invariant holds behind every reset of a canonical GRID, and the empty one is
canonical. -/
theorem resetMeetsInvariant : Obligations.ResetMeetsInvariant := by
  rw [Obligations.ResetMeetsInvariant, ← resetWith_reset]
  exact resetWith_inv (s := State.reset) empty_wf false [] none

end Sys2Proof.Machine
